-- ==== Sys2Proof/Word.lean ====
section
/-! DEFINITION. The words of the block: every value is unsigned (00_scope.md R9). -/

namespace Sys2Proof

/-- `u8` of R9. -/
abbrev Byte := BitVec 8

/-- `u32` of R9: a register, the bus data. -/
abbrev Word := BitVec 32

end Sys2Proof
end

