-- ==== Sys2Proof/Syntax.lean ====
section
/-! DEFINITION. What reaches the block's ports: a bus transaction, the inputs of one clock cycle, and the
instructions, one constructor per row of spec/opcode_table.json (00_scope.md R3). -/

namespace Sys2Proof

/-- The request half of a bus transaction, as its signals (30_encoding.md R85). -/
structure Request where
  /-- `we`: 1 for a write, 0 for a read. -/
  we : Bool
  /-- `off`: byte offset inside the window. -/
  off : BitVec 12
  /-- `size`: 0 = 8-bit, 1 = 16-bit, 2 = 32-bit, 3 = reserved. -/
  size : BitVec 2
  /-- `wdata`: write data, ignored on a read. -/
  wdata : Word
  deriving DecidableEq, Repr, Inhabited

/-- The inputs of one clock cycle (40_cycle_step.md R120): what the host, the byte source, the target and
the reset line do in it (R126). -/
structure CycleIn where
  /-- `rst`, active high (R97). -/
  rst : Bool
  /-- The cycle's transaction; `none` is `bus_valid = 0` (R85). -/
  bus : Option Request
  /-- `rx_valid` (R94). -/
  rxValid : Bool
  /-- `rx_data` (R94). -/
  rxData : Byte
  /-- `edge_in` (R95). -/
  edgeIn : Bool
  deriving DecidableEq, Repr, Inhabited

/-- The rows of spec/opcode_table.json (30_encoding.md R89, R94, R95, R97). -/
inductive Instr where
  /-- RD_Q_DATA (R141). -/
  | rdQData
  /-- RD_Q_LEVEL (R142). -/
  | rdQLevel
  /-- RD_Q_CAPACITY (R143). -/
  | rdQCapacity
  /-- RD_Q_STATUS (R144). -/
  | rdQStatus
  /-- WR_Q_STATUS (R145). -/
  | wrQStatus (wdata : Word)
  /-- RD_DET_PAT_LEN (R164). -/
  | rdDetPatLen
  /-- WR_DET_PAT_LEN (R163). -/
  | wrDetPatLen (wdata : Word)
  /-- WR_DET_COMMIT (R165). -/
  | wrDetCommit (wdata : Word)
  /-- RD_DET_STATUS (R173). -/
  | rdDetStatus
  /-- RD_DET_RXCOUNT (R174). -/
  | rdDetRxcount
  /-- RD_DET_PAT_WORD, `k = off[6:2]` (R162, R88). -/
  | rdDetPatWord (k : BitVec 5)
  /-- WR_DET_PAT_WORD, `k = off[6:2]` (R161, R88). -/
  | wrDetPatWord (k : BitVec 5) (wdata : Word)
  /-- RD_SEQ_CTRL (R195). -/
  | rdSeqCtrl
  /-- WR_SEQ_CTRL (R193; R194 when `wdata[2] = 1`). -/
  | wrSeqCtrl (wdata : Word)
  /-- WR_SEQ_TXF (R192). -/
  | wrSeqTxf (wdata : Word)
  /-- RD_SEQ_STATUS (R206). -/
  | rdSeqStatus
  /-- WR_SEQ_IRQ_CLR (R205). -/
  | wrSeqIrqClr (wdata : Word)
  /-- RD_SEQ_DELAY (R207). -/
  | rdSeqDelay
  /-- RD_SEQ_WIDTH (R208). -/
  | rdSeqWidth
  /-- RD_SEQ_COUNT (R209). -/
  | rdSeqCount
  /-- RD_RESERVED, the default read row (R90). -/
  | rdReserved (off : BitVec 12)
  /-- WR_RESERVED, the default write row (R90). -/
  | wrReserved (off : BitVec 12) (wdata : Word)
  /-- BUS_ERROR: `size != 2` or `off[1:0] != 0` (R231). -/
  | busError (we : Bool) (off : BitVec 12) (size : BitVec 2) (wdata : Word)
  /-- RX_BYTE: `rx_valid = 1` with `rx_data` (R94). -/
  | rxByte (data : Byte)
  /-- EDGE_SAMPLE: `edge_in` (R95). -/
  | edgeSample (level : Bool)
  /-- RST: `rst = 1` (R97). -/
  | rst
  deriving DecidableEq, Repr, Inhabited

end Sys2Proof
end

