-- ==== Sys2Proof/Config.lean ====
section
/-! DEFINITION. The parameters a model of the block takes (00_scope.md R7), the opaque constants for those
the spec leaves OPEN, and the free inputs of the environment (40_cycle_step.md R126). -/

namespace Sys2Proof

/-- `EDGE_POLARITY`: which transition is "the external edge" (R7, 43_timing_sequencer.md R199). -/
inductive Polarity where
  | rising
  | falling
  deriving DecidableEq, Repr, Inhabited

/-- The parameters of R7. They are no state of the block (10_state.md R22): no step changes them. -/
structure Params where
  /-- `A`: `QUEUE_SIZE = 2^A`. -/
  a : Nat
  /-- `MATCH_RESCAN` (42_pattern_detector.md R168): true is 1. -/
  matchRescan : Bool
  /-- `SYNC_STAGES`, `S`. -/
  syncStages : Nat
  /-- `DIRECT_PULSE_CYCLES`. -/
  directPulse : BitVec 16
  /-- `F_CLK`, in hertz; no rule of the block depends on it (70_reset_and_hazards.md R275). -/
  fClk : Nat
  /-- `TXF_DEPTH`. -/
  txfDepth : Nat
  /-- `EDGE_POLARITY`. -/
  edgePolarity : Polarity
  /-- `EDGE_LATENCY`, the least of its range; it lies outside the block (30_encoding.md R95). -/
  edgeLatencyMin : Nat
  /-- `EDGE_LATENCY`, the most of its range. -/
  edgeLatencyMax : Nat
  /-- `BASE_ADDR`; the bus decodes it before the block sees a transaction (R85). -/
  baseAddr : Word
  deriving DecidableEq, Repr, Inhabited

/-- The constraints of R7's table. -/
abbrev Params.wf (p : Params) : Prop :=
  1 ≤ p.a ∧ p.a ≤ 30 ∧ 1 ≤ p.syncStages ∧ 1 ≤ p.directPulse.toNat ∧ 0 < p.fClk ∧
    2 ≤ p.txfDepth ∧ p.txfDepth ≤ 15 ∧ p.edgeLatencyMin ≤ p.edgeLatencyMax ∧
    p.baseAddr.extractLsb' 0 12 = 0#12

/-- `PATTERN_MAX`, fixed (R7). -/
def patternMax : Nat := 128

/-- `DIRECT_PULSE_CYCLES` less 1, OPEN (R7, 92_eei_decisions.md D16); 1 to 65535 cycles. -/
opaque Config.directPulsePred : Fin 65535

/-- `F_CLK` less 1, OPEN (R7). -/
opaque Config.fClkPred : Nat

/-- `EDGE_LATENCY`, OPEN (R7, D22): the least, and how far its range goes above it. -/
opaque Config.edgeLatency : Nat × Nat

/-- `BASE_ADDR[31:12]`, OPEN (R7, D7). -/
opaque Config.basePage : BitVec 20

/-- The inputs of a cycle that nobody placed in State's `inputs`, by the cycle's number: the host, the byte
source and the target may do anything in it (R126; 93_implementation_defined.md part 2, "any value").
A free value; log entry 1. -/
opaque Config.freeInput : Nat → CycleIn

/-- The reference and default values of R7, the OPEN parameters at their opaque constants. -/
def Params.reference : Params where
  a := 13
  matchRescan := false
  syncStages := 2
  directPulse := BitVec.ofNat 16 (Config.directPulsePred.val + 1)
  fClk := Config.fClkPred + 1
  txfDepth := 4
  edgePolarity := .rising
  edgeLatencyMin := Config.edgeLatency.1
  edgeLatencyMax := Config.edgeLatency.1 + Config.edgeLatency.2
  baseAddr := Config.basePage ++ 0#12

end Sys2Proof
end

