-- ==== Sys2Proof/Machine/State.lean ====
section
/-! DEFINITION. The state of the block as plain data (10_state.md R22 to R25), the reasons a step can stop, and
the state after reset (R49). -/

namespace Sys2Proof.Machine

/-- A byte store by address: strictly rising addresses, no entry equal to what an unlisted address reads as
(`Memory.wf`). It holds `QMem`, `PatS` and `PatA` (20_memory.md R60). -/
abbrev Memory := List Host.Cell

/-- `dstate` (10_state.md R24). Code 3 is never reached and is typed out (log entry 8). -/
inductive DState where
  | idle
  | pulse
  | push
  deriving DecidableEq, Repr, Inhabited

/-- `sstate` (10_state.md R25, 43_timing_sequencer.md R190). Codes 6 and 7 are never reached and are typed
out (log entry 8). -/
inductive SState where
  | idle
  | loadWidth
  | waitEdge
  | delay
  | pulse
  | fired
  deriving DecidableEq, Repr, Inhabited

/-- Relay Queue state (10_state.md R23). The pointers are numbers counted modulo `2^(A+1)` (log entry 9). -/
structure RelayQueue where
  /-- `QMem[0..Q-1]`. -/
  qmem : Memory
  /-- `wptr`, pushes mod `2^(A+1)`. -/
  wptr : Nat
  /-- `wgray`. -/
  wgray : Nat
  /-- `rptr`, pops mod `2^(A+1)`. -/
  rptr : Nat
  /-- `rgray`. -/
  rgray : Nat
  /-- `wsync[1..S]`, stage 1 first. -/
  wsync : List Nat
  /-- `rsync[1..S]`, stage 1 first. -/
  rsync : List Nat
  /-- `stall_seen`. -/
  stallSeen : Bool
  deriving DecidableEq, Repr

/-- Pattern Detector state (10_state.md R24). -/
structure Detector where
  /-- `PatS[0..127]`. -/
  patS : Memory
  /-- `LenS`. -/
  lenS : Byte
  /-- `PatA[0..127]`. -/
  patA : Memory
  /-- `LenA`. -/
  lenA : Byte
  /-- `cur_pos`. -/
  curPos : Byte
  /-- `dstate`. -/
  dstate : DState
  /-- `hold`. -/
  hold : Byte
  /-- `pcnt`. -/
  pcnt : BitVec 16
  /-- `trig`. -/
  trig : Bool
  /-- `rx_count`. -/
  rxCount : Word
  deriving DecidableEq, Repr

/-- Timing Sequencer state (10_state.md R25). -/
structure Sequencer where
  /-- `en`. -/
  en : Bool
  /-- `irq_en`. -/
  irqEn : Bool
  /-- `sstate`. -/
  sstate : SState
  /-- `txf`, head first. -/
  txf : List Word
  /-- `txf_ovf`. -/
  txfOvf : Bool
  /-- `irq_pend`. -/
  irqPend : Bool
  /-- `dly`. -/
  dly : Word
  /-- `wid`. -/
  wid : Word
  /-- `cnt`. -/
  cnt : Word
  /-- `out`. -/
  out : Bool
  /-- `prev`. -/
  prev : Bool
  /-- `prev_valid`. -/
  prevValid : Bool
  deriving DecidableEq, Repr

/-- The `resp` codes (60_exceptions.md R232). -/
inductive Resp where
  /-- 0. -/
  | okay
  /-- 1: BUS_ERROR only (R231). -/
  | error
  deriving DecidableEq, Repr, Inhabited

/-- The response half of a transaction (30_encoding.md R85). -/
structure Reply where
  resp : Resp
  rdata : Word
  deriving DecidableEq, Repr, Inhabited

/-- The outputs of one cycle (40_cycle_step.md R120, R125): the response where the cycle carried a
transaction, and the four output ports. -/
structure CycleOut where
  reply : Option Reply
  rxReady : Bool
  trigOut : Bool
  seqOut : Bool
  irq : Bool
  deriving DecidableEq, Repr, Inhabited

/-- The levels at the input ports in the current cycle, less the transaction's own fields, which are the
instruction's operands, and less `rst` (log entry 2). -/
structure Port where
  /-- `bus_valid` (R85). -/
  busValid : Bool
  /-- `rx_valid` (R94). -/
  rxValid : Bool
  /-- `rx_data` (R94). -/
  rxData : Byte
  /-- `edge_in` (R95). -/
  edgeIn : Bool
  deriving DecidableEq, Repr, Inhabited

/-- The machine: the block's state (`rq`, `pd`, `ts`), and the model's own fields that stand for the
parameters, inputs and outputs which R22 does not count as state. -/
structure State where
  /-- The parameters (00_scope.md R7); no step changes them. Log entry 5. -/
  params : Params
  /-- R23. -/
  rq : RelayQueue
  /-- R24. -/
  pd : Detector
  /-- R25. -/
  ts : Sequencer
  /-- The inputs of the coming cycles, next first. Log entry 1. -/
  inputs : List CycleIn
  /-- Cycles performed; the argument of the free input. Log entry 1. -/
  cycles : Nat
  /-- The input levels of the current cycle. Log entry 2. -/
  port : Port
  /-- The outputs of the last cycle. Log entry 10. -/
  out : CycleOut
  deriving DecidableEq, Repr

/-- The block never faults: "The block never stops, never faults and never refuses a cycle"
(40_cycle_step.md R127; 60_exceptions.md R230). No constructor, so nobody raises one. Log entry 12. -/
inductive Fault where
  deriving DecidableEq, Repr

/-- No meaning of this model refuses (R127). -/
inductive Refusal where
  /-- Raised by an arm of `exec` whose instruction has no meaning yet; there is none. Safe. -/
  | notModelled (mnemonic : String)
  deriving DecidableEq, Repr

/-- RQ after reset (10_state.md R23), over whatever the storage holds (70_reset_and_hazards.md R260). -/
def RelayQueue.reset (p : Params) (qmem : Memory) : RelayQueue where
  qmem := qmem
  wptr := 0
  wgray := 0
  rptr := 0
  rgray := 0
  wsync := List.replicate p.syncStages 0
  rsync := List.replicate p.syncStages 0
  stallSeen := false

/-- PD after reset (10_state.md R24). -/
def Detector.reset : Detector where
  patS := []
  lenS := 0
  patA := []
  lenA := 0
  curPos := 0
  dstate := .idle
  hold := 0
  pcnt := 0
  trig := false
  rxCount := 0

/-- TS after reset (10_state.md R25). -/
def Sequencer.reset : Sequencer where
  en := false
  irqEn := false
  sstate := .idle
  txf := []
  txfOvf := false
  irqPend := false
  dly := 0
  wid := 0
  cnt := 0
  out := false
  prev := false
  prevValid := false

/-- The outputs of a reset cycle (70_reset_and_hazards.md R261), with the response given to the transaction
in it, if any (40_cycle_step.md R123). -/
def CycleOut.reset (reply : Option Reply) : CycleOut where
  reply := reply
  rxReady := false
  trigOut := false
  seqOut := false
  irq := false

/-- The machine right after reset, for given parameters: R49 and R260 for the block; no inputs placed. -/
def State.resetWith (p : Params) : State where
  params := p
  rq := RelayQueue.reset p []
  pd := Detector.reset
  ts := Sequencer.reset
  inputs := []
  cycles := 0
  port := ⟨false, false, 0, false⟩
  out := CycleOut.reset none

/-- The machine right after reset, with R7's reference and default values. -/
def State.reset : State := State.resetWith Params.reference

end Sys2Proof.Machine
end

