-- ==== Sys2Proof/Machine/Flags.lean ====
section
/-! DEFINITION. Gray codes and pointers modulo `2^(A+1)` (00_scope.md R11, 41_relay_queue.md R136), the views and
flags of RQ (R138), the edge (43_timing_sequencer.md R199), and the output ports (40_cycle_step.md R125). -/

namespace Sys2Proof.Machine

/-- `QUEUE_SIZE = 2^A`, `Q`. -/
def queueSize (p : Params) : Nat := 2 ^ p.a

/-- `M = 2^(A+1)`, the modulus the pointers count in (R136). -/
def ptrModulus (p : Params) : Nat := 2 ^ (p.a + 1)

/-- `gray(b) = b XOR (b >> 1)` (R11). -/
def gray (b : Nat) : Nat := b ^^^ (b >>> 1)

/-- The inverse of `gray` on `n` bits: bit `i` is the XOR of bits `i` and up (R11). -/
def ungray : Nat → Nat → Nat
  | 0, _ => 0
  | n + 1, g => g ^^^ ungray n (g >>> 1)

/-- `ptr + 1`, counted modulo `M` (R136). -/
def ptrSucc (p : Params) (ptr : Nat) : Nat := (ptr + 1) % ptrModulus p

/-- `(x - y) mod M` (R138). -/
def ptrSub (p : Params) (x y : Nat) : Nat :=
  (x + (ptrModulus p - y % ptrModulus p)) % ptrModulus p

/-- `ptr[A-1:0]`, the storage slot of a pointer (R136). -/
def slotOf (p : Params) (ptr : Nat) : Nat := ptr % queueSize p

/-- Stage `S` of a synchronizer (R137). -/
def lastStage (p : Params) (stages : List Nat) : Nat := stages.getD (p.syncStages - 1) 0

/-- `Ws = bin(wsync[S])`, the consumer's view of `wptr` (R138). -/
def viewW (p : Params) (q : RelayQueue) : Nat := ungray (p.a + 1) (lastStage p q.wsync)

/-- `Rs = bin(rsync[S])`, the producer's view of `rptr` (R138). -/
def viewR (p : Params) (q : RelayQueue) : Nat := ungray (p.a + 1) (lastStage p q.rsync)

/-- `level_c = (Ws - rptr) mod M` (R138). -/
def levelC (p : Params) (q : RelayQueue) : Nat := ptrSub p (viewW p q) q.rptr

/-- `level_p = (wptr - Rs) mod M` (R138). -/
def levelP (p : Params) (q : RelayQueue) : Nat := ptrSub p q.wptr (viewR p q)

/-- `empty_c` (R138). -/
def emptyC (p : Params) (q : RelayQueue) : Bool := levelC p q == 0

/-- `full_c` (R138). -/
def fullC (p : Params) (q : RelayQueue) : Bool := levelC p q == queueSize p

/-- `full_p` (R138). -/
def fullP (p : Params) (q : RelayQueue) : Bool := levelP p q == queueSize p

/-- `edge`: a change between two successive samples, in the direction of `EDGE_POLARITY` (R199). -/
def edgeSeen (p : Params) (ts : Sequencer) (edgeIn : Bool) : Bool :=
  ts.prevValid &&
    match p.edgePolarity with
    | .rising => !ts.prev && edgeIn
    | .falling => ts.prev && !edgeIn

/-- `irq = irq_pend AND irq_en` (60_exceptions.md R234). -/
def irqLine (ts : Sequencer) : Bool := ts.irqPend && ts.irqEn

/-- The outputs of a cycle that is no reset cycle: functions of the state at its start (R125), and the
response of its transaction. -/
def outputsOf (s : State) (reply : Option Reply) : CycleOut where
  reply := reply
  rxReady := s.pd.dstate == .idle
  trigOut := s.pd.trig
  seqOut := s.ts.out
  irq := irqLine s.ts

end Sys2Proof.Machine
end

