-- ==== Sys2Proof/Machine/Operands.lean ====
section
/-! DEFINITION. The operand forms: slices of `wdata` (30_encoding.md R88), the little-endian bytes of a pattern
word (20_memory.md R62), the offset of an address in the window (R61, R85), and the packing of the registers
a read returns (10_state.md R30 to R45). -/

namespace Sys2Proof.Machine

/-- `wdata[i]`. -/
def wbit (w : Word) (i : Nat) : Bool := w.getLsbD i

/-- `wdata[8j+7 : 8j]`. -/
def wbyte (w : Word) (j : Nat) : Byte := w.extractLsb' (8 * j) 8

/-- The index of pattern byte `4k + j` (R161). -/
def patByteIndex (k : BitVec 5) (j : Nat) : Nat := 4 * k.toNat + j

/-- `zext_32` of a byte. -/
def zext (b : Byte) : Word := b.setWidth 32

/-- A count as register bits; every count of the block is below `2^32` (R31, R32). -/
def natWord (n : Nat) : Word := BitVec.ofNat 32 n

/-- A popped byte in `Q_DATA`: `VALID` in bit 8, `DATA` in 7:0 (R30, R141). -/
def packQData (b : Byte) : Word := 0#23 ++ 1#1 ++ b

/-- `Q_STATUS`: `{stall_seen, full_c, empty_c}` (R33, R144). -/
def packQStatus (stall full empty : Bool) : Word :=
  0#29 ++ BitVec.ofBool stall ++ BitVec.ofBool full ++ BitVec.ofBool empty

/-- `{b3, b2, b1, b0}`, byte 0 least significant (R38, R62). -/
def packBytes (b0 b1 b2 b3 : Byte) : Word := b3 ++ b2 ++ b1 ++ b0

/-- The code of `dstate` (R24). -/
def DState.code : DState → BitVec 2
  | .idle => 0#2
  | .pulse => 1#2
  | .push => 2#2

/-- The code of `sstate` (R25, R190). -/
def SState.code : SState → BitVec 3
  | .idle => 0#3
  | .loadWidth => 1#3
  | .waitEdge => 2#3
  | .delay => 3#3
  | .pulse => 4#3
  | .fired => 5#3

/-- `DET_STATUS`: `{trig, dstate, LenA, cur_pos}` (R36, R173). -/
def packDetStatus (trig : Bool) (d : DState) (lenA curPos : Byte) : Word :=
  0#13 ++ BitVec.ofBool trig ++ d.code ++ lenA ++ curPos

/-- `SEQ_CTRL`: `{0, irq_en, en}`, `RESET_ARM` reads 0 (R39, R195). -/
def packSeqCtrl (irqEn en : Bool) : Word := 0#30 ++ BitVec.ofBool irqEn ++ BitVec.ofBool en

/-- `SEQ_STATUS`: `{length(txf)[3:0], 0, prev, out, txf_ovf, irq_pend, sstate}` (R41, R206). -/
def packSeqStatus (level : Nat) (prev out ovf pend : Bool) (st : SState) : Word :=
  0#20 ++ BitVec.ofNat 4 level ++ 0#1 ++ BitVec.ofBool prev ++ BitVec.ofBool out ++
    BitVec.ofBool ovf ++ BitVec.ofBool pend ++ st.code

/-- The window offset of a bus address: `addr - BASE_ADDR` where `addr[31:12] = BASE_ADDR[31:12]`; any other
address never reaches the block (R61, R85). -/
def windowOffset (p : Params) (addr : Word) : Option (BitVec 12) :=
  if addr.extractLsb' 12 20 = p.baseAddr.extractLsb' 12 20 then some (addr.extractLsb' 0 12) else none

end Sys2Proof.Machine
end

