-- ==== Sys2Proof/Machine/Memory.lean ====
section
/-! DEFINITION. The byte stores `QMem`, `PatS`, `PatA` (20_memory.md R60): reading and writing one byte in
canonical form, and the little-endian word of a pattern store. -/

namespace Sys2Proof.Machine

/-- What an unlisted address reads as. For `PatS` and `PatA` it is the reset value (10_state.md R24); for
`QMem` any value will do (R48, R128), log entry 6. -/
def blankByte : Byte := 0x00#8

/-- The byte at an address (`x[i]` of 00_scope.md R11). -/
def Memory.read : Memory → Nat → Byte
  | [], _ => blankByte
  | (b, v) :: m, a => if b = a then v else Memory.read m a

/-- `x[i] <- v` (R11), keeping the canonical form. -/
def Memory.write : Memory → Nat → Byte → Memory
  | [], a, v => if v = blankByte then [] else [(a, v)]
  | (b, w) :: m, a, v =>
    if a < b then (if v = blankByte then (b, w) :: m else (a, v) :: (b, w) :: m)
    else if a = b then (if v = blankByte then m else (a, v) :: m)
    else (b, w) :: Memory.write m a v

/-- Canonical from address `lo` on: strictly rising, no blank entry. -/
def Memory.wfFrom : Nat → Memory → Bool
  | _, [] => true
  | lo, (a, v) :: m => decide (lo ≤ a) && (v != blankByte) && Memory.wfFrom (a + 1) m

/-- The canonical form: addresses strictly rising, no entry equal to what an unlisted address reads as. -/
def Memory.wf (m : Memory) : Bool := Memory.wfFrom 0 m

/-- Every listed address is below `n`. -/
def Memory.below (m : Memory) (n : Nat) : Bool := m.all (fun c => decide (c.1 < n))

/-- `for j in 0..3: PatS[4k + j] <- wdata[8j+7 : 8j]` (42_pattern_detector.md R161). -/
def Memory.writeWord (m : Memory) (k : BitVec 5) (w : Word) : Memory :=
  (((m.write (patByteIndex k 0) (wbyte w 0)).write (patByteIndex k 1) (wbyte w 1)).write
    (patByteIndex k 2) (wbyte w 2)).write (patByteIndex k 3) (wbyte w 3)

/-- `{PatS[4k+3], PatS[4k+2], PatS[4k+1], PatS[4k]}` (R162). -/
def Memory.readWord (m : Memory) (k : BitVec 5) : Word :=
  packBytes (m.read (patByteIndex k 0)) (m.read (patByteIndex k 1))
    (m.read (patByteIndex k 2)) (m.read (patByteIndex k 3))

end Sys2Proof.Machine
end

