-- ==== Sys2Proof/Machine/Ops.lean ====
section
/-! DEFINITION. The shared operations: what a transaction proposes, the next state of RQ, PD and TS, one clock
cycle (40_cycle_step.md R121, R124), the reset cycle (R123), and the bus error (60_exceptions.md R231). -/

namespace Sys2Proof.Machine

/-- What the cycle's transaction proposes for the next state (R121's `busEff`); the response is apart. -/
inductive BusEffect where
  /-- No proposal: no transaction, a read without side effect, an ignored write, a bus error. -/
  | none
  /-- `rptr <- rptr + 1`, `rgray <- gray(rptr + 1)` (R141). -/
  | popQueue
  /-- `stall_seen <- 0` (R145). -/
  | clearStall
  /-- A shadow pattern word (R161). -/
  | setPatWord (k : BitVec 5) (w : Word)
  /-- `LenS` (R163). -/
  | setPatLen (n : Byte)
  /-- The commit (R165). -/
  | commit
  /-- `en`, `irq_en` (R193). -/
  | setEnables (en irqEn : Bool)
  /-- RESET_ARM (R194). -/
  | resetArm (irqEn : Bool)
  /-- A value for `txf` (R192). -/
  | pushTxf (v : Word)
  /-- The interrupt clear (R205). -/
  | clearIrq
  deriving DecidableEq, Repr

/-- `resp = OKAY` with read data (R232). -/
def Reply.ok (rdata : Word) : Reply := ⟨.okay, rdata⟩

/-- `raise BusError(off)` (00_scope.md R11): the transaction ends with `resp = ERROR`, `rdata = 0`, and
proposes nothing (60_exceptions.md R231). The block records nothing of it and has no return operation (R238). -/
def busErrorReply : Reply := ⟨.error, 0#32⟩

/-! ## Relay Queue -/

/-- One shift of a synchronizer: stage 1 takes the gray pointer, stage `i` the old stage `i-1` (R137). -/
def syncShift (p : Params) (g : Nat) (stages : List Nat) : List Nat :=
  (g :: stages).take p.syncStages

/-- PD offers `hold` to the queue: it is in `D_PUSH` (42_pattern_detector.md R170). -/
def wantsPush (pd : Detector) : Bool := pd.dstate == .push

/-- The push happens: PD is in `D_PUSH` and the producer view is not full (R139, R140). -/
def pushes (p : Params) (q : RelayQueue) (pd : Detector) : Bool := wantsPush pd && !fullP p q

/-- The producer is blocked in this cycle (R146). -/
def stalls (p : Params) (q : RelayQueue) (pd : Detector) : Bool := wantsPush pd && fullP p q

/-- A `Q_DATA` read pops in this state: `level_c > 0` (R141). -/
def canPop (p : Params) (q : RelayQueue) : Bool := decide (0 < levelC p q)

/-- The byte at the head of the queue in the consumer view: `QMem[rptr[A-1:0]]` (R141). -/
def headByte (p : Params) (q : RelayQueue) : Byte := q.qmem.read (slotOf p q.rptr)

/-- RQ at the end of the cycle: the synchronizers (R137), the push of `pd.hold` (R139), the pop (R141), the
stall flag, set over clear (R145, R146, R124). Everything on the right is the state at the cycle's start. -/
def nextRq (p : Params) (pd : Detector) (eff : BusEffect) (q : RelayQueue) : RelayQueue where
  qmem := if pushes p q pd then q.qmem.write (slotOf p q.wptr) pd.hold else q.qmem
  wptr := if pushes p q pd then ptrSucc p q.wptr else q.wptr
  wgray := if pushes p q pd then gray (ptrSucc p q.wptr) else q.wgray
  rptr := if eff = .popQueue then ptrSucc p q.rptr else q.rptr
  rgray := if eff = .popQueue then gray (ptrSucc p q.rptr) else q.rgray
  wsync := syncShift p q.wgray q.wsync
  rsync := syncShift p q.rgray q.rsync
  stallSeen := stalls p q pd || (q.stallSeen && !decide (eff = .clearStall))

/-! ## Pattern Detector -/

/-- `ch = PatA[cur_pos]` with `LenA > 0` (R166). An index past 127 is in no reachable state; log entry 7. -/
def matchesCursor (pd : Detector) (ch : Byte) : Bool :=
  decide (0 < pd.lenA.toNat) && (ch == pd.patA.read pd.curPos.toNat)

/-- `cur_pos = LenA - 1` (R166). -/
def atLastByte (pd : Detector) : Bool := pd.curPos == pd.lenA - 1#8

/-- The byte completes the pattern (R166). -/
def fullMatch (pd : Detector) (ch : Byte) : Bool := matchesCursor pd ch && atLastByte pd

/-- The rescan branch of a mismatch (R166, R168). -/
def rescans (p : Params) (pd : Detector) (ch : Byte) : Bool :=
  p.matchRescan && decide (0 < pd.lenA.toNat) && (ch == pd.patA.read 0)

/-- `cur_pos` after an accepted byte, the commit aside (R166). -/
def cursorAfter (p : Params) (pd : Detector) (ch : Byte) : Byte :=
  if matchesCursor pd ch then (if atLastByte pd then 0#8 else pd.curPos + 1#8)
  else if rescans p pd ch then 1#8
  else 0#8

/-- Byte acceptance and match in `D_IDLE` (R166). -/
def acceptByte (p : Params) (pd : Detector) (ch : Byte) : Detector :=
  if fullMatch pd ch then
    { pd with hold := ch, curPos := cursorAfter p pd ch, trig := true, pcnt := p.directPulse,
              dstate := .pulse }
  else { pd with hold := ch, curPos := cursorAfter p pd ch, dstate := .push }

/-- The direct pulse in `D_PULSE` (R169). -/
def pulseStep (pd : Detector) : Detector :=
  if pd.pcnt = 1#16 then { pd with trig := false, pcnt := 0#16, dstate := .push }
  else { pd with pcnt := pd.pcnt - 1#16 }

/-- The push in `D_PUSH`, counted when it happens (R170, R171). -/
def pushStep (pushed : Bool) (pd : Detector) : Detector :=
  if pushed then { pd with rxCount := pd.rxCount + 1#32, dstate := .idle } else pd

/-- PD's own step (R166, R169, R170). -/
def detectorStep (p : Params) (q : RelayQueue) (port : Port) (pd : Detector) : Detector :=
  match pd.dstate with
  | .idle => if port.rxValid then acceptByte p pd port.rxData else pd
  | .pulse => pulseStep pd
  | .push => pushStep (pushes p q pd) pd

/-- The transaction's proposal for PD, over what PD's step proposes; the commit's `cur_pos <- 0` wins
(R161, R163, R165, R124). -/
def applyToDetector (eff : BusEffect) (before stepped : Detector) : Detector :=
  match eff with
  | .setPatWord k w => { stepped with patS := before.patS.writeWord k w }
  | .setPatLen n => { stepped with lenS := n }
  | .commit => { stepped with patA := before.patS, lenA := before.lenS, curPos := 0#8 }
  | .none | .popQueue | .clearStall | .setEnables _ _ | .resetArm _ | .pushTxf _ | .clearIrq => stepped

/-- PD at the end of the cycle. -/
def nextPd (p : Params) (q : RelayQueue) (port : Port) (eff : BusEffect) (pd : Detector) : Detector :=
  applyToDetector eff pd (detectorStep p q port pd)

/-! ## Timing Sequencer -/

/-- `enter_pulse()` (R202). -/
def enterPulse (ts : Sequencer) : Sequencer :=
  if ts.wid = 0#32 then { ts with sstate := .fired, cnt := 0#32, out := false, irqPend := true }
  else { ts with sstate := .pulse, cnt := ts.wid, out := true }

/-- The sequencer's step in a cycle with `en = 1` (R197 to R204). -/
def sequencerStep (edge : Bool) (ts : Sequencer) : Sequencer :=
  match ts.sstate with
  | .idle =>
    match ts.txf with
    | [] => ts
    | v :: rest => { ts with dly := v, txf := rest, sstate := .loadWidth }
  | .loadWidth =>
    match ts.txf with
    | [] => ts
    | v :: rest => { ts with wid := v, txf := rest, sstate := .waitEdge }
  | .waitEdge =>
    if edge then
      if ts.dly = 0#32 then enterPulse ts else { ts with sstate := .delay, cnt := ts.dly }
    else ts
  | .delay => if ts.cnt = 1#32 then enterPulse ts else { ts with cnt := ts.cnt - 1#32 }
  | .pulse =>
    if ts.cnt = 1#32 then { ts with out := false, cnt := 0#32, sstate := .fired, irqPend := true }
    else { ts with cnt := ts.cnt - 1#32 }
  | .fired => ts

/-- R196: with `en = 0` the step does nothing. -/
def gatedStep (edge : Bool) (ts : Sequencer) : Sequencer :=
  if ts.en then sequencerStep edge ts else ts

/-- TS enters `FIRED` in this cycle (R202, R203): R124's "TS entering FIRED". -/
def entersFired (before stepped : Sequencer) : Bool :=
  decide (before.sstate ≠ .fired) && decide (stepped.sstate = .fired)

/-- RESET_ARM (R194): every TS field except the edge sampler; the step's proposal is discarded (R124). -/
def resetArm (irqEn : Bool) (before : Sequencer) : Sequencer where
  en := true
  irqEn := irqEn
  sstate := .idle
  txf := []
  txfOvf := false
  irqPend := false
  dly := 0#32
  wid := 0#32
  cnt := 0#32
  out := false
  prev := before.prev
  prevValid := before.prevValid

/-- `SEQ_IRQ_CLR` merged with the step (R205, R124): a completion in the cycle wins. -/
def clearIrq (before stepped : Sequencer) : Sequencer :=
  if entersFired before stepped then stepped
  else { stepped with irqPend := false,
                      sstate := if before.sstate = .fired then .idle else stepped.sstate }

/-- `SEQ_TXF` merged with the step's pop; whether the push fits is decided on the start-of-cycle length
(R192, R124). -/
def pushTxf (p : Params) (v : Word) (before stepped : Sequencer) : Sequencer :=
  if before.txf.length < p.txfDepth then { stepped with txf := stepped.txf ++ [v] }
  else { stepped with txfOvf := true }

/-- The transaction's proposal for TS, over what the step proposes (R192 to R194, R205, R124). -/
def applyToSequencer (p : Params) (eff : BusEffect) (before stepped : Sequencer) : Sequencer :=
  match eff with
  | .setEnables en irqEn => { stepped with en := en, irqEn := irqEn }
  | .resetArm irqEn => resetArm irqEn before
  | .pushTxf v => pushTxf p v before stepped
  | .clearIrq => clearIrq before stepped
  | .none | .popQueue | .clearStall | .setPatWord _ _ | .setPatLen _ | .commit => stepped

/-- `prev <- edge_in`, `prev_valid <- 1`, in every cycle that is not a reset cycle, whatever `sstate` is (R199).
So in `FIRED` too, where R237 says that the host reads the same `SEQ_STATUS`: bit 6 of it is `prev` (R206) and
follows the pin. The model follows R199 there (DEDUCED, log entry 17). -/
def sampleEdge (edgeIn : Bool) (ts : Sequencer) : Sequencer :=
  { ts with prev := edgeIn, prevValid := true }

/-- TS at the end of the cycle. -/
def nextTs (p : Params) (edgeIn : Bool) (eff : BusEffect) (ts : Sequencer) : Sequencer :=
  sampleEdge edgeIn (applyToSequencer p eff ts (gatedStep (edgeSeen p ts edgeIn) ts))

/-! ## One cycle -/

/-- One cycle that is no reset cycle (R121): the input levels, the transaction's response (none where the
cycle carries none) and its proposal. Every part reads the state at the cycle's start (00_scope.md R10). -/
def runCycle (port : Port) (reply : Option Reply) (eff : BusEffect) (s : State) : State where
  params := s.params
  rq := nextRq s.params s.pd eff s.rq
  pd := nextPd s.params s.rq port eff s.pd
  ts := nextTs s.params port.edgeIn eff s.ts
  inputs := s.inputs
  cycles := s.cycles + 1
  port := port
  out := outputsOf s reply

/-- A cycle that carries a transaction: its response and its proposal, with the port levels of the cycle. -/
def busCycle (reply : Reply) (eff : BusEffect) (s : State) : State :=
  runCycle s.port (some reply) eff s

/-- A read without side effect: OKAY and the data, no proposal. -/
def readCycle (rdata : Word) (s : State) : State := busCycle (Reply.ok rdata) .none s

/-- A write: OKAY, read data 0, and its proposal. -/
def writeCycle (eff : BusEffect) (s : State) : State := busCycle (Reply.ok 0#32) eff s

/-- A cycle with no transaction, at given port levels. -/
def portCycle (port : Port) (s : State) : State := runCycle port none .none s

/-- A reset cycle (R121, R123, 70_reset_and_hazards.md R260, R261): every field at its reset value but `QMem`,
which keeps its contents; a transaction in the cycle gets OKAY and 0 and has no effect. -/
def resetCycle (s : State) : State where
  params := s.params
  rq := RelayQueue.reset s.params s.rq.qmem
  pd := Detector.reset
  ts := Sequencer.reset
  inputs := s.inputs
  cycles := s.cycles + 1
  port := s.port
  out := CycleOut.reset (if s.port.busValid then some (Reply.ok 0#32) else none)

end Sys2Proof.Machine
end

