-- ==== Sys2Proof/Machine/PatternDetector.lean ====
section
/-! DEFINITION. The transactions of the Pattern Detector (42_pattern_detector.md R161 to R165, R173, R174). -/

namespace Sys2Proof.Machine

/-- WR_DET_PAT_WORD (R161). -/
def execWrDetPatWord (k : BitVec 5) (wdata : Word) (s : State) : Host.Outcome State Fault Refusal :=
  .next (writeCycle (.setPatWord k wdata) s)

/-- RD_DET_PAT_WORD (R162). -/
def execRdDetPatWord (k : BitVec 5) (s : State) : Host.Outcome State Fault Refusal :=
  .next (readCycle (s.pd.patS.readWord k) s)

/-- WR_DET_PAT_LEN: all 32 bits are compared with 128 (R163). -/
def execWrDetPatLen (wdata : Word) (s : State) : Host.Outcome State Fault Refusal :=
  .next (writeCycle (if wdata.toNat ≤ patternMax then .setPatLen (wbyte wdata 0) else .none) s)

/-- RD_DET_PAT_LEN (R164). -/
def execRdDetPatLen (s : State) : Host.Outcome State Fault Refusal :=
  .next (readCycle (zext s.pd.lenS) s)

/-- WR_DET_COMMIT (R165). -/
def execWrDetCommit (wdata : Word) (s : State) : Host.Outcome State Fault Refusal :=
  .next (writeCycle (if wbit wdata 0 then .commit else .none) s)

/-- RD_DET_STATUS (R173). -/
def execRdDetStatus (s : State) : Host.Outcome State Fault Refusal :=
  .next (readCycle (packDetStatus s.pd.trig s.pd.dstate s.pd.lenA s.pd.curPos) s)

/-- RD_DET_RXCOUNT (R174). -/
def execRdDetRxcount (s : State) : Host.Outcome State Fault Refusal :=
  .next (readCycle s.pd.rxCount s)

end Sys2Proof.Machine
end

