-- ==== Sys2Proof/Machine/Ports.lean ====
section
/-! DEFINITION. The port inputs (30_encoding.md R94, R95, R97), each as a cycle without a transaction: the
instruction sets its own signals, the other ports stand at State's `port` levels (log entry 2). -/

namespace Sys2Proof.Machine

/-- RX_BYTE: a cycle that offers a byte (R94, R166). -/
def execRxByte (data : Byte) (s : State) : Host.Outcome State Fault Refusal :=
  .next (portCycle { s.port with rxValid := true, rxData := data } s)

/-- EDGE_SAMPLE: a cycle with this level at the edge input (R95, R199). -/
def execEdgeSample (level : Bool) (s : State) : Host.Outcome State Fault Refusal :=
  .next (portCycle { s.port with edgeIn := level } s)

/-- RST: a reset cycle (R97, R260). -/
def execRst (s : State) : Host.Outcome State Fault Refusal :=
  .next (resetCycle s)

end Sys2Proof.Machine
end

