-- ==== Sys2Proof/Machine/RelayQueue.lean ====
section
/-! DEFINITION. The transactions of the Relay Queue (41_relay_queue.md R141 to R145). -/

namespace Sys2Proof.Machine

/-- RD_Q_DATA, `try_pop()` (R141). -/
def execRdQData (s : State) : Host.Outcome State Fault Refusal :=
  .next (if canPop s.params s.rq
    then busCycle (Reply.ok (packQData (headByte s.params s.rq))) .popQueue s
    else readCycle 0#32 s)

/-- RD_Q_LEVEL, `level()` (R142). -/
def execRdQLevel (s : State) : Host.Outcome State Fault Refusal :=
  .next (readCycle (natWord (levelC s.params s.rq)) s)

/-- RD_Q_CAPACITY, `capacity()` (R143). -/
def execRdQCapacity (s : State) : Host.Outcome State Fault Refusal :=
  .next (readCycle (natWord (queueSize s.params)) s)

/-- RD_Q_STATUS (R144). -/
def execRdQStatus (s : State) : Host.Outcome State Fault Refusal :=
  .next (readCycle (packQStatus s.rq.stallSeen (fullC s.params s.rq) (emptyC s.params s.rq)) s)

/-- WR_Q_STATUS (R145). -/
def execWrQStatus (wdata : Word) (s : State) : Host.Outcome State Fault Refusal :=
  .next (writeCycle (if wbit wdata 2 then .clearStall else .none) s)

end Sys2Proof.Machine
end

