-- ==== Sys2Proof/Machine/Reserved.lean ====
section
/-! DEFINITION. The default rows (30_encoding.md R90) and the bus error (60_exceptions.md R231). -/

namespace Sys2Proof.Machine

/-- RD_RESERVED: OKAY, reads 0 whatever the offset (R90). -/
def execRdReserved (_off : BitVec 12) (s : State) : Host.Outcome State Fault Refusal :=
  .next (readCycle 0#32 s)

/-- WR_RESERVED: OKAY, no state change whatever the offset and the data (R90). -/
def execWrReserved (_off : BitVec 12) (_wdata : Word) (s : State) : Host.Outcome State Fault Refusal :=
  .next (writeCycle .none s)

/-- BUS_ERROR: ERROR and 0, no state change whatever the request holds (R231). -/
def execBusError (_we : Bool) (_off : BitVec 12) (_size : BitVec 2) (_wdata : Word) (s : State) :
    Host.Outcome State Fault Refusal :=
  .next (busCycle busErrorReply .none s)

end Sys2Proof.Machine
end

