-- ==== Sys2Proof/Machine/TimingSequencer.lean ====
section
/-! DEFINITION. The transactions of the Timing Sequencer (43_timing_sequencer.md R192 to R195, R205 to R209). -/

namespace Sys2Proof.Machine

/-- WR_SEQ_TXF (R192). -/
def execWrSeqTxf (wdata : Word) (s : State) : Host.Outcome State Fault Refusal :=
  .next (writeCycle (.pushTxf wdata) s)

/-- WR_SEQ_CTRL: RESET_ARM where `wdata[2] = 1` (R194), else the enables (R193). -/
def execWrSeqCtrl (wdata : Word) (s : State) : Host.Outcome State Fault Refusal :=
  .next (writeCycle
    (if wbit wdata 2 then .resetArm (wbit wdata 1) else .setEnables (wbit wdata 0) (wbit wdata 1)) s)

/-- RD_SEQ_CTRL (R195). -/
def execRdSeqCtrl (s : State) : Host.Outcome State Fault Refusal :=
  .next (readCycle (packSeqCtrl s.ts.irqEn s.ts.en) s)

/-- WR_SEQ_IRQ_CLR (R205). -/
def execWrSeqIrqClr (wdata : Word) (s : State) : Host.Outcome State Fault Refusal :=
  .next (writeCycle (if wbit wdata 0 then .clearIrq else .none) s)

/-- RD_SEQ_STATUS (R206). -/
def execRdSeqStatus (s : State) : Host.Outcome State Fault Refusal :=
  .next (readCycle
    (packSeqStatus s.ts.txf.length s.ts.prev s.ts.out s.ts.txfOvf s.ts.irqPend s.ts.sstate) s)

/-- RD_SEQ_DELAY (R207). -/
def execRdSeqDelay (s : State) : Host.Outcome State Fault Refusal :=
  .next (readCycle s.ts.dly s)

/-- RD_SEQ_WIDTH (R208). -/
def execRdSeqWidth (s : State) : Host.Outcome State Fault Refusal :=
  .next (readCycle s.ts.wid s)

/-- RD_SEQ_COUNT (R209). -/
def execRdSeqCount (s : State) : Host.Outcome State Fault Refusal :=
  .next (readCycle s.ts.cnt s)

end Sys2Proof.Machine
end

