-- ==== Sys2Proof/Machine/Dispatch.lean ====
section
/-! DEFINITION. One arm per instruction, each a call of its meaning. -/

namespace Sys2Proof.Machine

def exec (i : Instr) (s : State) : Host.Outcome State Fault Refusal :=
  match i with
  | .rdQData => Sys2Proof.Machine.execRdQData s
  | .rdQLevel => Sys2Proof.Machine.execRdQLevel s
  | .rdQCapacity => Sys2Proof.Machine.execRdQCapacity s
  | .rdQStatus => Sys2Proof.Machine.execRdQStatus s
  | .wrQStatus wdata => Sys2Proof.Machine.execWrQStatus wdata s
  | .rdDetPatLen => Sys2Proof.Machine.execRdDetPatLen s
  | .wrDetPatLen wdata => Sys2Proof.Machine.execWrDetPatLen wdata s
  | .wrDetCommit wdata => Sys2Proof.Machine.execWrDetCommit wdata s
  | .rdDetStatus => Sys2Proof.Machine.execRdDetStatus s
  | .rdDetRxcount => Sys2Proof.Machine.execRdDetRxcount s
  | .rdDetPatWord k => Sys2Proof.Machine.execRdDetPatWord k s
  | .wrDetPatWord k wdata => Sys2Proof.Machine.execWrDetPatWord k wdata s
  | .rdSeqCtrl => Sys2Proof.Machine.execRdSeqCtrl s
  | .wrSeqCtrl wdata => Sys2Proof.Machine.execWrSeqCtrl wdata s
  | .wrSeqTxf wdata => Sys2Proof.Machine.execWrSeqTxf wdata s
  | .rdSeqStatus => Sys2Proof.Machine.execRdSeqStatus s
  | .wrSeqIrqClr wdata => Sys2Proof.Machine.execWrSeqIrqClr wdata s
  | .rdSeqDelay => Sys2Proof.Machine.execRdSeqDelay s
  | .rdSeqWidth => Sys2Proof.Machine.execRdSeqWidth s
  | .rdSeqCount => Sys2Proof.Machine.execRdSeqCount s
  | .rdReserved off => Sys2Proof.Machine.execRdReserved off s
  | .wrReserved off wdata => Sys2Proof.Machine.execWrReserved off wdata s
  | .busError we off size wdata => Sys2Proof.Machine.execBusError we off size wdata s
  | .rxByte data => Sys2Proof.Machine.execRxByte data s
  | .edgeSample level => Sys2Proof.Machine.execEdgeSample level s
  | .rst => Sys2Proof.Machine.execRst s

end Sys2Proof.Machine
end

