-- ==== Sys2Proof/WellFormed.lean ====
section
/-! DEFINITION. Which terms of Instr stand for a row of the opcode table: the two default rows hold only what
no other row matches (30_encoding.md R87, R90), and BUS_ERROR only what is illegal (R92). -/

namespace Sys2Proof

/-- `size = 2` and `off[1:0] = 0`: the accesses the block accepts (20_memory.md R63). -/
def legalAccess (size : BitVec 2) (off : BitVec 12) : Bool :=
  size == 2#2 && off.extractLsb' 0 2 == 0#2

/-- An offset of `DET_PAT_WORD[k]`: 0x100 + 4k, k = 0..31 (10_state.md R29). -/
def isPatWordOffset (off : BitVec 12) : Bool :=
  decide (0x100 ≤ off.toNat) && decide (off.toNat ≤ 0x17F)

/-- The word offsets a read has a row of its own for (R89). -/
def readOffsets : List (BitVec 12) :=
  [0x000#12, 0x004#12, 0x008#12, 0x00C#12, 0x040#12, 0x048#12, 0x04C#12,
   0x080#12, 0x088#12, 0x090#12, 0x094#12, 0x098#12]

/-- The word offsets a write has a row of its own for (R89). -/
def writeOffsets : List (BitVec 12) :=
  [0x00C#12, 0x040#12, 0x044#12, 0x080#12, 0x084#12, 0x08C#12]

/-- The terms that stand for a row of the table. -/
def Instr.wf : Instr → Bool
  | .rdReserved off => legalAccess 2#2 off && !readOffsets.contains off && !isPatWordOffset off
  | .wrReserved off _ => legalAccess 2#2 off && !writeOffsets.contains off && !isPatWordOffset off
  | .busError _ off size _ => !legalAccess size off
  | .rdQData | .rdQLevel | .rdQCapacity | .rdQStatus | .wrQStatus _
  | .rdDetPatLen | .wrDetPatLen _ | .wrDetCommit _ | .rdDetStatus | .rdDetRxcount
  | .rdDetPatWord _ | .wrDetPatWord _ _
  | .rdSeqCtrl | .wrSeqCtrl _ | .wrSeqTxf _ | .rdSeqStatus | .wrSeqIrqClr _
  | .rdSeqDelay | .rdSeqWidth | .rdSeqCount
  | .rxByte _ | .edgeSample _ | .rst => true

end Sys2Proof
end

