-- ==== Sys2Proof/Decode.lean ====
section
/-! DEFINITION. Decoding a transaction by the opcode table (30_encoding.md R86 to R90), decoding the byte frame
in which this model writes one event down (log entry 3), and after them the encoder. -/

namespace Sys2Proof

/-- A non-default row of R89: the transactions with `key AND mask = match`, and the instruction they are. -/
structure Row where
  mtch : BitVec 13
  mask : BitVec 13
  build : BitVec 5 → Word → Instr

/-- `key = {we, off}` (R86). -/
def Request.key (r : Request) : BitVec 13 := BitVec.ofBool r.we ++ r.off

/-- `k = off[6:2]` (R88). -/
def patIndex (off : BitVec 12) : BitVec 5 := off.extractLsb' 2 5

/-- The rows of R89 that are not default, RQ's. -/
def rowsRq : List Row :=
  [⟨0x0000#13, 0x1FFF#13, fun _ _ => .rdQData⟩,
   ⟨0x0004#13, 0x1FFF#13, fun _ _ => .rdQLevel⟩,
   ⟨0x0008#13, 0x1FFF#13, fun _ _ => .rdQCapacity⟩,
   ⟨0x000C#13, 0x1FFF#13, fun _ _ => .rdQStatus⟩,
   ⟨0x100C#13, 0x1FFF#13, fun _ w => .wrQStatus w⟩]

/-- PD's rows. -/
def rowsPd : List Row :=
  [⟨0x0040#13, 0x1FFF#13, fun _ _ => .rdDetPatLen⟩,
   ⟨0x1040#13, 0x1FFF#13, fun _ w => .wrDetPatLen w⟩,
   ⟨0x1044#13, 0x1FFF#13, fun _ w => .wrDetCommit w⟩,
   ⟨0x0048#13, 0x1FFF#13, fun _ _ => .rdDetStatus⟩,
   ⟨0x004C#13, 0x1FFF#13, fun _ _ => .rdDetRxcount⟩,
   ⟨0x0100#13, 0x1F83#13, fun k _ => .rdDetPatWord k⟩,
   ⟨0x1100#13, 0x1F83#13, fun k w => .wrDetPatWord k w⟩]

/-- TS's rows. -/
def rowsTs : List Row :=
  [⟨0x0080#13, 0x1FFF#13, fun _ _ => .rdSeqCtrl⟩,
   ⟨0x1080#13, 0x1FFF#13, fun _ w => .wrSeqCtrl w⟩,
   ⟨0x1084#13, 0x1FFF#13, fun _ w => .wrSeqTxf w⟩,
   ⟨0x0088#13, 0x1FFF#13, fun _ _ => .rdSeqStatus⟩,
   ⟨0x108C#13, 0x1FFF#13, fun _ w => .wrSeqIrqClr w⟩,
   ⟨0x0090#13, 0x1FFF#13, fun _ _ => .rdSeqDelay⟩,
   ⟨0x0094#13, 0x1FFF#13, fun _ _ => .rdSeqWidth⟩,
   ⟨0x0098#13, 0x1FFF#13, fun _ _ => .rdSeqCount⟩]

/-- Every non-default row of R89. -/
def rows : List Row := rowsRq ++ rowsPd ++ rowsTs

/-- The row matches the key (R86). -/
def Row.hits (row : Row) (key : BitVec 13) : Bool := (key &&& row.mask) == row.mtch

/-- Decoding a transaction, in R87's order: total, every request is exactly one row. -/
def decodeRequest (r : Request) : Instr :=
  if legalAccess r.size r.off then
    match rows.find? (·.hits r.key) with
    | some row => row.build (patIndex r.off) r.wdata
    | none => if r.we then .wrReserved r.off r.wdata else .rdReserved r.off
  else .busError r.we r.off r.size r.wdata

/-- Why a byte string is not the frame of an event. -/
inductive DecodeError where
  /-- Fewer than the eight bytes of a frame. -/
  | truncated
  /-- A bit outside the frame's fields is set. -/
  | strayBits
  /-- A port frame whose value is no row of the table (`rx_valid = 0`, `rst = 0`). -/
  | noEvent
  deriving DecidableEq, Repr

/-- Which signal group a frame's low bits are: the transaction's key, `{rx_valid, rx_data}`, `{edge_in}` or
`{rst}` (R86, R94, R95, R97). The tags are the model's own; log entry 3. -/
inductive FrameTag where
  | bus
  | rx
  | edge
  | rst
  deriving DecidableEq, Repr

def FrameTag.code : FrameTag → BitVec 2
  | .bus => 0#2
  | .rx => 1#2
  | .edge => 2#2
  | .rst => 3#2

def FrameTag.ofCode (c : BitVec 2) : FrameTag :=
  if c = 0#2 then .bus else if c = 1#2 then .rx else if c = 2#2 then .edge else .rst

/-- The 64 bits of a frame: `low` in 12:0 as the table numbers it, `wdata` in 47:16, the tag in 49:48, and in
51:50 `size XOR 2`, so that a frame that says nothing of the size is word-sized, as every encoded transaction
is (R98). All other bits are 0. Log entry 3. -/
def frame (tag : FrameTag) (size : BitVec 2) (wdata : Word) (low : BitVec 13) : BitVec 64 :=
  0#12 ++ (size ^^^ 2#2) ++ tag.code ++ wdata ++ 0#3 ++ low

/-- The event a 64-bit frame stands for. -/
def decodeFrame (w : BitVec 64) : Except DecodeError Instr :=
  let low := w.extractLsb' 0 13
  let wdata := w.extractLsb' 16 32
  let size := w.extractLsb' 50 2 ^^^ 2#2
  if w.extractLsb' 13 3 ≠ 0#3 ∨ w.extractLsb' 52 12 ≠ 0#12 then .error .strayBits
  else
    match FrameTag.ofCode (w.extractLsb' 48 2) with
    | .bus => .ok (decodeRequest ⟨low.getLsbD 12, low.extractLsb' 0 12, size, wdata⟩)
    | .rx =>
      if wdata ≠ 0#32 ∨ size ≠ 2#2 ∨ low.extractLsb' 9 4 ≠ 0#4 then .error .strayBits
      else if low.getLsbD 8 then .ok (.rxByte (low.extractLsb' 0 8)) else .error .noEvent
    | .edge =>
      if wdata ≠ 0#32 ∨ size ≠ 2#2 ∨ low.extractLsb' 1 12 ≠ 0#12 then .error .strayBits
      else .ok (.edgeSample (low.getLsbD 0))
    | .rst =>
      if wdata ≠ 0#32 ∨ size ≠ 2#2 ∨ low.extractLsb' 1 12 ≠ 0#12 then .error .strayBits
      else if low.getLsbD 0 then .ok .rst else .error .noEvent

/-- Bytes to a number, the first byte least significant (log entry 3). -/
def ofBytes : List Byte → Nat
  | [] => 0
  | b :: bs => b.toNat + 256 * ofBytes bs

/-- The `n` low bytes of a number, least significant first. -/
def toBytes : Nat → Nat → List Byte
  | 0, _ => []
  | n + 1, v => BitVec.ofNat 8 v :: toBytes n (v / 256)

/-- The first event of a byte string and the bytes after it; total on any bytes. -/
def decode (bs : List Byte) : Except DecodeError (Instr × List Byte) :=
  if bs.length < 8 then .error .truncated
  else
    match decodeFrame (BitVec.ofNat 64 (ofBytes (bs.take 8))) with
    | .ok i => .ok (i, bs.drop 8)
    | .error e => .error e

/-- The instruction the decoder reads from an instruction word numbered as the opcode table numbers it, every
bit above `nbits` being 0. -/
def decodeTableWord (nbits w : Nat) : Option Instr :=
  if w % 2 ^ nbits < 2 ^ 64 then
    match decode (toBytes 8 (w % 2 ^ nbits)) with
    | .ok (i, _) => some i
    | .error _ => none
  else none

/-! ## The encoder -/

/-- `{we, off}` of a register access at a literal offset. -/
def keyOf (we : Bool) (off : BitVec 12) : BitVec 13 := BitVec.ofBool we ++ off

/-- The offset of `DET_PAT_WORD[k]`, 0x100 + 4k (10_state.md R29). -/
def patOffset (k : BitVec 5) : BitVec 12 := 2#5 ++ k ++ 0#2

/-- The frame of a word-sized read at an offset. -/
def encRead (off : BitVec 12) : BitVec 64 := frame .bus 2#2 0#32 (keyOf false off)

/-- The frame of a word-sized write at an offset. -/
def encWrite (off : BitVec 12) (wdata : Word) : BitVec 64 := frame .bus 2#2 wdata (keyOf true off)

/-- The frame of an instruction, from the offsets of R29 and R89 and the port encodings of R94, R95, R97. -/
def encode : Instr → BitVec 64
  | .rdQData => encRead 0x000#12
  | .rdQLevel => encRead 0x004#12
  | .rdQCapacity => encRead 0x008#12
  | .rdQStatus => encRead 0x00C#12
  | .wrQStatus w => encWrite 0x00C#12 w
  | .rdDetPatLen => encRead 0x040#12
  | .wrDetPatLen w => encWrite 0x040#12 w
  | .wrDetCommit w => encWrite 0x044#12 w
  | .rdDetStatus => encRead 0x048#12
  | .rdDetRxcount => encRead 0x04C#12
  | .rdDetPatWord k => encRead (patOffset k)
  | .wrDetPatWord k w => encWrite (patOffset k) w
  | .rdSeqCtrl => encRead 0x080#12
  | .wrSeqCtrl w => encWrite 0x080#12 w
  | .wrSeqTxf w => encWrite 0x084#12 w
  | .rdSeqStatus => encRead 0x088#12
  | .wrSeqIrqClr w => encWrite 0x08C#12 w
  | .rdSeqDelay => encRead 0x090#12
  | .rdSeqWidth => encRead 0x094#12
  | .rdSeqCount => encRead 0x098#12
  | .rdReserved off => encRead off
  | .wrReserved off w => encWrite off w
  | .busError we off size w => frame .bus size w (keyOf we off)
  | .rxByte d => frame .rx 2#2 0#32 (0#4 ++ 1#1 ++ d)
  | .edgeSample e => frame .edge 2#2 0#32 (0#12 ++ BitVec.ofBool e)
  | .rst => frame .rst 2#2 0#32 1#13

/-- The eight bytes of an instruction's frame. -/
def encodeBytes (i : Instr) : List Byte := toBytes 8 (encode i).toNat

end Sys2Proof
end

