-- ==== Sys2Proof/Machine/Fetch.lean ====
section
/-! DEFINITION. Where a cycle's inputs come from (log entry 1), which row of the table a cycle's inputs are
(log entry 2), and the cycle an instruction word stands for (log entry 4). -/

namespace Sys2Proof.Machine

/-- The inputs of the next cycle: the first of `inputs`, else the environment's free choice (R126). -/
def State.nextInput (s : State) : CycleIn :=
  match s.inputs with
  | c :: _ => c
  | [] => Config.freeInput s.cycles

/-- The row a cycle runs: reset over all (40_cycle_step.md R121, R123), else its transaction, decoded by R87,
else an offered byte, else the edge sample that every cycle takes. The other inputs of the cycle stand at
State's `port` (log entry 2). -/
def leadInstr (c : CycleIn) : Instr :=
  if c.rst then .rst
  else
    match c.bus with
    | some r => decodeRequest r
    | none => if c.rxValid then .rxByte c.rxData else .edgeSample c.edgeIn

/-- The port levels of a cycle. -/
def portOf (c : CycleIn) : Port := ⟨c.bus.isSome, c.rxValid, c.rxData, c.edgeIn⟩

/-- The state with the next cycle's inputs taken from `inputs` and standing at the ports. -/
def State.present (s : State) : State :=
  { s with inputs := s.inputs.tail, port := portOf s.nextInput }

/-- A cycle with nothing but the edge line at a level: `idle` of 30_encoding.md R98. -/
def idleInput (level : Bool) : CycleIn := ⟨false, none, false, 0#8, level⟩

/-- A cycle that carries one transaction and nothing else, the edge line at a level. -/
def busInput (level : Bool) (r : Request) : CycleIn := { idleInput level with bus := some r }

/-- A word-sized read, `R 0xOFF` (R98). -/
def readReq (off : BitVec 12) : Request := ⟨false, off, 2#2, 0#32⟩

/-- A word-sized write, `W 0xOFF v` (R98). -/
def writeReq (off : BitVec 12) (v : Word) : Request := ⟨true, off, 2#2, v⟩

/-- The request of a bus row, at the offset of R29 and R89; none for a port row. -/
def requestOf : Instr → Option Request
  | .rdQData => some (readReq 0x000#12)
  | .rdQLevel => some (readReq 0x004#12)
  | .rdQCapacity => some (readReq 0x008#12)
  | .rdQStatus => some (readReq 0x00C#12)
  | .wrQStatus w => some (writeReq 0x00C#12 w)
  | .rdDetPatLen => some (readReq 0x040#12)
  | .wrDetPatLen w => some (writeReq 0x040#12 w)
  | .wrDetCommit w => some (writeReq 0x044#12 w)
  | .rdDetStatus => some (readReq 0x048#12)
  | .rdDetRxcount => some (readReq 0x04C#12)
  | .rdDetPatWord k => some (readReq (patOffset k))
  | .wrDetPatWord k w => some (writeReq (patOffset k) w)
  | .rdSeqCtrl => some (readReq 0x080#12)
  | .wrSeqCtrl w => some (writeReq 0x080#12 w)
  | .wrSeqTxf w => some (writeReq 0x084#12 w)
  | .rdSeqStatus => some (readReq 0x088#12)
  | .wrSeqIrqClr w => some (writeReq 0x08C#12 w)
  | .rdSeqDelay => some (readReq 0x090#12)
  | .rdSeqWidth => some (readReq 0x094#12)
  | .rdSeqCount => some (readReq 0x098#12)
  | .rdReserved off => some (readReq off)
  | .wrReserved off w => some (writeReq off w)
  | .busError we off size w => some ⟨we, off, size, w⟩
  | .rxByte _ | .edgeSample _ | .rst => none

/-- The inputs of a cycle that is this instruction and nothing else, the edge line held at `level` where the
instruction does not set it. -/
def inputOf (level : Bool) : Instr → CycleIn
  | .rxByte d => { idleInput level with rxValid := true, rxData := d }
  | .edgeSample e => idleInput e
  | .rst => { idleInput level with rst := true }
  | i => { idleInput level with bus := requestOf i }

/-- The state with a cycle's inputs placed before those of the coming cycles. -/
def State.place (s : State) (c : CycleIn) : State := { s with inputs := c :: s.inputs }

end Sys2Proof.Machine
end

