-- ==== Sys2Proof/Machine/Step.lean ====
section
/-! DEFINITION. One step is one clock cycle (40_cycle_step.md R120). -/

namespace Sys2Proof.Machine

/-- One clock cycle: the next cycle's inputs are put at the ports and its row runs (R120, R121). -/
def step (s : State) : Host.Outcome State Fault Refusal :=
  exec (leadInstr s.nextInput) s.present

/-- The state with the word's instruction placed as the next cycle's only input, the edge line at its last
sampled level; the state itself where the word is no instruction. Log entry 4. -/
def State.withFetchWord (s : State) (nbits w : Nat) : State :=
  match decodeTableWord nbits w with
  | some i => s.place (inputOf s.ts.prev i)
  | none => s

end Sys2Proof.Machine
end

