-- ==== Sys2Proof/Machine/Pseudo.lean ====
section
/-! DEFINITION. The pseudo-instructions of 30_encoding.md R99 and the start-up of 70_reset_and_hazards.md R264, as
the transactions each expands to. -/

namespace Sys2Proof.Machine

/-- The request of a bus row, as a list of at most one. -/
def asRequests (i : Instr) : List Request := (requestOf i).toList

/-- `try_pop`. -/
def pseudoTryPop : List Request := asRequests .rdQData

/-- `level`. -/
def pseudoLevel : List Request := asRequests .rdQLevel

/-- `capacity`. -/
def pseudoCapacity : List Request := asRequests .rdQCapacity

/-- `is_full`: bit 1 of the answer. -/
def pseudoIsFull : List Request := asRequests .rdQStatus

/-- `clear_stall`. -/
def pseudoClearStall : List Request := asRequests (.wrQStatus 0x4#32)

/-- `drain`, for the count `n` that the first read gave. -/
def pseudoDrain (n : Nat) : List Request :=
  asRequests .rdQLevel ++ (List.replicate n (asRequests .rdQData)).flatten

/-- Pattern word `k` of a byte string. Bytes past its end "may hold anything" (R99); here they are 0 (DESIGN CHOICE,
log entry 16). -/
def patternWord (bytes : List Byte) (k : Nat) : Word :=
  bytes.getD (4 * k + 3) 0#8 ++ bytes.getD (4 * k + 2) 0#8 ++ bytes.getD (4 * k + 1) 0#8 ++
    bytes.getD (4 * k) 0#8

/-- `set_pattern p, n`, with `n` the length of `p`: the words, the length, the commit. DESIGN CHOICE, log entry 16:
for `n > 128` R99 names words `k >= 32`, which no register has; here `k` wraps to 5 bits, and the word goes to
`DET_PAT_WORD[k mod 32]`. -/
def pseudoSetPattern (bytes : List Byte) : List Request :=
  (List.range ((bytes.length + 3) / 4)).flatMap
      (fun k => asRequests (.wrDetPatWord (BitVec.ofNat 5 k) (patternWord bytes k))) ++
    asRequests (.wrDetPatLen (BitVec.ofNat 32 bytes.length)) ++ asRequests (.wrDetCommit 1#32)

/-- `status`. -/
def pseudoStatus : List Request :=
  asRequests .rdDetRxcount ++ asRequests .rdQLevel ++ asRequests .rdDetStatus

/-- `reset_and_arm`: RESET_ARM and IRQ_EN. -/
def pseudoResetAndArm : List Request := asRequests (.wrSeqCtrl 0x6#32)

/-- `load_parameters d, w`. -/
def pseudoLoadParameters (d w : Word) : List Request :=
  asRequests (.wrSeqTxf d) ++ asRequests (.wrSeqTxf w)

/-- `arm_and_wait d, w`. -/
def pseudoArmAndWait (d w : Word) : List Request := pseudoResetAndArm ++ pseudoLoadParameters d w

/-- `ack_complete`. -/
def pseudoAckComplete : List Request := asRequests (.wrSeqIrqClr 1#32)

/-- The block's part of the start-up sequence (R264 step 1): the pattern, then nothing TS needs. -/
def startUp (bytes : List Byte) : List Request := pseudoSetPattern bytes

/-- The requests issued back to back, one a cycle, the edge line at a level. -/
def backToBack (level : Bool) (rs : List Request) : List CycleIn := rs.map (busInput level)

end Sys2Proof.Machine
end

