-- ==== Sys2Proof/Safety.lean ====
section
/-! DEFINITION. The terms the statements are made in: runs, what is pushed, popped and accepted along a run, the
invariants of 10_state.md R26 to R28, and "as in a cycle without a transaction". -/

namespace Sys2Proof.Machine

/-! ## Runs -/

/-- The next state; a step that stopped would stand still (none does, 40_cycle_step.md R127). -/
def advance (s : State) : State :=
  match step s with
  | .next t => t
  | .fault _ => s
  | .refused _ => s

/-- The state `n` cycles later. -/
def after : Nat → State → State
  | 0, s => s
  | n + 1, s => advance (after n s)

/-- The cycle from this state is a reset cycle. -/
def resetCycleAt (s : State) : Bool := s.nextInput.rst

/-- The row that runs from this state. -/
def rowAt (s : State) : Instr := leadInstr s.nextInput

/-- No reset cycle among the next `n`. -/
def NoReset (n : Nat) (s : State) : Prop := ∀ k, k < n → resetCycleAt (after k s) = false

/-! ## The Relay Queue along a run -/

/-- A push happens in the cycle from this state (41_relay_queue.md R139). -/
def pushAt (s : State) : Bool := !resetCycleAt s && pushes s.params s.rq s.pd

/-- A pop happens in the cycle from this state: a `Q_DATA` read with `level_c > 0` (R141). -/
def popAt (s : State) : Bool := decide (rowAt s = .rdQData) && canPop s.params s.rq

/-- Pushes in the first `n` cycles. -/
def pushCount : Nat → State → Nat
  | 0, _ => 0
  | n + 1, s => pushCount n s + (pushAt (after n s)).toNat

/-- Pops in the first `n` cycles. -/
def popCount : Nat → State → Nat
  | 0, _ => 0
  | n + 1, s => popCount n s + (popAt (after n s)).toNat

/-- The bytes pushed in the first `n` cycles, in order. -/
def pushedBytes : Nat → State → List Byte
  | 0, _ => []
  | n + 1, s => pushedBytes n s ++ (if pushAt (after n s) then [(after n s).pd.hold] else [])

/-- What the host reads as popped in the cycle from this state: the row is a `Q_DATA` read and the answer has
`VALID` = 1 (10_state.md R30). -/
def readPopped (s : State) : List Byte :=
  match rowAt s, (advance s).out.reply with
  | .rdQData, some r => if r.rdata.getLsbD 8 then [r.rdata.extractLsb' 0 8] else []
  | _, _ => []

/-- The bytes the host popped in the first `n` cycles, in order. -/
def poppedBytes : Nat → State → List Byte
  | 0, _ => []
  | n + 1, s => poppedBytes n s ++ readPopped (after n s)

/-- RQ holds its reset values, whatever the storage holds (10_state.md R23). -/
def QueueFresh (s : State) : Prop := s.rq = RelayQueue.reset s.params s.rq.qmem

/-- The invariant of R26, with the counts of pushes `W` and pops `R`, and the older counts `ws`, `rs` that the
synchronizer stages carry, as witnesses: the pointers, the gray copies and every stage are those counts, and
`Rs ≤ R ≤ Ws ≤ W ≤ Rs + Q`. -/
structure QueueCounts (p : Params) (q : RelayQueue) (W R : Nat) (ws rs : List Nat) : Prop where
  wptr : q.wptr = W % ptrModulus p
  wgray : q.wgray = gray q.wptr
  rptr : q.rptr = R % ptrModulus p
  rgray : q.rgray = gray q.rptr
  wsync : q.wsync = ws.map (fun n => gray (n % ptrModulus p))
  rsync : q.rsync = rs.map (fun n => gray (n % ptrModulus p))
  wlen : ws.length = p.syncStages
  rlen : rs.length = p.syncStages
  wfall : List.Pairwise (· ≥ ·) (W :: ws)
  rfall : List.Pairwise (· ≥ ·) (R :: rs)
  behind : ∀ n ∈ ws, R ≤ n
  room : ∀ n ∈ rs, W ≤ n + queueSize p

/-- R26 as a property of one state. -/
def QueueInv (p : Params) (q : RelayQueue) : Prop :=
  ∃ (W R : Nat) (ws rs : List Nat), QueueCounts p q W R ws rs

/-! ## The Pattern Detector along a run -/

/-- The byte accepted in the cycle from this state (42_pattern_detector.md R166). -/
def acceptedAt (s : State) : Option Byte :=
  if !resetCycleAt s && s.pd.dstate == .idle && s.nextInput.rxValid then some s.nextInput.rxData
  else none

/-- The bytes accepted in the first `n` cycles, in order. -/
def acceptedBytes : Nat → State → List Byte
  | 0, _ => []
  | n + 1, s => acceptedBytes n s ++ (acceptedAt (after n s)).toList

/-- The row commits the shadow pattern (R165). -/
def isCommit : Instr → Bool
  | .wrDetCommit w => w.getLsbD 0
  | _ => false

/-- Neither a commit nor a reset cycle among the next `n`. -/
def PatternStays (n : Nat) (s : State) : Prop :=
  ∀ k, k < n → resetCycleAt (after k s) = false ∧ isCommit (rowAt (after k s)) = false

/-- The active pattern as a byte string (R160). -/
def activePattern (pd : Detector) : List Byte := (List.range pd.lenA.toNat).map pd.patA.read

/-- The cursor recurrence of R178: `c_i` from `c_{i-1}` and `b_i`. -/
def cursorNext (rescan : Bool) (pat : List Byte) (c : Nat) (b : Byte) : Nat :=
  if 0 < pat.length ∧ pat[c]? = some b ∧ c < pat.length - 1 then c + 1
  else if rescan = true ∧ 0 < pat.length ∧ pat[c]? ≠ some b ∧ pat[0]? = some b then 1
  else 0

/-- R178: a full match fires at the byte. -/
def matchFires (pat : List Byte) (c : Nat) (b : Byte) : Prop :=
  0 < pat.length ∧ pat[c]? = some b ∧ c = pat.length - 1

/-- R27. -/
structure DetectorInv (pd : Detector) : Prop where
  lenS : pd.lenS.toNat ≤ 128
  lenA : pd.lenA.toNat ≤ 128
  cursorZero : pd.lenA.toNat = 0 → pd.curPos.toNat = 0
  cursorBelow : 0 < pd.lenA.toNat → pd.curPos.toNat < pd.lenA.toNat
  trig : pd.trig = true ↔ pd.dstate = .pulse
  pcnt : pd.dstate = .pulse → 1 ≤ pd.pcnt.toNat

/-! ## The Timing Sequencer along a run -/

/-- The row is RESET_ARM (43_timing_sequencer.md R194). -/
def isResetArm : Instr → Bool
  | .wrSeqCtrl w => w.getLsbD 2
  | _ => false

/-- The row sets `en` to 0 (R193). -/
def isDisable : Instr → Bool
  | .wrSeqCtrl w => !w.getLsbD 2 && !w.getLsbD 0
  | _ => false

/-- The row sets `en` to 1 without RESET_ARM (R193). -/
def isEnable : Instr → Bool
  | .wrSeqCtrl w => !w.getLsbD 2 && w.getLsbD 0
  | _ => false

/-- The row clears the completion interrupt (R205). -/
def isIrqClear : Instr → Bool
  | .wrSeqIrqClr w => w.getLsbD 0
  | _ => false

/-- R210's premise: "no RESET_ARM, disable or reset" among the next `n` cycles. -/
def Undisturbed (n : Nat) (s : State) : Prop :=
  ∀ k, k < n → resetCycleAt (after k s) = false ∧ isResetArm (rowAt (after k s)) = false ∧
    isDisable (rowAt (after k s)) = false

/-- Nothing that ends a freeze among the next `n` cycles: no reset cycle, no RESET_ARM, no enable. -/
def LeftDisabled (n : Nat) (s : State) : Prop :=
  ∀ k, k < n → resetCycleAt (after k s) = false ∧ isResetArm (rowAt (after k s)) = false ∧
    isEnable (rowAt (after k s)) = false

/-- The edge is detected in the cycle from this state (R199). -/
def edgeAt (s : State) : Bool := edgeSeen s.params s.ts s.nextInput.edgeIn

/-- The completion interrupt is raised in the cycle from this state (R202, R203). -/
def completesAt (s : State) : Bool := !s.ts.irqPend && (advance s).ts.irqPend

/-- TS takes the delay `d` in the cycle from this state (R197). -/
def TakesDelay (s : State) (d : Word) : Prop :=
  s.ts.sstate = .idle ∧ (advance s).ts.sstate = .loadWidth ∧ (advance s).ts.dly = d

/-- TS takes the width `w` in the cycle from this state (R198). -/
def TakesWidth (s : State) (w : Word) : Prop :=
  s.ts.sstate = .loadWidth ∧ (advance s).ts.sstate = .waitEdge ∧ (advance s).ts.wid = w

/-- The edge counts in the cycle from this state: detected in `WAIT_EDGE` with `en` = 1 (R200, R213). -/
def edgeCountsAt (s : State) : Bool := s.ts.en && decide (s.ts.sstate = .waitEdge) && edgeAt s

/-- An arm cycle that begins in cycle `first` or later and is over in cycle `last`: TS takes the delay `d` in `a`,
the width `w` in `b`, the edge in `c`, and `last` comes at least `d + w` cycles after `c`, with no RESET_ARM and
no reset cycle from `a` to `last` (R190, R211). -/
def ArmCycleWithin (s : State) (first last : Nat) : Prop :=
  ∃ (a b c : Nat) (d w : Word), first ≤ a ∧ a < b ∧ b < c ∧ c + d.toNat + w.toNat ≤ last ∧
    TakesDelay (after a s) d ∧ TakesWidth (after b s) w ∧ edgeCountsAt (after c s) = true ∧
    ∀ k, a ≤ k → k ≤ last →
      resetCycleAt (after k s) = false ∧ isResetArm (rowAt (after k s)) = false

/-- R28. -/
structure SequencerInv (p : Params) (ts : Sequencer) : Prop where
  irqPend : ts.irqPend = true ↔ ts.sstate = .fired
  out : ts.out = true ↔ ts.sstate = .pulse
  cnt : ts.sstate = .delay ∨ ts.sstate = .pulse → 1 ≤ ts.cnt.toNat
  txf : ts.txf.length ≤ p.txfDepth

/-! ## The whole machine -/

/-- The stores keep their canonical form and their size (20_memory.md R60). -/
structure StoresInv (p : Params) (q : RelayQueue) (pd : Detector) : Prop where
  qmem : q.qmem.wf = true
  qmemSize : q.qmem.below (queueSize p) = true
  patS : pd.patS.wf = true
  patSSize : pd.patS.below patternMax = true
  patA : pd.patA.wf = true
  patASize : pd.patA.below patternMax = true

/-- Every invariant together, for legal parameters. -/
structure BlockInv (s : State) : Prop where
  legal : s.params.wf
  queue : QueueInv s.params s.rq
  detector : DetectorInv s.pd
  sequencer : SequencerInv s.params s.ts
  stores : StoresInv s.params s.rq s.pd

/-- The cycle with the same inputs but no transaction. -/
def withoutTransaction (s : State) : State := portCycle s.port s

/-- "No state changes" of a transaction: RQ, PD, TS and the parameters are what the cycle makes of them
without the transaction (40_cycle_step.md R121). -/
def NoBusEffect (s t : State) : Prop :=
  t.rq = (withoutTransaction s).rq ∧ t.pd = (withoutTransaction s).pd ∧
    t.ts = (withoutTransaction s).ts ∧ t.params = s.params

/-- The transaction was answered OKAY with this data. -/
def AnswersOkay (t : State) (rdata : Word) : Prop := t.out.reply = some ⟨.okay, rdata⟩

/-- Two states alike but for the contents of `QMem`. -/
def SameButQMem (s t : State) : Prop :=
  { s with rq := { s.rq with qmem := [] } } = { t with rq := { t.rq with qmem := [] } }

end Sys2Proof.Machine
end

