-- ==== Sys2Proof/Certificates/Slice0/Obligations.lean ====
section
/-! DEFINITION. The statements about the machine, for the provers. Each docstring names the rule of spec/ it
formalises; a clause that is the model's choice names its log entry. -/

open Sys2Proof Sys2Proof.Machine

/-! ## Decoding and encoding -/

/-- Words written out from the encodings of 30_encoding.md R89, R94, R95, R97 decode to their rows. The frame
around the key (`wdata` from bit 16, the port tags from bit 48) is the model's choice, log entry 3. -/
def Obligations.SpecWordsDecodeToTheirRows : Prop :=
  decodeTableWord 16 0x0000 = some .rdQData ∧
  decodeTableWord 16 0x000C = some .rdQStatus ∧
  decodeTableWord 48 0x00000004100C = some (.wrQStatus 0x4#32) ∧
  decodeTableWord 16 0x017C = some (.rdDetPatWord 31#5) ∧
  decodeTableWord 48 0x747365741100 = some (.wrDetPatWord 0#5 0x74736574#32) ∧
  decodeTableWord 48 0x000000061080 = some (.wrSeqCtrl 0x6#32) ∧
  decodeTableWord 48 0x00000064_1084 = some (.wrSeqTxf 0x64#32) ∧
  decodeTableWord 16 0x0180 = some (.rdReserved 0x180#12) ∧
  decodeTableWord 16 0x1FFC = some (.wrReserved 0xFFC#12 0#32) ∧
  decodeTableWord 16 0x0002 = some (.busError false 0x002#12 2#2 0#32) ∧
  decodeTableWord 64 0x0001000000000174 = some (.rxByte 0x74#8) ∧
  decodeTableWord 64 0x0002000000000001 = some (.edgeSample true) ∧
  decodeTableWord 64 0x0003000000000001 = some .rst

/-- 30_encoding.md R87, whole: an access with `size != 2` or `off[1:0] != 0` is BUS_ERROR; no key matches two
non-default rows; the one that matches gives the instruction; otherwise the default row for `we` does. -/
def Obligations.DecodingFollowsTheTable : Prop :=
  ∀ r : Request,
    (r.size ≠ 2#2 ∨ r.off.extractLsb' 0 2 ≠ 0#2 →
      decodeRequest r = .busError r.we r.off r.size r.wdata) ∧
    (rows.filter (fun row => (r.key &&& row.mask) == row.mtch)).length ≤ 1 ∧
    (r.size = 2#2 → r.off.extractLsb' 0 2 = 0#2 →
      (∀ row ∈ rows, r.key &&& row.mask = row.mtch →
        decodeRequest r = row.build (r.off.extractLsb' 2 5) r.wdata) ∧
      ((∀ row ∈ rows, r.key &&& row.mask ≠ row.mtch) →
        decodeRequest r = if r.we then .wrReserved r.off r.wdata else .rdReserved r.off))

/-- Decode of encode is the instruction, for every well-formed instruction and whatever bytes follow
(R85 to R89, R94, R95, R97; the frame is the model's choice, log entry 3). -/
def Obligations.DecodeOfEncodeIsTheInstruction : Prop :=
  ∀ (i : Instr) (rest : List Byte), i.wf = true → decode (encodeBytes i ++ rest) = .ok (i, rest)

/-- Every transaction is one row of the table, and the row's request is that transaction, up to the write data
of a read, which R85 ignores. -/
def Obligations.EveryTransactionIsOneRow : Prop :=
  ∀ r : Request,
    (decodeRequest r).wf = true ∧
    ∃ r', requestOf (decodeRequest r) = some r' ∧ decodeRequest r' = decodeRequest r ∧
      r'.we = r.we ∧ r'.off = r.off ∧ r'.size = r.size ∧ (r.we = true → r'.wdata = r.wdata)

/-! ## The step -/

/-- A step runs the row of its cycle: RST in a reset cycle, else the decoded transaction, else the offered
byte, else the edge sample; the cycle's other inputs stand at the ports and the rest of `inputs` waits
(40_cycle_step.md R120 to R123; which row leads is the model's choice, log entry 2). Where no inputs are placed
the cycle's are the free ones, whatever they are (R126; log entry 1). -/
def Obligations.StepRunsTheDecodedInstruction : Prop :=
  (∀ s : State, s.inputs = [] → step s = step { s with inputs := [Config.freeInput s.cycles] }) ∧
  ∀ (s : State) (c : CycleIn) (cs : List CycleIn), s.inputs = c :: cs →
    let u : State := { s with inputs := cs, port := ⟨c.bus.isSome, c.rxValid, c.rxData, c.edgeIn⟩ }
    (c.rst = true → step s = exec .rst u) ∧
    (∀ r, c.rst = false → c.bus = some r → step s = exec (decodeRequest r) u) ∧
    (c.rst = false → c.bus = none → c.rxValid = true → step s = exec (.rxByte c.rxData) u) ∧
    (c.rst = false → c.bus = none → c.rxValid = false → step s = exec (.edgeSample c.edgeIn) u)

/-- The step after `withFetchWord` is `exec` of the decoded word, with nothing else at the ports and the edge
line at its last sample (the model's way to load a program, log entry 4). -/
def Obligations.FetchedWordRuns : Prop :=
  ∀ (s : State) (nbits w : Nat) (i : Instr), decodeTableWord nbits w = some i →
    step (s.withFetchWord nbits w) = exec i { s with port := portOf (inputOf s.ts.prev i) }

/-- No run stops: `n` cycles from any state answer a next state (40_cycle_step.md R120, R127). -/
def Obligations.RunsNeverStop : Prop :=
  ∀ (n : Nat) (s : State), Host.Core.run core n s = .next (after n s)

/-- 40_cycle_step.md R125 and 70_reset_and_hazards.md R261: the output ports are functions of the state at the
cycle's start, and all 0 in a reset cycle, where a transaction gets OKAY and 0. -/
def Obligations.OutputsAreFunctionsOfTheState : Prop :=
  ∀ (i : Instr) (s : State), ∃ t, exec i s = .next t ∧
    (i ≠ .rst → t.out.rxReady = decide (s.pd.dstate = .idle) ∧ t.out.trigOut = s.pd.trig ∧
      t.out.seqOut = s.ts.out ∧ t.out.irq = (s.ts.irqPend && s.ts.irqEn)) ∧
    (i = .rst → t.out.rxReady = false ∧ t.out.trigOut = false ∧ t.out.seqOut = false ∧
      t.out.irq = false ∧
      t.out.reply = if s.port.busValid then some ⟨.okay, 0#32⟩ else none)

/-- What no instruction changes: the parameters and the inputs still to come; each takes one cycle
(10_state.md R22; `inputs` and `cycles` are the model's own fields, log entry 1). -/
def Obligations.ParametersAndInputsAreKept : Prop :=
  ∀ (i : Instr) (s t : State), exec i s = .next t →
    t.params = s.params ∧ t.inputs = s.inputs ∧ t.cycles = s.cycles + 1

/-! ## Relay Queue transactions -/

/-- RD_Q_DATA (41_relay_queue.md R141): with `level_c > 0` the answer is the head byte with `VALID`, `rptr`
and `rgray` step; with `level_c = 0` the answer is 0 and nothing is popped. Everything else is as in the cycle
without the transaction. -/
def Obligations.ReadQDataPops : Prop :=
  ∀ s : State, ∃ t, exec .rdQData s = .next t ∧
    (0 < levelC s.params s.rq →
      AnswersOkay t (0x100#32 ||| (s.rq.qmem.read (s.rq.rptr % 2 ^ s.params.a)).setWidth 32) ∧
      t.rq = { (withoutTransaction s).rq with
        rptr := (s.rq.rptr + 1) % 2 ^ (s.params.a + 1)
        rgray := gray ((s.rq.rptr + 1) % 2 ^ (s.params.a + 1)) } ∧
      t.pd = (withoutTransaction s).pd ∧ t.ts = (withoutTransaction s).ts) ∧
    (levelC s.params s.rq = 0 → AnswersOkay t 0x00000000#32 ∧ NoBusEffect s t)

/-- RD_Q_LEVEL, RD_Q_CAPACITY, RD_Q_STATUS (R142, R143, R144): the answers, bit by bit; no state changes. -/
def Obligations.QueueReadsAnswer : Prop :=
  ∀ s : State,
    (∃ t, exec .rdQLevel s = .next t ∧ NoBusEffect s t ∧
      AnswersOkay t (BitVec.ofNat 32 (levelC s.params s.rq))) ∧
    (∃ t, exec .rdQCapacity s = .next t ∧ NoBusEffect s t ∧
      AnswersOkay t (BitVec.ofNat 32 (2 ^ s.params.a))) ∧
    (∃ t v, exec .rdQStatus s = .next t ∧ NoBusEffect s t ∧ AnswersOkay t v ∧
      v.getLsbD 0 = decide (levelC s.params s.rq = 0) ∧
      v.getLsbD 1 = decide (levelC s.params s.rq = 2 ^ s.params.a) ∧
      v.getLsbD 2 = s.rq.stallSeen ∧ v.extractLsb' 3 29 = 0#29)

/-- WR_Q_STATUS with the set of R146 and their conflict (R145, R146, 40_cycle_step.md R124): `wdata[2] = 1`
clears `stall_seen` unless the producer is blocked in this cycle; without it only R146 acts; nothing else
differs from the cycle without the transaction. -/
def Obligations.StallFlagSetsOverClear : Prop :=
  ∀ (w : Word) (s : State), ∃ t, exec (.wrQStatus w) s = .next t ∧ AnswersOkay t 0#32 ∧
    t.rq = { (withoutTransaction s).rq with
      stallSeen := decide (s.pd.dstate = .push ∧ fullP s.params s.rq = true) ||
        (s.rq.stallSeen && !w.getLsbD 2) } ∧
    t.pd = (withoutTransaction s).pd ∧ t.ts = (withoutTransaction s).ts

/-! ## Relay Queue in every cycle -/

/-- The push, the pop and the stall flag over all instructions: in a cycle that is no reset cycle the push
happens exactly when PD is in `D_PUSH` and the producer view is not full (R139, R140), only RD_Q_DATA moves
`rptr`, only the producer moves `wptr` (20_memory.md R72), and `stall_seen` falls only by WR_Q_STATUS. -/
def Obligations.QueuePointersHaveOneWriterEach : Prop :=
  ∀ (i : Instr) (s t : State), exec i s = .next t → i ≠ .rst →
    (s.pd.dstate = .push ∧ fullP s.params s.rq = false →
      t.rq.wptr = (s.rq.wptr + 1) % 2 ^ (s.params.a + 1) ∧ t.rq.wgray = gray t.rq.wptr ∧
      t.rq.qmem = s.rq.qmem.write (s.rq.wptr % 2 ^ s.params.a) s.pd.hold) ∧
    (¬ (s.pd.dstate = .push ∧ fullP s.params s.rq = false) →
      t.rq.wptr = s.rq.wptr ∧ t.rq.wgray = s.rq.wgray ∧ t.rq.qmem = s.rq.qmem) ∧
    (i = .rdQData ∧ 0 < levelC s.params s.rq →
      t.rq.rptr = (s.rq.rptr + 1) % 2 ^ (s.params.a + 1) ∧ t.rq.rgray = gray t.rq.rptr) ∧
    (¬ (i = .rdQData ∧ 0 < levelC s.params s.rq) →
      t.rq.rptr = s.rq.rptr ∧ t.rq.rgray = s.rq.rgray) ∧
    (s.pd.dstate = .push → fullP s.params s.rq = true → t.rq.stallSeen = true) ∧
    (s.rq.stallSeen = true → t.rq.stallSeen = false →
      ∃ w, i = .wrQStatus w ∧ w.getLsbD 2 = true)

/-- 41_relay_queue.md R137: the copy at stage `j` is the gray pointer as it was `j` cycles earlier. -/
def Obligations.SynchronizerStagesLag : Prop :=
  ∀ (s : State) (j : Nat), j < s.params.syncStages → NoReset (j + 1) s →
    (after (j + 1) s).rq.wsync.getD j 0 = s.rq.wgray ∧
    (after (j + 1) s).rq.rsync.getD j 0 = s.rq.rgray

/-- 10_state.md R26, whole: along every run from reset, with `W` and `R` the numbers of pushes and pops. -/
def Obligations.QueuePointersCountPushesAndPops : Prop :=
  ∀ (s : State) (n : Nat), s.params.wf → QueueFresh s → NoReset n s →
    let M := 2 ^ (s.params.a + 1)
    let S := s.params.syncStages
    let q := (after n s).rq
    q.wptr = pushCount n s % M ∧ q.rptr = popCount n s % M ∧
    viewW s.params q = pushCount (n - S) s % M ∧ viewR s.params q = popCount (n - S) s % M ∧
    popCount (n - S) s ≤ popCount n s ∧ popCount n s ≤ pushCount (n - S) s ∧
    pushCount (n - S) s ≤ pushCount n s ∧
    pushCount n s ≤ popCount (n - S) s + 2 ^ s.params.a

/-- R26 as an invariant of the step: from every state that has it, reset cycles and all. -/
def Obligations.StepKeepsQueueInvariant : Prop :=
  ∀ s t : State, s.params.wf → QueueInv s.params s.rq → step s = .next t → QueueInv t.params t.rq

/-- 41_relay_queue.md R147: under R26 the modular views are the exact differences, in range, and a full
consumer view implies a full producer view. -/
def Obligations.QueueViewsAreExact : Prop :=
  ∀ (p : Params) (q : RelayQueue) (W R : Nat) (ws rs : List Nat),
    p.wf → QueueCounts p q W R ws rs →
    let Ws := ws.getD (p.syncStages - 1) 0
    let Rs := rs.getD (p.syncStages - 1) 0
    levelC p q + R = Ws ∧ levelP p q + Rs = W ∧
    levelC p q ≤ 2 ^ p.a ∧ levelP p q ≤ 2 ^ p.a ∧
    (fullC p q = true → fullP p q = true) ∧ ¬ (emptyC p q = true ∧ fullC p q = true)

/-- R147's converse: with `full_p` in this cycle and in the `S` before it, and no pop in those, the consumer view
is full too. R147 speaks of the last `S` cycles alone; in a cycle where `full_p` has just fallen the view it
compares has moved, so the premise here takes the current cycle in as well. -/
def Obligations.BlockedProducerIsSeenFull : Prop :=
  ∀ s : State, s.params.wf → QueueInv s.params s.rq → NoReset s.params.syncStages s →
    (∀ k, k < s.params.syncStages →
      fullP s.params (after k s).rq = true ∧ popAt (after k s) = false) →
    fullP s.params (after s.params.syncStages s).rq = true →
    fullC s.params (after s.params.syncStages s).rq = true

/-- 41_relay_queue.md R148 and 20_memory.md R69: along every run from reset the bytes popped are the first
bytes pushed, in order, and a byte pushed in cycle `c` is not popped before cycle `c + 1 + SYNC_STAGES`. -/
def Obligations.QueueIsFirstInFirstOut : Prop :=
  ∀ (s : State) (n : Nat), s.params.wf → QueueFresh s → s.rq.qmem.wf = true → NoReset n s →
    poppedBytes n s = (pushedBytes n s).take (popCount n s) ∧
    (pushedBytes n s).length = pushCount n s ∧
    (popAt (after n s) = true → popCount n s < pushCount (n - s.params.syncStages) s)

/-- 41_relay_queue.md R149: after a read of `Q_LEVEL = L`, as long as fewer than `L` bytes were popped since, a
`Q_DATA` read pops; it answers `VALID` = 1. -/
def Obligations.DrainAlwaysFindsBytes : Prop :=
  ∀ (s : State) (n : Nat), s.params.wf → QueueInv s.params s.rq → NoReset (n + 1) s →
    popCount n s < levelC s.params s.rq → rowAt (after n s) = .rdQData →
    popAt (after n s) = true ∧
    ∃ r, (after (n + 1) s).out.reply = some r ∧ r.resp = .okay ∧ r.rdata.getLsbD 8 = true

/-- 41_relay_queue.md R150: the gray-domain tests for empty and full, under R26. -/
def Obligations.GrayTestsAgree : Prop :=
  ∀ (p : Params) (q : RelayQueue), p.wf → QueueInv p q →
    (emptyC p q = true ↔ q.rgray = q.wsync.getD (p.syncStages - 1) 0) ∧
    (fullP p q = true ↔ q.wgray = q.rsync.getD (p.syncStages - 1) 0 ^^^ (3 <<< (p.a - 1)))

/-- 41_relay_queue.md R153: a push and a pop in one cycle touch different slots, under R26. -/
def Obligations.PushAndPopTouchDifferentSlots : Prop :=
  ∀ s : State, s.params.wf → QueueInv s.params s.rq → pushAt s = true → popAt s = true →
    s.rq.wptr % 2 ^ s.params.a ≠ s.rq.rptr % 2 ^ s.params.a

/-- 10_state.md R48 and 40_cycle_step.md R128: two machines alike but for what `QMem` holds after reset stay
alike but for `QMem`, outputs and answers included, for ever. -/
def Obligations.QueueStorageAtResetIsUnobservable : Prop :=
  ∀ (s : State) (m : Memory) (n : Nat), s.params.wf → QueueFresh s → s.rq.qmem.wf = true →
    m.wf = true →
    SameButQMem (after n s) (after n { s with rq := { s.rq with qmem := m } })

/-! ## Pattern Detector transactions -/

/-- WR_DET_PAT_WORD and RD_DET_PAT_WORD (42_pattern_detector.md R161, R162): the write puts `wdata[8j+7:8j]`
at `PatS[4k+j]` and leaves every other byte alone; the read answers those four bytes. Nothing else differs
from the cycle without the transaction. -/
def Obligations.PatternWordsAreLittleEndian : Prop :=
  ∀ (k : BitVec 5) (w : Word) (s : State), s.pd.patS.wf = true →
    (∃ t, exec (.wrDetPatWord k w) s = .next t ∧ AnswersOkay t 0#32 ∧
      (∀ j, j < 4 → t.pd.patS.read (4 * k.toNat + j) = w.extractLsb' (8 * j) 8) ∧
      (∀ a, a / 4 ≠ k.toNat → t.pd.patS.read a = s.pd.patS.read a) ∧
      t.pd = { (withoutTransaction s).pd with patS := t.pd.patS } ∧
      t.rq = (withoutTransaction s).rq ∧ t.ts = (withoutTransaction s).ts) ∧
    (∃ t v, exec (.rdDetPatWord k) s = .next t ∧ AnswersOkay t v ∧ NoBusEffect s t ∧
      ∀ j, j < 4 → v.extractLsb' (8 * j) 8 = s.pd.patS.read (4 * k.toNat + j))

/-- WR_DET_PAT_LEN and RD_DET_PAT_LEN (R163, R164): all 32 bits are compared with 128; above it the write is
ignored whole. -/
def Obligations.PatternLengthAboveMaxIsIgnored : Prop :=
  ∀ (w : Word) (s : State),
    (∃ t, exec (.wrDetPatLen w) s = .next t ∧ AnswersOkay t 0#32 ∧
      (w.toNat ≤ 128 → t.pd.lenS.toNat = w.toNat ∧
        t.pd = { (withoutTransaction s).pd with lenS := t.pd.lenS } ∧
        t.rq = (withoutTransaction s).rq ∧ t.ts = (withoutTransaction s).ts) ∧
      (128 < w.toNat → t.pd.lenS = s.pd.lenS ∧ NoBusEffect s t)) ∧
    (∃ t v, exec .rdDetPatLen s = .next t ∧ AnswersOkay t v ∧ v.toNat = s.pd.lenS.toNat ∧
      NoBusEffect s t)

/-- WR_DET_COMMIT (R165, R172): bit 0 copies shadow to active and clears the cursor, over the byte's own cursor
update; `dstate`, `hold`, `pcnt`, `trig`, `rx_count` are as without it. Without bit 0 nothing happens. -/
def Obligations.CommitSwapsPatternAndClearsCursor : Prop :=
  ∀ (w : Word) (s : State), ∃ t, exec (.wrDetCommit w) s = .next t ∧ AnswersOkay t 0#32 ∧
    (w.getLsbD 0 = true →
      t.pd = { (withoutTransaction s).pd with
        patA := s.pd.patS, lenA := s.pd.lenS, curPos := 0#8 } ∧
      t.pd.patS = s.pd.patS ∧ t.pd.lenS = s.pd.lenS ∧
      t.rq = (withoutTransaction s).rq ∧ t.ts = (withoutTransaction s).ts) ∧
    (w.getLsbD 0 = false → NoBusEffect s t)

/-- RD_DET_STATUS and RD_DET_RXCOUNT (R173, R174), bit by bit. -/
def Obligations.DetectorReadsAnswer : Prop :=
  ∀ s : State,
    (∃ t v, exec .rdDetStatus s = .next t ∧ NoBusEffect s t ∧ AnswersOkay t v ∧
      v.extractLsb' 0 8 = s.pd.curPos ∧ v.extractLsb' 8 8 = s.pd.lenA ∧
      v.extractLsb' 16 2 = (match s.pd.dstate with | .idle => 0#2 | .pulse => 1#2 | .push => 2#2) ∧
      v.getLsbD 18 = s.pd.trig ∧ v.extractLsb' 19 13 = 0#13) ∧
    (∃ t, exec .rdDetRxcount s = .next t ∧ NoBusEffect s t ∧ AnswersOkay t s.pd.rxCount)

/-! ## Pattern Detector in every cycle -/

/-- RX_BYTE in `D_IDLE` (R166, R168): the three branches and the rescan, in the conditions of the rule, and
the frame of the cycle; in the other states the byte is not accepted (30_encoding.md R94). -/
def Obligations.ByteIsMatchedAgainstTheCursor : Prop :=
  ∀ (ch : Byte) (s : State), ∃ t, exec (.rxByte ch) s = .next t ∧ t.out.reply = none ∧
    (s.pd.dstate = .idle →
      let hit : Prop := 0 < s.pd.lenA.toNat ∧ ch = s.pd.patA.read s.pd.curPos.toNat
      let again : Prop := s.params.matchRescan = true ∧ 0 < s.pd.lenA.toNat ∧
        ch = s.pd.patA.read 0
      (hit ∧ s.pd.curPos = s.pd.lenA - 1#8 →
        t.pd = { s.pd with hold := ch, curPos := 0#8, trig := true, pcnt := s.params.directPulse,
                           dstate := .pulse }) ∧
      (hit ∧ s.pd.curPos ≠ s.pd.lenA - 1#8 →
        t.pd = { s.pd with hold := ch, curPos := s.pd.curPos + 1#8, dstate := .push }) ∧
      (¬ hit ∧ again → t.pd = { s.pd with hold := ch, curPos := 1#8, dstate := .push }) ∧
      (¬ hit ∧ ¬ again → t.pd = { s.pd with hold := ch, curPos := 0#8, dstate := .push })) ∧
    (s.pd.dstate ≠ .idle →
      t.pd.hold = s.pd.hold ∧ t.pd.curPos = s.pd.curPos ∧
      t.pd = (withoutTransaction { s with port := { s.port with rxValid := false } }).pd) ∧
    t.pd.patS = s.pd.patS ∧ t.pd.lenS = s.pd.lenS ∧ t.pd.patA = s.pd.patA ∧ t.pd.lenA = s.pd.lenA ∧
    t.rq = (withoutTransaction s).rq ∧ t.ts = (withoutTransaction s).ts

/-- R178, whole, with R166 to R168: a commit and a reset put the cursor at 0; between commits the cursor after
every accepted byte is the recurrence's, and a full match fires exactly when it says so. For both values of
MATCH_RESCAN. -/
def Obligations.CursorFollowsTheRecurrence : Prop :=
  (∀ s : State, resetCycleAt s = true ∨ isCommit (rowAt s) = true → (after 1 s).pd.curPos = 0#8) ∧
  ∀ (s : State) (n : Nat), s.params.wf → DetectorInv s.pd → PatternStays n s →
    let pat := activePattern s.pd
    (after n s).pd.curPos.toNat =
      (acceptedBytes n s).foldl (cursorNext s.params.matchRescan pat) s.pd.curPos.toNat ∧
    ∀ k, k < n → ∀ b, acceptedAt (after k s) = some b →
      ((after (k + 1) s).pd.dstate = .pulse ↔ matchFires pat (after k s).pd.curPos.toNat b)

/-- R167: with an empty active pattern and no commit, no byte ever matches, the cursor stays 0, and every
accepted byte goes to `D_PUSH`. -/
def Obligations.EmptyPatternNeverMatches : Prop :=
  ∀ (s : State) (n : Nat), s.params.wf → DetectorInv s.pd → s.pd.lenA = 0#8 → s.pd.trig = false →
    PatternStays n s →
    (after n s).pd.trig = false ∧ (after n s).pd.curPos = 0#8 ∧
    ∀ k, k < n → ∀ b, acceptedAt (after k s) = some b →
      (after (k + 1) s).pd.dstate = .push ∧ (after (k + 1) s).pd.hold = b

/-- R169 and R175: a full match accepted in a cycle holds `trig_out` high in exactly the next
`DIRECT_PULSE_CYCLES` cycles, whatever RQ, TS and the transactions do; then PD pushes. -/
def Obligations.DirectPulseLastsItsCycles : Prop :=
  ∀ (s : State) (b : Byte), s.params.wf → s.pd.trig = false → acceptedAt s = some b →
    (after 1 s).pd.dstate = .pulse → NoReset (s.params.directPulse.toNat + 1) s →
    (after 1 s).out.trigOut = false ∧
    (∀ j, 1 ≤ j → j ≤ s.params.directPulse.toNat →
      (after j s).pd.trig = true ∧ (after j s).pd.hold = b ∧ (after (j + 1) s).out.trigOut = true) ∧
    (after (s.params.directPulse.toNat + 1) s).pd.trig = false ∧
    (after (s.params.directPulse.toNat + 1) s).pd.dstate = .push

/-- 42_pattern_detector.md R171: `rx_count` goes up by 1, modulo `2^32`, exactly in a cycle with a push; only
a reset cycle clears it (70_reset_and_hazards.md R263). -/
def Obligations.ReceivedBytesAreCountedAtThePush : Prop :=
  ∀ (i : Instr) (s t : State), exec i s = .next t →
    (i ≠ .rst → t.pd.rxCount.toNat =
      (s.pd.rxCount.toNat +
        if s.pd.dstate = .push ∧ fullP s.params s.rq = false then 1 else 0) % 2 ^ 32) ∧
    (i = .rst → t.pd.rxCount = 0#32)

/-- 41_relay_queue.md R140 and R170: a blocked push keeps the byte and stays in `D_PUSH`; a push that happens
returns PD to `D_IDLE`; in both no byte is accepted. -/
def Obligations.BlockedPushKeepsTheByte : Prop :=
  ∀ (i : Instr) (s t : State), exec i s = .next t → i ≠ .rst → s.pd.dstate = .push →
    t.pd.hold = s.pd.hold ∧ t.pd.trig = s.pd.trig ∧ t.out.rxReady = false ∧
    (fullP s.params s.rq = true → t.pd.dstate = .push ∧ t.pd.rxCount = s.pd.rxCount) ∧
    (fullP s.params s.rq = false → t.pd.dstate = .idle)

/-- 42_pattern_detector.md R160: nothing but a commit and reset writes the active copy, and nothing but its own
writes and reset the shadow copy. -/
def Obligations.PatternStoresHaveTheirOwnWriters : Prop :=
  ∀ (i : Instr) (s t : State), exec i s = .next t → i ≠ .rst →
    (isCommit i = false → t.pd.patA = s.pd.patA ∧ t.pd.lenA = s.pd.lenA) ∧
    ((∀ k w, i ≠ .wrDetPatWord k w) → t.pd.patS = s.pd.patS) ∧
    ((∀ w, i ≠ .wrDetPatLen w) → t.pd.lenS = s.pd.lenS)

/-- 10_state.md R27, whole: every step keeps the PD invariants, from whatever state has them, and they hold in
every cycle after a reset cycle. -/
def Obligations.StepKeepsDetectorInvariant : Prop :=
  (∀ s t : State, s.params.wf → DetectorInv s.pd → step s = .next t → DetectorInv t.pd) ∧
  ∀ (s : State) (n : Nat), s.params.wf → resetCycleAt s = true → DetectorInv (after (n + 1) s).pd

/-! ## Timing Sequencer transactions -/

/-- WR_SEQ_CTRL (43_timing_sequencer.md R193, R194, R124): the enables, or RESET_ARM over every TS field but the
edge sampler, from any state. -/
def Obligations.ControlWriteSetsOrRearms : Prop :=
  ∀ (w : Word) (s : State), ∃ t, exec (.wrSeqCtrl w) s = .next t ∧ AnswersOkay t 0#32 ∧
    (w.getLsbD 2 = false →
      t.ts = { (withoutTransaction s).ts with en := w.getLsbD 0, irqEn := w.getLsbD 1 }) ∧
    (w.getLsbD 2 = true →
      t.ts = { en := true, irqEn := w.getLsbD 1, sstate := .idle, txf := [], txfOvf := false,
               irqPend := false, dly := 0#32, wid := 0#32, cnt := 0#32, out := false,
               prev := s.port.edgeIn, prevValid := true }) ∧
    t.rq = (withoutTransaction s).rq ∧ t.pd = (withoutTransaction s).pd

/-- WR_SEQ_TXF (R192, R124): whether the value fits is decided on the length at the cycle's start; a fitting
value is appended behind what the step leaves, a dropped one sets `txf_ovf`. -/
def Obligations.ParameterPushAppendsOrDrops : Prop :=
  ∀ (v : Word) (s : State), ∃ t, exec (.wrSeqTxf v) s = .next t ∧ AnswersOkay t 0#32 ∧
    (s.ts.txf.length < s.params.txfDepth →
      t.ts = { (withoutTransaction s).ts with txf := (withoutTransaction s).ts.txf ++ [v] }) ∧
    (s.params.txfDepth ≤ s.ts.txf.length →
      t.ts = { (withoutTransaction s).ts with txfOvf := true }) ∧
    t.rq = (withoutTransaction s).rq ∧ t.pd = (withoutTransaction s).pd

/-- WR_SEQ_IRQ_CLR (R205, R124): from `FIRED` the clear returns TS to `IDLE` with `irq_pend = 0`, whatever `en`
is; in a cycle that completes, the completion wins; bit 0 clear has no effect. -/
def Obligations.InterruptClearLosesToCompletion : Prop :=
  ∀ (w : Word) (s : State), SequencerInv s.params s.ts →
    ∃ t, exec (.wrSeqIrqClr w) s = .next t ∧ AnswersOkay t 0#32 ∧
    (w.getLsbD 0 = true → s.ts.sstate = .fired →
      t.ts = { s.ts with sstate := .idle, irqPend := false,
                         prev := s.port.edgeIn, prevValid := true } ∧
      t.rq = (withoutTransaction s).rq ∧ t.pd = (withoutTransaction s).pd) ∧
    (w.getLsbD 0 = true → s.ts.sstate ≠ .fired → NoBusEffect s t) ∧
    (w.getLsbD 0 = false → NoBusEffect s t)

/-- RD_SEQ_CTRL, RD_SEQ_STATUS, RD_SEQ_DELAY, RD_SEQ_WIDTH, RD_SEQ_COUNT (R195, R206 to R209), bit by bit. -/
def Obligations.SequencerReadsAnswer : Prop :=
  ∀ s : State,
    (∃ t v, exec .rdSeqCtrl s = .next t ∧ NoBusEffect s t ∧ AnswersOkay t v ∧
      v.getLsbD 0 = s.ts.en ∧ v.getLsbD 1 = s.ts.irqEn ∧ v.extractLsb' 2 30 = 0#30) ∧
    (∃ t v, exec .rdSeqStatus s = .next t ∧ NoBusEffect s t ∧ AnswersOkay t v ∧
      v.extractLsb' 0 3 = (match s.ts.sstate with
        | .idle => 0#3 | .loadWidth => 1#3 | .waitEdge => 2#3 | .delay => 3#3 | .pulse => 4#3
        | .fired => 5#3) ∧
      v.getLsbD 3 = s.ts.irqPend ∧ v.getLsbD 4 = s.ts.txfOvf ∧ v.getLsbD 5 = s.ts.out ∧
      v.getLsbD 6 = s.ts.prev ∧ v.getLsbD 7 = false ∧
      v.extractLsb' 8 4 = BitVec.ofNat 4 s.ts.txf.length ∧ v.extractLsb' 12 20 = 0#20) ∧
    (∃ t, exec .rdSeqDelay s = .next t ∧ NoBusEffect s t ∧ AnswersOkay t s.ts.dly) ∧
    (∃ t, exec .rdSeqWidth s = .next t ∧ NoBusEffect s t ∧ AnswersOkay t s.ts.wid) ∧
    (∃ t, exec .rdSeqCount s = .next t ∧ NoBusEffect s t ∧ AnswersOkay t s.ts.cnt)

/-! ## Timing Sequencer in every cycle -/

/-- EDGE_SAMPLE (30_encoding.md R95, 43_timing_sequencer.md R196 to R204): the cycle samples the level, and with
`en = 1` TS takes the step of its state; with `en = 0` it holds. -/
def Obligations.SequencerTakesItsStep : Prop :=
  ∀ (e : Bool) (s : State), ∃ t, exec (.edgeSample e) s = .next t ∧ t.out.reply = none ∧
    let u : Sequencer := { s.ts with prev := e, prevValid := true }
    let begun : Sequencer :=
      if s.ts.wid = 0#32 then { u with sstate := .fired, cnt := 0#32, out := false, irqPend := true }
      else { u with sstate := .pulse, cnt := s.ts.wid, out := true }
    let edge : Prop := s.ts.prevValid = true ∧
      ((s.params.edgePolarity = .rising ∧ s.ts.prev = false ∧ e = true) ∨
        (s.params.edgePolarity = .falling ∧ s.ts.prev = true ∧ e = false))
    (s.ts.en = false → t.ts = u) ∧
    (s.ts.en = true →
      (∀ v rest, s.ts.sstate = .idle → s.ts.txf = v :: rest →
        t.ts = { u with dly := v, txf := rest, sstate := .loadWidth }) ∧
      (∀ v rest, s.ts.sstate = .loadWidth → s.ts.txf = v :: rest →
        t.ts = { u with wid := v, txf := rest, sstate := .waitEdge }) ∧
      (s.ts.sstate = .idle ∨ s.ts.sstate = .loadWidth → s.ts.txf = [] → t.ts = u) ∧
      (s.ts.sstate = .waitEdge → ¬ edge → t.ts = u) ∧
      (s.ts.sstate = .waitEdge → edge → s.ts.dly ≠ 0#32 →
        t.ts = { u with sstate := .delay, cnt := s.ts.dly }) ∧
      (s.ts.sstate = .waitEdge → edge → s.ts.dly = 0#32 → t.ts = begun) ∧
      (s.ts.sstate = .delay → s.ts.cnt = 1#32 → t.ts = begun) ∧
      (s.ts.sstate = .pulse → s.ts.cnt = 1#32 →
        t.ts = { u with out := false, cnt := 0#32, sstate := .fired, irqPend := true }) ∧
      (s.ts.sstate = .delay ∨ s.ts.sstate = .pulse → s.ts.cnt ≠ 1#32 →
        t.ts = { u with cnt := s.ts.cnt - 1#32 }) ∧
      (s.ts.sstate = .fired → t.ts = u)) ∧
    t.rq = (withoutTransaction s).rq ∧ t.pd = (withoutTransaction s).pd

/-- 43_timing_sequencer.md R210: from an edge detected in `WAIT_EDGE` with delay `d` and width `w`, TS is in
`DELAY` for `d` cycles, drives `seq_out` for exactly `w`, and the interrupt is pending after them, on the line where
`irq_en` is 1. The premise is R210's: no RESET_ARM, no disable, no reset. A `SEQ_CTRL` write that keeps `EN` at 1,
parameter pushes, clears and whatever RQ and PD do may all happen meanwhile. -/
def Obligations.PulseTimelineIsExact : Prop :=
  ∀ s : State, s.ts.en = true → s.ts.sstate = .waitEdge → s.ts.out = false →
    s.ts.irqPend = false → edgeAt s = true →
    let d := s.ts.dly.toNat
    let w := s.ts.wid.toNat
    Undisturbed (d + w + 1) s →
    (∀ j, 1 ≤ j → j ≤ d →
      (after j s).ts.sstate = .delay ∧ (after j s).ts.out = false ∧
        (after j s).ts.irqPend = false) ∧
    (∀ j, d + 1 ≤ j → j ≤ d + w →
      (after j s).ts.sstate = .pulse ∧ (after j s).ts.out = true ∧
        (after j s).ts.irqPend = false) ∧
    (after (d + w + 1) s).ts.sstate = .fired ∧ (after (d + w + 1) s).ts.out = false ∧
    (after (d + w + 1) s).ts.irqPend = true ∧
    irqLine (after (d + w + 1) s).ts = (after (d + w + 1) s).ts.irqEn

/-- 43_timing_sequencer.md R211, 60_exceptions.md R235, in one step: `irq_pend` rises only on entering `FIRED`, from a finished width, or from a
finished delay or an edge with nothing left to count; it falls only by the clear, RESET_ARM or reset. -/
def Obligations.InterruptRisesByCompletionFallsByClear : Prop :=
  ∀ (i : Instr) (s t : State), exec i s = .next t → SequencerInv s.params s.ts →
    (s.ts.irqPend = false → t.ts.irqPend = true →
      t.ts.sstate = .fired ∧ s.ts.en = true ∧
      ((s.ts.sstate = .pulse ∧ s.ts.cnt = 1#32) ∨
        (s.ts.sstate = .delay ∧ s.ts.cnt = 1#32 ∧ s.ts.wid = 0#32) ∨
        (s.ts.sstate = .waitEdge ∧ edgeSeen s.params s.ts t.port.edgeIn = true ∧
          s.ts.dly = 0#32 ∧ s.ts.wid = 0#32))) ∧
    (s.ts.irqPend = true → t.ts.irqPend = false →
      isIrqClear i = true ∨ isResetArm i = true ∨ i = .rst)

/-- 43_timing_sequencer.md R211 along runs: at most one completion per arm cycle. Every completion of a run that
starts with TS in `IDLE` or `FIRED` has an arm cycle of its own before it: TS has taken a delay `d` and then a width
`w`, an edge has counted in `WAIT_EDGE`, and at least `d + w` cycles have passed, with no RESET_ARM and no reset
cycle since the delay was taken. And from any state, between two completions lies a whole arm cycle that began
after the first. -/
def Obligations.CompletionComesOncePerArmCycle : Prop :=
  (∀ (s : State) (j : Nat), s.ts.sstate = .idle ∨ s.ts.sstate = .fired →
    completesAt (after j s) = true → ArmCycleWithin s 0 j) ∧
  ∀ (s : State) (i j : Nat), i < j → completesAt (after i s) = true → completesAt (after j s) = true →
    ArmCycleWithin s (i + 1) j

/-- 43_timing_sequencer.md R216: RESET_ARM, the delay and the width written in three successive cycles put TS in
`WAIT_EDGE` with them from the fourth cycle on, from any state, whatever the ports carry. -/
def Obligations.ArmReachesWaitEdgeInFourCycles : Prop :=
  ∀ (s : State) (d w : Word) (x : Nat → Bool × Byte × Bool) (rest : List CycleIn), s.params.wf →
    s.inputs =
      [⟨false, some (writeReq 0x080#12 0x6#32), (x 0).1, (x 0).2.1, (x 0).2.2⟩,
       ⟨false, some (writeReq 0x084#12 d), (x 1).1, (x 1).2.1, (x 1).2.2⟩,
       ⟨false, some (writeReq 0x084#12 w), (x 2).1, (x 2).2.1, (x 2).2.2⟩,
       ⟨false, none, (x 3).1, (x 3).2.1, (x 3).2.2⟩] ++ rest →
    (after 4 s).ts = { en := true, irqEn := true, sstate := .waitEdge, txf := [], txfOvf := false,
                       irqPend := false, dly := d, wid := w, cnt := 0#32, out := false,
                       prev := (x 3).2.2, prevValid := true }

/-- 60_exceptions.md R237, R238 and 43_timing_sequencer.md R204: in `FIRED` TS stands still, edges and parameters
notwithstanding, until a clear, RESET_ARM or reset; the `irq` output of every one of these cycles is the pending bit
under the cycle's `irq_en`. `prev` still samples the pin (R199; log entry 17), and the bus still writes `txf`,
`txf_ovf`, `en` and `irq_en`. -/
def Obligations.FiredWaitsForTheHost : Prop :=
  ∀ (s : State) (n : Nat), s.ts.sstate = .fired →
    (∀ k, k < n → resetCycleAt (after k s) = false ∧ isIrqClear (rowAt (after k s)) = false ∧
      isResetArm (rowAt (after k s)) = false) →
    (after n s).ts.sstate = .fired ∧ (after n s).ts.irqPend = s.ts.irqPend ∧
    (after n s).ts.dly = s.ts.dly ∧ (after n s).ts.wid = s.ts.wid ∧
    (after n s).ts.cnt = s.ts.cnt ∧ (after n s).ts.out = s.ts.out ∧
    s.ts.txf <+: (after n s).ts.txf ∧
    ∀ k, k < n → (after (k + 1) s).out.irq = (s.ts.irqPend && (after k s).ts.irqEn)

/-- 43_timing_sequencer.md R214: with no edge detected TS waits in `WAIT_EDGE` for ever, until RESET_ARM or
reset. -/
def Obligations.WaitEdgeHasNoTimeout : Prop :=
  ∀ (s : State) (n : Nat), s.ts.sstate = .waitEdge →
    (∀ k, k < n → resetCycleAt (after k s) = false ∧ isResetArm (rowAt (after k s)) = false ∧
      ((after k s).ts.en = false ∨ edgeAt (after k s) = false)) →
    (after n s).ts.sstate = .waitEdge ∧ (after n s).ts.dly = s.ts.dly ∧
    (after n s).ts.wid = s.ts.wid ∧ (after n s).ts.out = s.ts.out

/-- 43_timing_sequencer.md R196: with `en = 0` the step does nothing: over a run without reset cycle, without
RESET_ARM or an enable, and without a clear, `sstate`, `cnt`, `dly`, `wid`, `out`, `irq_pend` hold. -/
def Obligations.DisabledSequencerIsFrozen : Prop :=
  ∀ (s : State) (n : Nat), s.ts.en = false → LeftDisabled n s →
    (∀ k, k < n → isIrqClear (rowAt (after k s)) = false) →
    (after n s).ts.en = false ∧ (after n s).ts.sstate = s.ts.sstate ∧
    (after n s).ts.cnt = s.ts.cnt ∧ (after n s).ts.dly = s.ts.dly ∧
    (after n s).ts.wid = s.ts.wid ∧ (after n s).ts.out = s.ts.out ∧
    (after n s).ts.irqPend = s.ts.irqPend ∧ s.ts.txf <+: (after n s).ts.txf

/-- 10_state.md R28, whole: every step keeps the TS invariants, from whatever state has them, and they hold in
every cycle after a reset cycle. -/
def Obligations.StepKeepsSequencerInvariant : Prop :=
  (∀ s t : State, SequencerInv s.params s.ts → step s = .next t → SequencerInv t.params t.ts) ∧
  ∀ (s : State) (n : Nat), resetCycleAt s = true →
    SequencerInv (after (n + 1) s).params (after (n + 1) s).ts

/-- 42_pattern_detector.md R177: PD and TS are not connected. What TS becomes depends on TS, the parameters, the
row and the edge level alone; what RQ and PD become does not depend on TS. -/
def Obligations.DetectorAndSequencerAreIndependent : Prop :=
  ∀ (s s' : State) (n : Nat), s.params = s'.params → s.cycles = s'.cycles → s.inputs = s'.inputs →
    (s.ts = s'.ts → (after n s).ts = (after n s').ts) ∧
    (s.rq = s'.rq → s.pd = s'.pd →
      (after n s).rq = (after n s').rq ∧ (after n s).pd = (after n s').pd)

/-! ## Reserved accesses, errors, reset -/

/-- RD_RESERVED and WR_RESERVED (30_encoding.md R90, whole): OKAY, read data 0, no state change; and that is what
a word-sized, aligned transaction does that no other row matches. -/
def Obligations.ReservedAccessesDoNothing : Prop :=
  (∀ (off : BitVec 12) (w : Word) (s : State),
    (∃ t, exec (.rdReserved off) s = .next t ∧ AnswersOkay t 0#32 ∧ NoBusEffect s t) ∧
    (∃ t, exec (.wrReserved off w) s = .next t ∧ AnswersOkay t 0#32 ∧ NoBusEffect s t)) ∧
  ∀ (r : Request) (s : State), r.size = 2#2 → r.off.extractLsb' 0 2 = 0#2 →
    (∀ row ∈ rows, r.key &&& row.mask ≠ row.mtch) →
    ∃ t, exec (decodeRequest r) s = .next t ∧ AnswersOkay t 0#32 ∧ NoBusEffect s t

/-- BUS_ERROR (60_exceptions.md R231, whole, and R232): the answer is ERROR with `rdata = 0` and nothing changes;
that is what a transaction does with `size != 2` or `off[1:0] != 0`; and no other instruction answers ERROR. -/
def Obligations.BusErrorChangesNothing : Prop :=
  (∀ (we : Bool) (off : BitVec 12) (size : BitVec 2) (w : Word) (s : State),
    ∃ t, exec (.busError we off size w) s = .next t ∧ t.out.reply = some ⟨.error, 0#32⟩ ∧
      NoBusEffect s t) ∧
  (∀ (r : Request) (s : State), r.size ≠ 2#2 ∨ r.off.extractLsb' 0 2 ≠ 0#2 →
    ∃ t, exec (decodeRequest r) s = .next t ∧ t.out.reply = some ⟨.error, 0#32⟩ ∧ NoBusEffect s t) ∧
  ∀ (i : Instr) (s t : State) (r : Reply), exec i s = .next t → t.out.reply = some r →
    r.resp = .error → ∃ we off size w, i = .busError we off size w

/-- RST (70_reset_and_hazards.md R260): every field at its reset value whatever the state, `QMem` unchanged. -/
def Obligations.ResetCycleRestoresResetValues : Prop :=
  ∀ s : State, ∃ t, exec .rst s = .next t ∧
    t.rq = { qmem := s.rq.qmem, wptr := 0, wgray := 0, rptr := 0, rgray := 0,
             wsync := List.replicate s.params.syncStages 0,
             rsync := List.replicate s.params.syncStages 0, stallSeen := false } ∧
    t.pd = { patS := [], lenS := 0, patA := [], lenA := 0, curPos := 0, dstate := .idle, hold := 0,
             pcnt := 0, trig := false, rxCount := 0 } ∧
    t.ts = { en := false, irqEn := false, sstate := .idle, txf := [], txfOvf := false,
             irqPend := false, dly := 0, wid := 0, cnt := 0, out := false, prev := false,
             prevValid := false }

/-- R260's list of register values read in the first cycle after reset, for every legal choice of the
parameters. -/
def Obligations.RegistersAfterReset : Prop :=
  ∀ (p : Params) (i : Instr) (t : State), p.wf → exec i (State.resetWith p) = .next t →
    (i = .rdQData ∨ i = .rdQLevel ∨ i = .rdDetPatLen ∨ i = .rdDetStatus ∨ i = .rdDetRxcount ∨
      (∃ k, i = .rdDetPatWord k) ∨ i = .rdSeqCtrl ∨ i = .rdSeqStatus ∨ i = .rdSeqDelay ∨
      i = .rdSeqWidth ∨ i = .rdSeqCount → AnswersOkay t 0#32) ∧
    (i = .rdQStatus → AnswersOkay t 1#32) ∧
    (i = .rdQCapacity → ∃ v, AnswersOkay t v ∧ v.toNat = 2 ^ p.a)

/-- 70_reset_and_hazards.md R262: no edge is detected in the first cycle after a reset cycle, whatever the level
is. -/
def Obligations.NoEdgeInFirstCycleAfterReset : Prop :=
  ∀ (s : State) (e : Bool), resetCycleAt s = true →
    edgeSeen (after 1 s).params (after 1 s).ts e = false ∧ (after 1 s).ts.en = false

/-! ## Memory and the whole machine -/

/-- Every byte of the three stores is left alone by every instruction but for the bytes it stores to: the slot
of the push in `QMem`, the four bytes of the word in `PatS`, all of `PatA` at a commit; reset clears the
patterns and keeps `QMem` (20_memory.md R60). -/
def Obligations.StoresChangeOnlyWhereWritten : Prop :=
  ∀ (i : Instr) (s t : State) (a : Nat), exec i s = .next t →
    (i = .rst ∨ ¬ (s.pd.dstate = .push ∧ fullP s.params s.rq = false) ∨
        a ≠ s.rq.wptr % 2 ^ s.params.a →
      t.rq.qmem.read a = s.rq.qmem.read a) ∧
    (s.rq.qmem.wf = true → i ≠ .rst → s.pd.dstate = .push → fullP s.params s.rq = false →
      t.rq.qmem.read (s.rq.wptr % 2 ^ s.params.a) = s.pd.hold) ∧
    (i ≠ .rst → (∀ k w, i = .wrDetPatWord k w → a / 4 ≠ k.toNat) →
      t.pd.patS.read a = s.pd.patS.read a) ∧
    (i ≠ .rst → t.pd.patA.read a =
      if isCommit i then s.pd.patS.read a else s.pd.patA.read a) ∧
    (i = .rst → t.pd.patS.read a = 0x00#8 ∧ t.pd.patA.read a = 0x00#8)

/-- Every step keeps the stores canonical and within their size (20_memory.md R60; the form is the model's,
log entry 6). -/
def Obligations.StepKeepsStoresCanonical : Prop :=
  ∀ s t : State, StoresInv s.params s.rq s.pd → step s = .next t → StoresInv t.params t.rq t.pd

/-- Every invariant holds right after reset, for every legal choice of the parameters (10_state.md R26 to R28),
and at State.reset, whose parameters are the model's choice of R7's values, log entry 5. The clause on the stores'
canonical form, `StoresInv`, is the model's choice, log entry 6. -/
def Obligations.InvariantsHoldAtReset : Prop :=
  (∀ p : Params, p.wf → BlockInv (State.resetWith p)) ∧ BlockInv State.reset

/-- Every invariant holds along every run from a state that has them all, reset cycles and any inputs included
(10_state.md R26 to R28). The clause on the stores' canonical form, `StoresInv`, is the model's choice, log
entry 6. -/
def Obligations.InvariantsHoldAlongEveryRun : Prop :=
  ∀ (s : State) (n : Nat), BlockInv s → BlockInv (after n s)
end

