-- ==== Sys2Proof/Laws/Decode.lean ====
section
/-! SUPPORT. Byte strings and frames, the three ways a transaction decodes, and the cycle an instruction is placed
as. -/

namespace Sys2Proof

/-! ### Bytes -/

@[simp] theorem toBytes_length (n v : Nat) : (toBytes n v).length = n := by
  induction n generalizing v with
  | zero => rfl
  | succ n ih => simp [toBytes, ih]

/-- The number read back from its bytes. -/
theorem ofBytes_toBytes (n v : Nat) : ofBytes (toBytes n v) = v % 256 ^ n := by
  induction n generalizing v with
  | zero => simp [toBytes, ofBytes, Nat.mod_one]
  | succ n ih =>
    rw [toBytes, ofBytes, ih, BitVec.toNat_ofNat]
    exact (Nat.pow_succ' (m := 256) (n := n) ▸ Nat.mod_mul (x := v) (a := 256) (b := 256 ^ n)).symm

/-- Decoding a frame's eight bytes is decoding the frame, whatever follows. -/
theorem decode_frameBytes (w : BitVec 64) (rest : List Byte) : decode (toBytes 8 w.toNat ++ rest) =
    match decodeFrame w with
    | .ok i => .ok (i, rest)
    | .error e => .error e := by
  have hlt : w.toNat % 256 ^ 8 = w.toNat := Nat.mod_eq_of_lt (by have := w.isLt; omega)
  have hw : BitVec.ofNat 64 (ofBytes (toBytes 8 w.toNat)) = w := by
    rw [ofBytes_toBytes, hlt, BitVec.ofNat_toNat, BitVec.setWidth_eq]
  have ht : (toBytes 8 w.toNat ++ rest).take 8 = toBytes 8 w.toNat := List.take_left' (by simp)
  have hd : (toBytes 8 w.toNat ++ rest).drop 8 = rest := List.drop_left' (by simp)
  cases h : decodeFrame w <;> simp [decode, ht, hd, hw, h]

/-! ### A transaction -/

/-- An access the block does not accept. -/
theorem decodeRequest_illegal {r : Request} (h : legalAccess r.size r.off = false) :
    decodeRequest r = .busError r.we r.off r.size r.wdata := by
  simp [decodeRequest, h]

/-- A legal access is a row that hits its key, or the default row where none does. -/
theorem decodeRequest_legal {r : Request} (h : legalAccess r.size r.off = true) :
    (∃ row ∈ rows, row.hits r.key = true ∧ decodeRequest r = row.build (patIndex r.off) r.wdata) ∨
    ((∀ row ∈ rows, row.hits r.key = false) ∧
      decodeRequest r = if r.we then .wrReserved r.off r.wdata else .rdReserved r.off) := by
  cases hf : rows.find? (·.hits r.key) with
  | some row =>
    have hh := List.find?_some hf
    exact .inl ⟨row, List.mem_of_find?_eq_some hf, hh, by simp [decodeRequest, h, hf]⟩
  | none =>
    refine .inr ⟨fun row hrow => ?_, by simp [decodeRequest, h, hf]⟩
    simpa using List.find?_eq_none.1 hf row hrow

/-- A property of every row's instruction, of the default rows and of the bus error holds of every transaction. -/
theorem decodeRequest_induct {P : Instr → Prop} (r : Request)
    (hrow : ∀ row ∈ rows, ∀ k w, P (row.build k w)) (hrd : ∀ off, P (.rdReserved off))
    (hwr : ∀ off w, P (.wrReserved off w)) (herr : ∀ we off size w, P (.busError we off size w)) :
    P (decodeRequest r) := by
  cases h : legalAccess r.size r.off with
  | false => rw [decodeRequest_illegal h]; exact herr _ _ _ _
  | true =>
    rcases decodeRequest_legal h with ⟨row, hm, -, he⟩ | ⟨-, he⟩
    · rw [he]; exact hrow row hm _ _
    · rw [he]; split
      · exact hwr _ _
      · exact hrd _

/-- A transaction is never the reset row. -/
theorem decodeRequest_ne_rst (r : Request) : decodeRequest r ≠ .rst :=
  decodeRequest_induct (P := (· ≠ .rst)) r (by simp [rows, rowsRq, rowsPd, rowsTs]) (by simp) (by simp)
    (by simp)

/-! ### The cycle an instruction is placed as -/

namespace Machine

/-- A bus row is placed as its request. -/
theorem inputOf_bus {i : Instr} {r : Request} (level : Bool) (h : requestOf i = some r) :
    inputOf level i = busInput level r := by
  cases i with
  | rxByte d => cases h
  | edgeSample e => cases h
  | rst => cases h
  | _ => rw [← Option.some.inj h]; rfl

theorem leadInstr_busInput (level : Bool) (r : Request) : leadInstr (busInput level r) = decodeRequest r :=
  rfl

theorem leadInstr_rxByte (level : Bool) (d : Byte) : leadInstr (inputOf level (.rxByte d)) = .rxByte d := rfl

theorem leadInstr_edgeSample (level e : Bool) : leadInstr (inputOf level (.edgeSample e)) = .edgeSample e :=
  rfl

theorem leadInstr_rst (level : Bool) : leadInstr (inputOf level .rst) = .rst := rfl

end Machine

end Sys2Proof
end

