-- ==== Sys2Proof/Laws/State.lean ====
section
/-! SUPPORT. The fields of the records the machine builds: one lemma per field and per update, true by `rfl`. -/

namespace Sys2Proof.Machine

/-! ### Presenting and placing inputs -/

section
variable (s : State) (c : CycleIn)

@[simp] theorem present_params : s.present.params = s.params := rfl
@[simp] theorem present_rq : s.present.rq = s.rq := rfl
@[simp] theorem present_pd : s.present.pd = s.pd := rfl
@[simp] theorem present_ts : s.present.ts = s.ts := rfl
@[simp] theorem present_inputs : s.present.inputs = s.inputs.tail := rfl
@[simp] theorem present_cycles : s.present.cycles = s.cycles := rfl
@[simp] theorem present_port : s.present.port = portOf s.nextInput := rfl
@[simp] theorem present_out : s.present.out = s.out := rfl
@[simp] theorem place_params : (s.place c).params = s.params := rfl
@[simp] theorem place_rq : (s.place c).rq = s.rq := rfl
@[simp] theorem place_pd : (s.place c).pd = s.pd := rfl
@[simp] theorem place_ts : (s.place c).ts = s.ts := rfl
@[simp] theorem place_inputs : (s.place c).inputs = c :: s.inputs := rfl
@[simp] theorem place_cycles : (s.place c).cycles = s.cycles := rfl
@[simp] theorem place_nextInput : (s.place c).nextInput = c := rfl

end

section
variable (c : CycleIn)

@[simp] theorem portOf_busValid : (portOf c).busValid = c.bus.isSome := rfl
@[simp] theorem portOf_rxValid : (portOf c).rxValid = c.rxValid := rfl
@[simp] theorem portOf_rxData : (portOf c).rxData = c.rxData := rfl
@[simp] theorem portOf_edgeIn : (portOf c).edgeIn = c.edgeIn := rfl

end

/-! ### One cycle -/

section
variable (port : Port) (reply : Option Reply) (eff : BusEffect) (s : State)

@[simp] theorem runCycle_params : (runCycle port reply eff s).params = s.params := rfl
@[simp] theorem runCycle_rq :
    (runCycle port reply eff s).rq = nextRq s.params s.pd eff s.rq := rfl
@[simp] theorem runCycle_pd :
    (runCycle port reply eff s).pd = nextPd s.params s.rq port eff s.pd := rfl
@[simp] theorem runCycle_ts :
    (runCycle port reply eff s).ts = nextTs s.params port.edgeIn eff s.ts := rfl
@[simp] theorem runCycle_inputs : (runCycle port reply eff s).inputs = s.inputs := rfl
@[simp] theorem runCycle_cycles : (runCycle port reply eff s).cycles = s.cycles + 1 := rfl
@[simp] theorem runCycle_port : (runCycle port reply eff s).port = port := rfl
@[simp] theorem runCycle_out : (runCycle port reply eff s).out = outputsOf s reply := rfl

@[simp] theorem resetCycle_params : (resetCycle s).params = s.params := rfl
@[simp] theorem resetCycle_rq : (resetCycle s).rq = RelayQueue.reset s.params s.rq.qmem := rfl
@[simp] theorem resetCycle_pd : (resetCycle s).pd = Detector.reset := rfl
@[simp] theorem resetCycle_ts : (resetCycle s).ts = Sequencer.reset := rfl
@[simp] theorem resetCycle_inputs : (resetCycle s).inputs = s.inputs := rfl
@[simp] theorem resetCycle_cycles : (resetCycle s).cycles = s.cycles + 1 := rfl
@[simp] theorem resetCycle_port : (resetCycle s).port = s.port := rfl

@[simp] theorem outputsOf_reply : (outputsOf s reply).reply = reply := rfl
@[simp] theorem outputsOf_rxReady : (outputsOf s reply).rxReady = (s.pd.dstate == .idle) := rfl
@[simp] theorem outputsOf_trigOut : (outputsOf s reply).trigOut = s.pd.trig := rfl
@[simp] theorem outputsOf_seqOut : (outputsOf s reply).seqOut = s.ts.out := rfl
@[simp] theorem outputsOf_irq : (outputsOf s reply).irq = (s.ts.irqPend && s.ts.irqEn) := rfl

end

/-! ### Relay Queue -/

section
variable (p : Params) (pd : Detector) (eff : BusEffect) (q : RelayQueue)

@[simp] theorem nextRq_qmem : (nextRq p pd eff q).qmem =
    if pushes p q pd then q.qmem.write (slotOf p q.wptr) pd.hold else q.qmem := rfl
@[simp] theorem nextRq_wptr : (nextRq p pd eff q).wptr =
    if pushes p q pd then ptrSucc p q.wptr else q.wptr := rfl
@[simp] theorem nextRq_wgray : (nextRq p pd eff q).wgray =
    if pushes p q pd then gray (ptrSucc p q.wptr) else q.wgray := rfl
@[simp] theorem nextRq_rptr : (nextRq p pd eff q).rptr =
    if eff = .popQueue then ptrSucc p q.rptr else q.rptr := rfl
@[simp] theorem nextRq_rgray : (nextRq p pd eff q).rgray =
    if eff = .popQueue then gray (ptrSucc p q.rptr) else q.rgray := rfl
@[simp] theorem nextRq_wsync : (nextRq p pd eff q).wsync = syncShift p q.wgray q.wsync := rfl
@[simp] theorem nextRq_rsync : (nextRq p pd eff q).rsync = syncShift p q.rgray q.rsync := rfl
@[simp] theorem nextRq_stallSeen : (nextRq p pd eff q).stallSeen =
    (stalls p q pd || (q.stallSeen && !decide (eff = .clearStall))) := rfl

end

/-! ### Timing Sequencer -/

section
variable (e : Bool) (ts : Sequencer)

@[simp] theorem sampleEdge_en : (sampleEdge e ts).en = ts.en := rfl
@[simp] theorem sampleEdge_irqEn : (sampleEdge e ts).irqEn = ts.irqEn := rfl
@[simp] theorem sampleEdge_sstate : (sampleEdge e ts).sstate = ts.sstate := rfl
@[simp] theorem sampleEdge_txf : (sampleEdge e ts).txf = ts.txf := rfl
@[simp] theorem sampleEdge_txfOvf : (sampleEdge e ts).txfOvf = ts.txfOvf := rfl
@[simp] theorem sampleEdge_irqPend : (sampleEdge e ts).irqPend = ts.irqPend := rfl
@[simp] theorem sampleEdge_dly : (sampleEdge e ts).dly = ts.dly := rfl
@[simp] theorem sampleEdge_wid : (sampleEdge e ts).wid = ts.wid := rfl
@[simp] theorem sampleEdge_cnt : (sampleEdge e ts).cnt = ts.cnt := rfl
@[simp] theorem sampleEdge_out : (sampleEdge e ts).out = ts.out := rfl
@[simp] theorem sampleEdge_prev : (sampleEdge e ts).prev = e := rfl
@[simp] theorem sampleEdge_prevValid : (sampleEdge e ts).prevValid = true := rfl

end

end Sys2Proof.Machine
end

