-- ==== Sys2Proof/Laws/Exec.lean ====
section
/-! SUPPORT. Everything an instruction can do, said once: a reset cycle for RST, and for any other one cycle of
the block with the instruction's port levels, response and proposal. -/

namespace Sys2Proof.Machine

/-- The port levels of the instruction's cycle. -/
def levelsOf (i : Instr) (port : Port) : Port :=
  match i with
  | .rxByte d => { port with rxValid := true, rxData := d }
  | .edgeSample e => { port with edgeIn := e }
  | _ => port

/-- What the instruction's transaction proposes. -/
def effectOf (i : Instr) (s : State) : BusEffect :=
  match i with
  | .rdQData => if canPop s.params s.rq then .popQueue else .none
  | .wrQStatus w => if wbit w 2 then .clearStall else .none
  | .wrDetPatWord k w => .setPatWord k w
  | .wrDetPatLen w => if w.toNat ≤ patternMax then .setPatLen (wbyte w 0) else .none
  | .wrDetCommit w => if wbit w 0 then .commit else .none
  | .wrSeqCtrl w =>
    if wbit w 2 then .resetArm (wbit w 1) else .setEnables (wbit w 0) (wbit w 1)
  | .wrSeqTxf w => .pushTxf w
  | .wrSeqIrqClr w => if wbit w 0 then .clearIrq else .none
  | _ => .none

/-- The response to the instruction's transaction. -/
def replyOf (i : Instr) (s : State) : Option Reply :=
  match i with
  | .rdQData =>
    some (Reply.ok (if canPop s.params s.rq then packQData (headByte s.params s.rq) else 0#32))
  | .rdQLevel => some (Reply.ok (natWord (levelC s.params s.rq)))
  | .rdQCapacity => some (Reply.ok (natWord (queueSize s.params)))
  | .rdQStatus =>
    some (Reply.ok (packQStatus s.rq.stallSeen (fullC s.params s.rq) (emptyC s.params s.rq)))
  | .rdDetPatLen => some (Reply.ok (zext s.pd.lenS))
  | .rdDetStatus => some (Reply.ok (packDetStatus s.pd.trig s.pd.dstate s.pd.lenA s.pd.curPos))
  | .rdDetRxcount => some (Reply.ok s.pd.rxCount)
  | .rdDetPatWord k => some (Reply.ok (s.pd.patS.readWord k))
  | .rdSeqCtrl => some (Reply.ok (packSeqCtrl s.ts.irqEn s.ts.en))
  | .rdSeqStatus =>
    some (Reply.ok
      (packSeqStatus s.ts.txf.length s.ts.prev s.ts.out s.ts.txfOvf s.ts.irqPend s.ts.sstate))
  | .rdSeqDelay => some (Reply.ok s.ts.dly)
  | .rdSeqWidth => some (Reply.ok s.ts.wid)
  | .rdSeqCount => some (Reply.ok s.ts.cnt)
  | .busError _ _ _ _ => some busErrorReply
  | .rdReserved _ | .wrReserved _ _ | .wrQStatus _ | .wrDetPatLen _ | .wrDetCommit _
  | .wrDetPatWord _ _ | .wrSeqCtrl _ | .wrSeqTxf _ | .wrSeqIrqClr _ => some (Reply.ok 0#32)
  | .rxByte _ | .edgeSample _ | .rst => none

/-- The next state of an instruction. -/
def execState (i : Instr) (s : State) : State :=
  match i with
  | .rst => resetCycle s
  | i => runCycle (levelsOf i s.port) (replyOf i s) (effectOf i s) s

/-- Every instruction answers a next state, this one. -/
theorem exec_eq (i : Instr) (s : State) : exec i s = .next (execState i s) := by
  cases i with
  | rdQData =>
    show Host.Outcome.next (if canPop s.params s.rq then _ else _) =
      .next (runCycle s.port (some (Reply.ok (if canPop s.params s.rq then _ else _)))
        (if canPop s.params s.rq then _ else _) s)
    cases canPop s.params s.rq <;> rfl
  | _ => rfl

/-- What an instruction answers, read off the answer. -/
theorem exec_next_iff {i : Instr} {s t : State} : exec i s = .next t ↔ t = execState i s := by
  rw [exec_eq]
  constructor
  · intro h; injection h with h; exact h.symm
  · rintro rfl; rfl

theorem execState_rst (s : State) : execState .rst s = resetCycle s := rfl

theorem execState_of_ne {i : Instr} (h : i ≠ .rst) (s : State) :
    execState i s = runCycle (levelsOf i s.port) (replyOf i s) (effectOf i s) s := by
  cases i <;> first | rfl | exact absurd rfl h

/-- A step is the cycle's row on the state with the cycle's inputs at the ports. -/
theorem step_eq (s : State) : step s = .next (execState (leadInstr s.nextInput) s.present) :=
  exec_eq _ _

theorem advance_eq (s : State) : advance s = execState (rowAt s) s.present := by
  simp [advance, step_eq, rowAt]

/-- A reset cycle leads with RST, and only a reset cycle does. -/
theorem rowAt_rst_iff (s : State) : rowAt s = .rst ↔ resetCycleAt s = true := by
  cases hr : s.nextInput.rst with
  | true => simp [rowAt, leadInstr, resetCycleAt, hr]
  | false =>
    simp only [rowAt, leadInstr, resetCycleAt, hr, Bool.false_eq_true, if_false, iff_false]
    cases hb : s.nextInput.bus with
    | none => cases hx : s.nextInput.rxValid <;> simp
    | some r => simpa using decodeRequest_ne_rst r

/-- The next state where the cycle is no reset cycle: the ports carry the cycle's own levels. -/
theorem advance_of_noReset {s : State} (h : resetCycleAt s = false) :
    advance s = runCycle (portOf s.nextInput) (replyOf (rowAt s) s) (effectOf (rowAt s) s) s.present := by
  have hne : rowAt s ≠ .rst := fun e => by simp [(rowAt_rst_iff s).1 e] at h
  rw [advance_eq, execState_of_ne hne]
  have hlev : levelsOf (rowAt s) s.present.port = portOf s.nextInput := by
    have hr : s.nextInput.rst = false := h
    simp only [rowAt, leadInstr, hr, Bool.false_eq_true, if_false, present_port]
    cases hb : s.nextInput.bus with
    | none =>
      cases hx : s.nextInput.rxValid with
      | true => simp [levelsOf, portOf, hb, hx]
      | false => simp [levelsOf, portOf, hb, hx]
    | some r =>
      exact decodeRequest_induct (P := fun i => levelsOf i (portOf s.nextInput) = portOf s.nextInput) r
        (by simp [rows, rowsRq, rowsPd, rowsTs, levelsOf]) (fun _ => rfl) (fun _ _ => rfl)
        (fun _ _ _ _ => rfl)
  rw [hlev]
  cases rowAt s <;> rfl

/-- The next state of a reset cycle. -/
theorem advance_of_reset {s : State} (h : resetCycleAt s = true) : advance s = resetCycle s.present := by
  rw [advance_eq, (rowAt_rst_iff s).2 h, execState_rst]

end Sys2Proof.Machine
end

