-- ==== Sys2Proof/Laws/Run.lean ====
section
/-! SUPPORT. Runs, cycle by cycle: what one more cycle does to each part of the state, and what each row may
propose. -/

namespace Sys2Proof.Machine

@[simp] theorem after_zero (s : State) : after 0 s = s := rfl

theorem after_succ (n : Nat) (s : State) : after (n + 1) s = advance (after n s) := rfl

theorem after_one (s : State) : after 1 s = advance s := rfl

/-- A run is a run followed by a run. -/
theorem after_add (m n : Nat) (s : State) : after (m + n) s = after n (after m s) := by
  induction n with
  | zero => rfl
  | succ n ih => exact congrArg advance ih

theorem after_succ' (n : Nat) (s : State) : after (n + 1) s = after n (advance s) := by
  rw [Nat.add_comm, after_add, after_one]

/-! ### One more cycle -/

theorem execState_params (i : Instr) (s : State) : (execState i s).params = s.params := by
  cases i <;> rfl

@[simp] theorem advance_params (s : State) : (advance s).params = s.params := by
  rw [advance_eq, execState_params, present_params]

@[simp] theorem after_params (n : Nat) (s : State) : (after n s).params = s.params := by
  induction n with
  | zero => rfl
  | succ n ih => rw [after_succ, advance_params, ih]

@[simp] theorem advance_inputs (s : State) : (advance s).inputs = s.inputs.tail := by
  rw [advance_eq]; cases rowAt s <;> rfl

@[simp] theorem advance_cycles (s : State) : (advance s).cycles = s.cycles + 1 := by
  rw [advance_eq]; cases rowAt s <;> rfl

theorem effectOf_present (i : Instr) (s : State) : effectOf i s.present = effectOf i s := by
  cases i <;> rfl

theorem replyOf_present (i : Instr) (s : State) : replyOf i s.present = replyOf i s := by
  cases i <;> rfl

section
variable {s : State}

theorem advance_rq (h : resetCycleAt s = false) :
    (advance s).rq = nextRq s.params s.pd (effectOf (rowAt s) s) s.rq := by
  rw [advance_of_noReset h]; rfl

theorem advance_pd (h : resetCycleAt s = false) :
    (advance s).pd = nextPd s.params s.rq (portOf s.nextInput) (effectOf (rowAt s) s) s.pd := by
  rw [advance_of_noReset h]; rfl

theorem advance_ts (h : resetCycleAt s = false) :
    (advance s).ts = nextTs s.params s.nextInput.edgeIn (effectOf (rowAt s) s) s.ts := by
  rw [advance_of_noReset h]; rfl

theorem advance_out (h : resetCycleAt s = false) :
    (advance s).out = outputsOf s (replyOf (rowAt s) s) := by
  rw [advance_of_noReset h]; rfl

theorem advance_rq_reset (h : resetCycleAt s = true) :
    (advance s).rq = RelayQueue.reset s.params s.rq.qmem := by rw [advance_of_reset h]; rfl

theorem advance_pd_reset (h : resetCycleAt s = true) : (advance s).pd = Detector.reset := by
  rw [advance_of_reset h]; rfl

theorem advance_ts_reset (h : resetCycleAt s = true) : (advance s).ts = Sequencer.reset := by
  rw [advance_of_reset h]; rfl

end

/-! ### Which row proposes what -/

section
variable {i : Instr} {s : State}

/-- Only a `Q_DATA` read that finds a byte pops. -/
theorem effectOf_popQueue : effectOf i s = .popQueue ↔ i = .rdQData ∧ canPop s.params s.rq = true := by
  cases i <;> simp [effectOf] <;> split <;> simp

/-- Only a `Q_STATUS` write with bit 2 clears the stall flag. -/
theorem effectOf_clearStall : effectOf i s = .clearStall ↔ ∃ w, i = .wrQStatus w ∧ w.getLsbD 2 = true := by
  cases i <;> simp [effectOf, wbit] <;> (split <;> simp)

/-- Only a commit row commits. -/
theorem effectOf_commit : effectOf i s = .commit ↔ isCommit i = true := by
  cases i <;> simp [effectOf, isCommit, wbit] <;> (split <;> simp)

/-- Only a `DET_PAT_WORD` write writes the shadow bytes. -/
theorem effectOf_setPatWord {k : BitVec 5} {w : Word} :
    effectOf i s = .setPatWord k w ↔ i = .wrDetPatWord k w := by
  cases i <;> simp [effectOf] <;> (split <;> simp)

/-- Only a `DET_PAT_LEN` write no more than 128 writes `LenS`. -/
theorem effectOf_setPatLen {n : Byte} :
    effectOf i s = .setPatLen n ↔ ∃ w, i = .wrDetPatLen w ∧ w.toNat ≤ patternMax ∧ n = wbyte w 0 := by
  cases i with
  | wrDetPatLen w =>
    by_cases h : w.toNat ≤ patternMax <;> simp [effectOf, h]
    exact ⟨Eq.symm, Eq.symm⟩
  | _ => simp [effectOf] <;> (split <;> simp)

/-- Only a `SEQ_CTRL` write without bit 2 writes the enables. -/
theorem effectOf_setEnables {en irqEn : Bool} : effectOf i s = .setEnables en irqEn ↔
    ∃ w, i = .wrSeqCtrl w ∧ w.getLsbD 2 = false ∧ en = w.getLsbD 0 ∧ irqEn = w.getLsbD 1 := by
  cases i with
  | wrSeqCtrl w =>
    by_cases h : w[2] = true <;> simp [effectOf, wbit, h]
    exact ⟨fun h => ⟨h.1.symm, h.2.symm⟩, fun h => ⟨h.1.symm, h.2.symm⟩⟩
  | _ => simp [effectOf] <;> (split <;> simp)

/-- Only a `SEQ_CTRL` write with bit 2 is RESET_ARM. -/
theorem effectOf_resetArm {irqEn : Bool} : effectOf i s = .resetArm irqEn ↔
    ∃ w, i = .wrSeqCtrl w ∧ w.getLsbD 2 = true ∧ irqEn = w.getLsbD 1 := by
  cases i with
  | wrSeqCtrl w =>
    by_cases h : w[2] = true <;> simp [effectOf, wbit, h]
    exact ⟨Eq.symm, Eq.symm⟩
  | _ => simp [effectOf] <;> (split <;> simp)

/-- Only a `SEQ_TXF` write pushes a parameter. -/
theorem effectOf_pushTxf {v : Word} : effectOf i s = .pushTxf v ↔ i = .wrSeqTxf v := by
  cases i <;> simp [effectOf] <;> (split <;> simp)

/-- Only a `SEQ_IRQ_CLR` write with bit 0 clears the interrupt. -/
theorem effectOf_clearIrq : effectOf i s = .clearIrq ↔ isIrqClear i = true := by
  cases i <;> simp [effectOf, isIrqClear, wbit] <;> (split <;> simp)

end

end Sys2Proof.Machine
end

