-- ==== Sys2Proof/Laws/Detector.lean ====
section
/-! SUPPORT. What the Pattern Detector's shared operations do: the step in each `dstate`, what no step touches,
and how a transaction's proposal lies over it. -/

namespace Sys2Proof.Machine

section
variable (p : Params) (q : RelayQueue) (port : Port) (eff : BusEffect) (pd : Detector)

/-- When a push happens (R139). -/
theorem pushes_iff : pushes p q pd = true ↔ pd.dstate = .push ∧ fullP p q = false := by
  simp [pushes, wantsPush]

/-- When the producer is blocked (R140). -/
theorem stalls_iff : stalls p q pd = true ↔ pd.dstate = .push ∧ fullP p q = true := by
  simp [stalls, wantsPush]

/-- When a byte matches at the cursor (R166). -/
theorem matchesCursor_iff (ch : Byte) :
    matchesCursor pd ch = true ↔ 0 < pd.lenA.toNat ∧ ch = pd.patA.read pd.curPos.toNat := by
  simp [matchesCursor]

/-- When a mismatched byte restarts the match (R168). -/
theorem rescans_iff (ch : Byte) : rescans p pd ch = true ↔
    p.matchRescan = true ∧ 0 < pd.lenA.toNat ∧ ch = pd.patA.read 0 := by
  simp [rescans, and_assoc]

theorem fullMatch_iff (ch : Byte) : fullMatch pd ch = true ↔
    0 < pd.lenA.toNat ∧ ch = pd.patA.read pd.curPos.toNat ∧ pd.curPos = pd.lenA - 1#8 := by
  simp [fullMatch, matchesCursor, atLastByte, and_assoc]

/-! ### The step, by state -/

variable {p q port pd}

theorem detectorStep_byte (hd : pd.dstate = .idle) (hx : port.rxValid = true) :
    detectorStep p q port pd = acceptByte p pd port.rxData := by simp [detectorStep, hd, hx]

theorem detectorStep_noByte (hd : pd.dstate = .idle) (hx : port.rxValid = false) :
    detectorStep p q port pd = pd := by simp [detectorStep, hd, hx]

theorem detectorStep_pulse (hd : pd.dstate = .pulse) : detectorStep p q port pd = pulseStep pd := by
  simp [detectorStep, hd]

theorem detectorStep_push (hd : pd.dstate = .push) :
    detectorStep p q port pd = pushStep (!fullP p q) pd := by
  simp [detectorStep, hd, pushes, wantsPush]

/-- Everything PD's step can do: nothing, take a byte, count the pulse down, end it, or push. -/
theorem detectorStep_cases (p : Params) (q : RelayQueue) (port : Port) (pd : Detector) :
    (detectorStep p q port pd = pd ∧
      (pd.dstate = .idle ∧ port.rxValid = false ∨ pd.dstate = .push ∧ fullP p q = true)) ∨
    (pd.dstate = .idle ∧ port.rxValid = true ∧ fullMatch pd port.rxData = true ∧
      detectorStep p q port pd = { pd with hold := port.rxData, curPos := 0#8, trig := true,
                                           pcnt := p.directPulse, dstate := .pulse }) ∨
    (pd.dstate = .idle ∧ port.rxValid = true ∧ fullMatch pd port.rxData = false ∧
      detectorStep p q port pd = { pd with hold := port.rxData, dstate := .push,
                                           curPos := cursorAfter p pd port.rxData }) ∨
    (pd.dstate = .pulse ∧ pd.pcnt = 1#16 ∧
      detectorStep p q port pd = { pd with trig := false, pcnt := 0#16, dstate := .push }) ∨
    (pd.dstate = .pulse ∧ pd.pcnt ≠ 1#16 ∧
      detectorStep p q port pd = { pd with pcnt := pd.pcnt - 1#16 }) ∨
    (pd.dstate = .push ∧ fullP p q = false ∧
      detectorStep p q port pd = { pd with rxCount := pd.rxCount + 1#32, dstate := .idle }) := by
  cases hd : pd.dstate with
  | idle =>
    cases hx : port.rxValid with
    | false => left; simp [detectorStep_noByte hd hx]
    | true =>
      cases hf : fullMatch pd port.rxData with
      | false => simp [detectorStep_byte hd hx, acceptByte, hf]
      | true =>
        have hc : cursorAfter p pd port.rxData = 0#8 := by
          simp only [fullMatch, Bool.and_eq_true] at hf
          simp [cursorAfter, hf.1, hf.2]
        simp [detectorStep_byte hd hx, acceptByte, hf, hc]
  | pulse =>
    by_cases h1 : pd.pcnt = 1#16 <;> simp [detectorStep_pulse hd, pulseStep, h1, hd]
  | push => cases hf : fullP p q <;> simp [detectorStep_push hd, pushStep, hf]

/-! ### What no step touches -/

variable (p q port pd)

@[simp] theorem detectorStep_patS : (detectorStep p q port pd).patS = pd.patS := by
  rcases detectorStep_cases p q port pd with h | h | h | h | h | h <;> simp [h]

@[simp] theorem detectorStep_lenS : (detectorStep p q port pd).lenS = pd.lenS := by
  rcases detectorStep_cases p q port pd with h | h | h | h | h | h <;> simp [h]

@[simp] theorem detectorStep_patA : (detectorStep p q port pd).patA = pd.patA := by
  rcases detectorStep_cases p q port pd with h | h | h | h | h | h <;> simp [h]

@[simp] theorem detectorStep_lenA : (detectorStep p q port pd).lenA = pd.lenA := by
  rcases detectorStep_cases p q port pd with h | h | h | h | h | h <;> simp [h]

/-! ### The transaction's proposal over the step -/

@[simp] theorem nextPd_dstate :
    (nextPd p q port eff pd).dstate = (detectorStep p q port pd).dstate := by cases eff <;> rfl

@[simp] theorem nextPd_hold :
    (nextPd p q port eff pd).hold = (detectorStep p q port pd).hold := by cases eff <;> rfl

@[simp] theorem nextPd_pcnt :
    (nextPd p q port eff pd).pcnt = (detectorStep p q port pd).pcnt := by cases eff <;> rfl

@[simp] theorem nextPd_trig :
    (nextPd p q port eff pd).trig = (detectorStep p q port pd).trig := by cases eff <;> rfl

@[simp] theorem nextPd_rxCount :
    (nextPd p q port eff pd).rxCount = (detectorStep p q port pd).rxCount := by cases eff <;> rfl

theorem nextPd_curPos : (nextPd p q port eff pd).curPos =
    if eff = .commit then 0#8 else (detectorStep p q port pd).curPos := by
  cases eff <;> simp [nextPd, applyToDetector]

theorem nextPd_patA : (nextPd p q port eff pd).patA = if eff = .commit then pd.patS else pd.patA := by
  cases eff <;> simp [nextPd, applyToDetector]

theorem nextPd_lenA : (nextPd p q port eff pd).lenA = if eff = .commit then pd.lenS else pd.lenA := by
  cases eff <;> simp [nextPd, applyToDetector]

variable {eff}

theorem nextPd_patS (h : ∀ k w, eff ≠ .setPatWord k w) : (nextPd p q port eff pd).patS = pd.patS := by
  cases eff <;> simp [nextPd, applyToDetector] at h ⊢

theorem nextPd_lenS (h : ∀ n, eff ≠ .setPatLen n) : (nextPd p q port eff pd).lenS = pd.lenS := by
  cases eff <;> simp [nextPd, applyToDetector] at h ⊢

end

end Sys2Proof.Machine
end

