-- ==== Sys2Proof/Laws/Memory.lean ====
section
/-! SUPPORT. The laws of the byte stores: read after write, what a write leaves alone, the canonical form, and
that canonical stores that read alike are equal. -/

namespace Sys2Proof.Machine

/-- Nothing is listed below the address a canonical store starts from. -/
theorem Memory.read_below {lo a : Nat} {m : Memory} (h : m.wfFrom lo = true) (ha : a < lo) :
    m.read a = blankByte := by
  induction m generalizing lo with
  | nil => rfl
  | cons c m ih =>
    obtain ⟨b, v⟩ := c
    simp only [Memory.wfFrom, Bool.and_eq_true, decide_eq_true_eq] at h
    have hb : b ≠ a := by omega
    simp only [Memory.read, hb, if_false]
    exact ih h.2 (by omega)

/-- A write leaves every other address alone. -/
theorem Memory.read_write_other {m : Memory} {a a' : Nat} {v : Byte} (h : a' ≠ a) :
    (m.write a v).read a' = m.read a' := by
  induction m with
  | nil => by_cases hv : v = blankByte <;> simp [Memory.write, Memory.read, hv, h.symm]
  | cons c m ih =>
    obtain ⟨b, w⟩ := c
    simp only [Memory.write]
    split
    · split <;> simp [Memory.read, h.symm]
    · split
      · next hab => split <;> simp [Memory.read, ← hab, h.symm]
      · simp [Memory.read, ih]

/-- A read after a write to the same address gives the value written. -/
theorem Memory.read_write_same {lo a : Nat} {m : Memory} {v : Byte} (h : m.wfFrom lo = true) :
    (m.write a v).read a = v := by
  induction m generalizing lo with
  | nil => by_cases hv : v = blankByte <;> simp [Memory.write, Memory.read, hv]
  | cons c m ih =>
    obtain ⟨b, w⟩ := c
    have hwf : Memory.wfFrom (b + 1) m = true := by
      simp only [Memory.wfFrom, Bool.and_eq_true] at h
      exact h.2
    simp only [Memory.write]
    split
    · next hab =>
      have hne : b ≠ a := by omega
      have hlow := Memory.read_below (a := a) hwf (by omega)
      split
      · next hv => simp [Memory.read, hne, hlow, hv]
      · simp [Memory.read]
    · split
      · next hab =>
        split
        · next hv => rw [hv]; exact Memory.read_below hwf (by omega)
        · simp [Memory.read]
      · next h1 h2 =>
        have hne : b ≠ a := fun e => h2 e.symm
        simp [Memory.read, hne, ih hwf]

/-- A canonical store stays so from a lower address. -/
theorem Memory.wfFrom_mono {lo lo' : Nat} {m : Memory} (h : m.wfFrom lo = true) (hl : lo' ≤ lo) :
    m.wfFrom lo' = true := by
  cases m with
  | nil => rfl
  | cons c m =>
    simp only [Memory.wfFrom, Bool.and_eq_true, decide_eq_true_eq] at h ⊢
    exact ⟨⟨by omega, h.1.2⟩, h.2⟩

/-- A write keeps the canonical form, from any address at or below the one written. -/
theorem Memory.wfFrom_write {lo a : Nat} {m : Memory} {v : Byte} (h : m.wfFrom lo = true)
    (hlo : lo ≤ a) : (m.write a v).wfFrom lo = true := by
  induction m generalizing lo with
  | nil => by_cases hv : v = blankByte <;> simp [Memory.write, Memory.wfFrom, hv, hlo]
  | cons c m ih =>
    obtain ⟨b, w⟩ := c
    simp only [Memory.wfFrom, Bool.and_eq_true, decide_eq_true_eq, bne_iff_ne, ne_eq] at h
    obtain ⟨⟨h1, h2⟩, h3⟩ := h
    simp only [Memory.write]
    split
    · next hab =>
      split
      · simp [Memory.wfFrom, h1, h2, h3]
      · next hv => simp [Memory.wfFrom, hlo, hv, h2, h3]; omega
    · split
      · next hab =>
        subst hab
        split
        · exact Memory.wfFrom_mono h3 (by omega)
        · next hv => simp [Memory.wfFrom, hlo, hv, h3]
      · next hab hne =>
        simp only [Memory.wfFrom, Bool.and_eq_true, decide_eq_true_eq, bne_iff_ne, ne_eq]
        exact ⟨⟨h1, h2⟩, ih h3 (by omega)⟩
/-- A write keeps the canonical form. -/
theorem Memory.wf_write {m : Memory} {a : Nat} {v : Byte} (h : m.wf = true) :
    (m.write a v).wf = true :=
  Memory.wfFrom_write h (Nat.zero_le a)

/-- A write below `n` keeps every address below `n`. -/
theorem Memory.below_write {m : Memory} {a n : Nat} {v : Byte} (h : m.below n = true) (ha : a < n) :
    (m.write a v).below n = true := by
  induction m with
  | nil => by_cases hv : v = blankByte <;> simp [Memory.write, Memory.below, hv, ha]
  | cons c m ih =>
    obtain ⟨b, w⟩ := c
    simp only [Memory.below, List.all_cons, Bool.and_eq_true, decide_eq_true_eq] at h ih
    simp only [Memory.write]
    split
    · split <;> simp [Memory.below, ha, h.1, h.2]
    · split
      · split <;> simp [Memory.below, ha, h.2]
      · simp [Memory.below, h.1, ih h.2]

/-- A canonical store reads as non-blank at each address it lists first. -/
theorem Memory.read_head {lo a : Nat} {v : Byte} {m : Memory} (h : Memory.wfFrom lo ((a, v) :: m) = true) :
    Memory.read ((a, v) :: m) a ≠ blankByte := by
  simp only [Memory.wfFrom, Bool.and_eq_true, bne_iff_ne, ne_eq] at h
  simpa [Memory.read] using h.1.2

/-- Canonical stores that read alike are equal. -/
theorem Memory.ext_read {lo : Nat} {m m' : Memory} (h : m.wfFrom lo = true) (h' : m'.wfFrom lo = true)
    (he : ∀ a, m.read a = m'.read a) : m = m' := by
  induction m generalizing lo m' with
  | nil =>
    cases m' with
    | nil => rfl
    | cons c m' => exact absurd (he c.1).symm (Memory.read_head h')
  | cons c m ih =>
    obtain ⟨a, v⟩ := c
    cases m' with
    | nil => exact absurd (he a) (Memory.read_head h)
    | cons c' m' =>
      obtain ⟨a', v'⟩ := c'
      have hr := Memory.read_head h
      have hr' := Memory.read_head h'
      simp only [Memory.wfFrom, Bool.and_eq_true, decide_eq_true_eq] at h h'
      have haa : a = a' := by
        rcases Nat.lt_trichotomy a a' with hlt | heq | hgt
        · refine absurd ((he a).trans ?_) hr
          simp only [Memory.read, show a' ≠ a by omega, if_false]
          exact Memory.read_below h'.2 (by omega)
        · exact heq
        · refine absurd ((he a').symm.trans ?_) hr'
          simp only [Memory.read, show a ≠ a' by omega, if_false]
          exact Memory.read_below h.2 (by omega)
      subst haa
      have hv : v = v' := by simpa [Memory.read] using he a
      subst hv
      refine congrArg _ (ih h.2 h'.2 fun b => ?_)
      by_cases hb : a = b
      · rw [← hb, Memory.read_below h.2 (by omega), Memory.read_below h'.2 (by omega)]
      · simpa [Memory.read, hb] using he b

/-- The index of a byte of pattern word `k` is below 128. -/
theorem patByteIndex_lt {k : BitVec 5} {j : Nat} (hj : j < 4) : patByteIndex k j < 128 := by
  have := k.isLt
  simp only [patByteIndex]; omega

/-- A word write keeps the canonical form. -/
theorem Memory.wf_writeWord {m : Memory} {k : BitVec 5} {w : Word} (h : m.wf = true) :
    (m.writeWord k w).wf = true :=
  Memory.wf_write (Memory.wf_write (Memory.wf_write (Memory.wf_write h)))

/-- A word write stays in the pattern store. -/
theorem Memory.below_writeWord {m : Memory} {k : BitVec 5} {w : Word} (h : m.below 128 = true) :
    (m.writeWord k w).below 128 = true := by
  simp only [Memory.writeWord]
  exact Memory.below_write (Memory.below_write (Memory.below_write (Memory.below_write h
    (patByteIndex_lt (by decide))) (patByteIndex_lt (by decide))) (patByteIndex_lt (by decide)))
    (patByteIndex_lt (by decide))

/-- A word write leaves every byte of the other words alone. -/
theorem Memory.read_writeWord_other {m : Memory} {k : BitVec 5} {w : Word} {a : Nat}
    (h : ∀ j, j < 4 → a ≠ patByteIndex k j) : (m.writeWord k w).read a = m.read a := by
  simp only [Memory.writeWord]
  rw [Memory.read_write_other (h 3 (by decide)), Memory.read_write_other (h 2 (by decide)),
    Memory.read_write_other (h 1 (by decide)), Memory.read_write_other (h 0 (by decide))]

/-- A word write puts byte `j` of the word at `4k + j`. -/
theorem Memory.read_writeWord_same {m : Memory} {k : BitVec 5} {w : Word} {j : Nat}
    (h : m.wf = true) (hj : j < 4) : (m.writeWord k w).read (patByteIndex k j) = wbyte w j := by
  have h0 := Memory.wf_write (a := patByteIndex k 0) (v := wbyte w 0) h
  have h1 := Memory.wf_write (a := patByteIndex k 1) (v := wbyte w 1) h0
  have h2 := Memory.wf_write (a := patByteIndex k 2) (v := wbyte w 2) h1
  have hne : ∀ i, i ≠ j → patByteIndex k j ≠ patByteIndex k i := fun i hi => by
    simp only [patByteIndex]; omega
  simp only [Memory.writeWord]
  match j, hj with
  | 3, _ => exact Memory.read_write_same h2
  | 2, _ => rw [Memory.read_write_other (hne 3 (by decide))]; exact Memory.read_write_same h1
  | 1, _ =>
    rw [Memory.read_write_other (hne 3 (by decide)), Memory.read_write_other (hne 2 (by decide))]
    exact Memory.read_write_same h0
  | 0, _ =>
    rw [Memory.read_write_other (hne 3 (by decide)), Memory.read_write_other (hne 2 (by decide)),
      Memory.read_write_other (hne 1 (by decide))]
    exact Memory.read_write_same h

end Sys2Proof.Machine
end

