-- ==== Sys2Proof/Laws/PerInstr.lean ====
section
/-! SUPPORT. Facts about every instruction as syntax, one lemma per constructor. -/

namespace Sys2Proof.Laws.EncodedFrame

open Sys2Proof Sys2Proof.Machine

/-- The encoded frame of an instruction leaves the bits between its fields 0, and for a bus row it is the frame of
the very request that the fetch places. -/
def Statement (i : Instr) : Prop :=
  (encode i).extractLsb' 13 3 = 0#3 ∧ (encode i).extractLsb' 52 12 = 0#12 ∧
    ∀ r, requestOf i = some r → encode i = frame .bus r.size r.wdata r.key

/-- The bits between the key and the write data are 0. -/
theorem frame_gap (tag : FrameTag) (size : BitVec 2) (wdata : Word) (low : BitVec 13) :
    (frame tag size wdata low).extractLsb' 13 3 = 0#3 := by
  apply BitVec.eq_of_getLsbD_eq
  intro i hi
  have h : ¬ 13 + i < 13 := by omega
  simp only [BitVec.getLsbD_extractLsb', frame, BitVec.getLsbD_append, h, if_false]
  simp [hi]

/-- The bits above the size are 0. -/
theorem frame_top (tag : FrameTag) (size : BitVec 2) (wdata : Word) (low : BitVec 13) :
    (frame tag size wdata low).extractLsb' 52 12 = 0#12 := by
  apply BitVec.eq_of_getLsbD_eq
  intro i hi
  have h1 : ¬ 52 + i < 13 := by omega
  have h2 : ¬ 52 + i - 13 < 3 := by omega
  have h3 : ¬ 52 + i - 13 - 3 < 32 := by omega
  have h4 : ¬ 52 + i - 13 - 3 - 32 < 2 := by omega
  have h5 : ¬ 52 + i - 13 - 3 - 32 - 2 < 2 := by omega
  simp only [BitVec.getLsbD_extractLsb', frame, BitVec.getLsbD_append, h1, h2, h3, h4, h5, if_false]
  simp

/-- A bus row: its frame is its request's. -/
theorem ofRequest {i : Instr} {r : Request} (hr : requestOf i = some r)
    (he : encode i = frame .bus r.size r.wdata r.key) : Statement i :=
  ⟨he ▸ frame_gap .bus r.size r.wdata r.key, he ▸ frame_top .bus r.size r.wdata r.key,
    fun r' h => by rw [hr, Option.some.injEq] at h; rw [← h, he]⟩

/-- A port row: a frame without a request. -/
theorem ofPort {i : Instr} {tag : FrameTag} {size : BitVec 2} {wdata : Word} {low : BitVec 13}
    (hr : requestOf i = none) (he : encode i = frame tag size wdata low) : Statement i :=
  ⟨he ▸ frame_gap tag size wdata low, he ▸ frame_top tag size wdata low,
    fun r' h => by rw [hr] at h; cases h⟩

theorem rdQData : Statement .rdQData := ofRequest rfl rfl
theorem rdQLevel : Statement .rdQLevel := ofRequest rfl rfl
theorem rdQCapacity : Statement .rdQCapacity := ofRequest rfl rfl
theorem rdQStatus : Statement .rdQStatus := ofRequest rfl rfl
theorem wrQStatus (wdata : Word) : Statement (.wrQStatus wdata) := ofRequest rfl rfl
theorem rdDetPatLen : Statement .rdDetPatLen := ofRequest rfl rfl
theorem wrDetPatLen (wdata : Word) : Statement (.wrDetPatLen wdata) := ofRequest rfl rfl
theorem wrDetCommit (wdata : Word) : Statement (.wrDetCommit wdata) := ofRequest rfl rfl
theorem rdDetStatus : Statement .rdDetStatus := ofRequest rfl rfl
theorem rdDetRxcount : Statement .rdDetRxcount := ofRequest rfl rfl
theorem rdDetPatWord (k : BitVec 5) : Statement (.rdDetPatWord k) := ofRequest rfl rfl
theorem wrDetPatWord (k : BitVec 5) (wdata : Word) : Statement (.wrDetPatWord k wdata) := ofRequest rfl rfl
theorem rdSeqCtrl : Statement .rdSeqCtrl := ofRequest rfl rfl
theorem wrSeqCtrl (wdata : Word) : Statement (.wrSeqCtrl wdata) := ofRequest rfl rfl
theorem wrSeqTxf (wdata : Word) : Statement (.wrSeqTxf wdata) := ofRequest rfl rfl
theorem rdSeqStatus : Statement .rdSeqStatus := ofRequest rfl rfl
theorem wrSeqIrqClr (wdata : Word) : Statement (.wrSeqIrqClr wdata) := ofRequest rfl rfl
theorem rdSeqDelay : Statement .rdSeqDelay := ofRequest rfl rfl
theorem rdSeqWidth : Statement .rdSeqWidth := ofRequest rfl rfl
theorem rdSeqCount : Statement .rdSeqCount := ofRequest rfl rfl
theorem rdReserved (off : BitVec 12) : Statement (.rdReserved off) := ofRequest rfl rfl
theorem wrReserved (off : BitVec 12) (wdata : Word) : Statement (.wrReserved off wdata) := ofRequest rfl rfl
theorem busError (we : Bool) (off : BitVec 12) (size : BitVec 2) (wdata : Word) : Statement (.busError we off size wdata) := ofRequest rfl rfl
theorem rxByte (data : Byte) : Statement (.rxByte data) := ofPort rfl rfl
theorem edgeSample (level : Bool) : Statement (.edgeSample level) := ofPort rfl rfl
theorem rst : Statement .rst := ofPort rfl rfl

end Sys2Proof.Laws.EncodedFrame
end

