-- ==== Sys2Proof/Laws/Pointers.lean ====
section
/-! SUPPORT. Gray codes and pointer arithmetic modulo `2^(A+1)` (00_scope.md R11, 41_relay_queue.md R136). -/

namespace Sys2Proof.Machine

theorem queueSize_pos (p : Params) : 0 < queueSize p := Nat.two_pow_pos _

theorem ptrModulus_pos (p : Params) : 0 < ptrModulus p := Nat.two_pow_pos _

theorem ptrModulus_eq (p : Params) : ptrModulus p = 2 * queueSize p := by
  simp only [ptrModulus, queueSize, Nat.pow_succ]; omega

theorem queueSize_lt (p : Params) : queueSize p < ptrModulus p := by
  have := ptrModulus_eq p; have := queueSize_pos p; omega

theorem gray_shift (b : Nat) : gray b >>> 1 = gray (b >>> 1) := by
  simp [gray, Nat.shiftRight_xor_distrib]

/-- `bin` inverts `gray` on pointers of `n` bits (R11). -/
theorem ungray_gray {n b : Nat} (h : b < 2 ^ n) : ungray n (gray b) = b := by
  induction n generalizing b with
  | zero => simp at h; subst h; rfl
  | succ n ih =>
    have hb : b >>> 1 < 2 ^ n := by
      rw [Nat.shiftRight_eq_div_pow]; rw [Nat.pow_succ] at h; omega
    simp only [ungray, gray_shift, ih hb]
    simp [gray]

theorem gray_zero : gray 0 = 0 := rfl

theorem ungray_zero (n : Nat) : ungray n 0 = 0 := by
  simpa [gray_zero] using ungray_gray (n := n) (b := 0) (Nat.two_pow_pos n)

/-- Two pointers with one gray code are equal. -/
theorem gray_inj {n a b : Nat} (ha : a < 2 ^ n) (hb : b < 2 ^ n) (h : gray a = gray b) : a = b := by
  rw [← ungray_gray ha, h, ungray_gray hb]

/-- The difference of two counts no further apart than the modulus, read off their residues. -/
theorem ptrSub_counts (p : Params) {x y : Nat} (h : y ≤ x) (hx : x < y + ptrModulus p) :
    ptrSub p (x % ptrModulus p) (y % ptrModulus p) = x - y := by
  have hpos := ptrModulus_pos p
  simp only [ptrSub, Nat.mod_mod]
  have hy := Nat.mod_lt y hpos
  obtain ⟨d, rfl⟩ := Nat.exists_eq_add_of_le h
  have hd : d < ptrModulus p := by omega
  rw [Nat.add_sub_cancel_left, Nat.mod_add_mod]
  have : y + d + (ptrModulus p - y % ptrModulus p) = d + ptrModulus p * (y / ptrModulus p + 1) := by
    have := Nat.div_add_mod y (ptrModulus p)
    rw [Nat.mul_add, Nat.mul_one]; omega
  rw [this, Nat.add_mul_mod_self_left, Nat.mod_eq_of_lt hd]

/-- Stepping a pointer steps its count. -/
theorem ptrSucc_count (p : Params) (n : Nat) :
    ptrSucc p (n % ptrModulus p) = (n + 1) % ptrModulus p := by
  simp [ptrSucc]

/-- The slot of a pointer is its count modulo the queue's size. -/
theorem slotOf_count (p : Params) (n : Nat) : slotOf p (n % ptrModulus p) = n % queueSize p := by
  simp only [slotOf, ptrModulus_eq]
  exact Nat.mod_mod_of_dvd n (Nat.dvd_mul_left _ _)

end Sys2Proof.Machine
end

