-- ==== Sys2Proof/Laws/Queue.lean ====
section
/-! SUPPORT. What the queue's shared operations do to the counts of pushes and pops that 10_state.md R26 speaks
of: the views, the shift of a synchronizer, one cycle. -/

namespace Sys2Proof.Machine

section
variable {p : Params} {q : RelayQueue} {W R : Nat} {ws rs : List Nat}

/-- The last stage is one of the stages. -/
theorem lastStage_mem {l : List Nat} (hS : 1 ≤ p.syncStages) (hl : l.length = p.syncStages) :
    l.getD (p.syncStages - 1) 0 ∈ l := by
  have h : p.syncStages - 1 < l.length := by omega
  rw [List.getD_eq_getElem?_getD, List.getElem?_eq_getElem h]
  exact List.getElem_mem h

/-- A stage that carries the gray code of a count is seen as that count. -/
theorem ungray_lastStage {l : List Nat} (hS : 1 ≤ p.syncStages) (hl : l.length = p.syncStages) :
    ungray (p.a + 1) (lastStage p (l.map fun n => gray (n % ptrModulus p))) =
      l.getD (p.syncStages - 1) 0 % ptrModulus p := by
  have h : p.syncStages - 1 < l.length := by omega
  simp only [lastStage, List.getD_eq_getElem?_getD, List.getElem?_map, List.getElem?_eq_getElem h,
    Option.map_some, Option.getD_some]
  exact ungray_gray (Nat.mod_lt _ (ptrModulus_pos p))

/-- The bounds of R26: `Rs ≤ R ≤ Ws ≤ W ≤ Rs + Q`. -/
theorem QueueCounts.bounds (hS : 1 ≤ p.syncStages) (h : QueueCounts p q W R ws rs) :
    rs.getD (p.syncStages - 1) 0 ≤ R ∧ R ≤ ws.getD (p.syncStages - 1) 0 ∧
      ws.getD (p.syncStages - 1) 0 ≤ W ∧ W ≤ rs.getD (p.syncStages - 1) 0 + queueSize p :=
  have hw := lastStage_mem hS h.wlen
  have hr := lastStage_mem hS h.rlen
  ⟨(List.pairwise_cons.1 h.rfall).1 _ hr, h.behind _ hw, (List.pairwise_cons.1 h.wfall).1 _ hw,
    h.room _ hr⟩

/-- The consumer's view of `wptr` is the count `S` cycles old. -/
theorem QueueCounts.viewW_eq (hS : 1 ≤ p.syncStages) (h : QueueCounts p q W R ws rs) :
    Sys2Proof.Machine.viewW p q = ws.getD (p.syncStages - 1) 0 % ptrModulus p := by
  rw [Sys2Proof.Machine.viewW, h.wsync]; exact ungray_lastStage hS h.wlen

/-- The producer's view of `rptr` is the count `S` cycles old. -/
theorem QueueCounts.viewR_eq (hS : 1 ≤ p.syncStages) (h : QueueCounts p q W R ws rs) :
    Sys2Proof.Machine.viewR p q = rs.getD (p.syncStages - 1) 0 % ptrModulus p := by
  rw [Sys2Proof.Machine.viewR, h.rsync]; exact ungray_lastStage hS h.rlen

/-- `level_c` counts the bytes between the old write count and the read count. -/
theorem QueueCounts.levelC_eq (hS : 1 ≤ p.syncStages) (h : QueueCounts p q W R ws rs) :
    Sys2Proof.Machine.levelC p q = ws.getD (p.syncStages - 1) 0 - R := by
  obtain ⟨h1, h2, h3, h4⟩ := h.bounds hS
  have := queueSize_lt p
  rw [Sys2Proof.Machine.levelC, h.viewW_eq hS, h.rptr]
  exact ptrSub_counts p h2 (by omega)

/-- `level_p` counts the bytes between the write count and the old read count. -/
theorem QueueCounts.levelP_eq (hS : 1 ≤ p.syncStages) (h : QueueCounts p q W R ws rs) :
    Sys2Proof.Machine.levelP p q = W - rs.getD (p.syncStages - 1) 0 := by
  obtain ⟨h1, h2, h3, h4⟩ := h.bounds hS
  have := queueSize_lt p
  rw [Sys2Proof.Machine.levelP, h.viewR_eq hS, h.wptr]
  exact ptrSub_counts p (by omega) (by omega)

theorem syncShift_map {l : List Nat} {n : Nat} :
    syncShift p (gray (n % ptrModulus p)) (l.map fun n => gray (n % ptrModulus p)) =
      ((n :: l).take p.syncStages).map fun n => gray (n % ptrModulus p) := by
  simp [syncShift, List.map_take]

/-- A falling list of counts stays one when a newer count goes in at the front. -/
theorem falling_take {l : List Nat} {n n' k : Nat} (h : List.Pairwise (· ≥ ·) (n :: l)) (hn : n ≤ n') :
    List.Pairwise (· ≥ ·) (n' :: (n :: l).take k) := by
  refine List.pairwise_cons.2 ⟨fun m hm => ?_, h.sublist (List.take_sublist k _)⟩
  rcases List.mem_cons.1 (List.mem_of_mem_take hm) with rfl | hm
  · exact hn
  · exact le_trans ((List.pairwise_cons.1 h).1 m hm) hn

/-- One cycle moves the counts: a push adds 1 to `W`, a pop 1 to `R`, and every stage takes the count of the
stage before it. -/
theorem QueueCounts.next {pd : Detector} {eff : BusEffect} (hS : 1 ≤ p.syncStages)
    (h : QueueCounts p q W R ws rs) (heff : eff = .popQueue → canPop p q = true) :
    QueueCounts p (nextRq p pd eff q) (W + (pushes p q pd).toNat)
      (R + (decide (eff = .popQueue)).toNat) ((W :: ws).take p.syncStages)
      ((R :: rs).take p.syncStages) := by
  obtain ⟨h1, h2, h3, h4⟩ := h.bounds hS
  have hpush : pushes p q pd = true → W < rs.getD (p.syncStages - 1) 0 + queueSize p := by
    intro hp
    have hf : levelP p q ≠ queueSize p := by
      simp only [pushes, fullP, Bool.and_eq_true, Bool.not_eq_true', beq_eq_false_iff_ne] at hp
      exact hp.2
    rw [h.levelP_eq hS] at hf; omega
  have hpop : eff = .popQueue → R < ws.getD (p.syncStages - 1) 0 := by
    intro he
    have hc := heff he
    simp only [canPop, decide_eq_true_eq] at hc
    rw [h.levelC_eq hS] at hc; omega
  have hlast : ∀ {n k : Nat} {l : List Nat}, l.length = p.syncStages →
      List.Pairwise (· ≥ ·) (n :: l) → k ∈ (n :: l).take p.syncStages →
      l.getD (p.syncStages - 1) 0 ≤ k := by
    intro n k l hl hf hk
    have hm := lastStage_mem (p := p) hS hl
    rcases List.mem_cons.1 (List.mem_of_mem_take hk) with rfl | hk'
    · exact (List.pairwise_cons.1 hf).1 _ hm
    · obtain ⟨i, hi, rfl⟩ := List.mem_iff_getElem.1 hk'
      have hi' : p.syncStages - 1 < l.length := by omega
      rw [List.getD_eq_getElem?_getD, List.getElem?_eq_getElem hi', Option.getD_some]
      rcases Nat.lt_or_ge i (p.syncStages - 1) with hlt | hge
      · exact List.pairwise_iff_getElem.1 (List.pairwise_cons.1 hf).2 _ _ _ _ hlt
      · have : i = p.syncStages - 1 := by omega
        subst this; exact Nat.le_refl _
  have hw1 : ∀ n ∈ (W :: ws).take p.syncStages, ws.getD (p.syncStages - 1) 0 ≤ n :=
    fun n hn => hlast h.wlen h.wfall hn
  have hr1 : ∀ n ∈ (R :: rs).take p.syncStages, rs.getD (p.syncStages - 1) 0 ≤ n :=
    fun n hn => hlast h.rlen h.rfall hn
  have hr : (nextRq p pd eff q).rptr = (R + (decide (eff = .popQueue)).toNat) % ptrModulus p := by
    by_cases he : eff = .popQueue <;> simp [he, h.rptr, ptrSucc_count]
  have hw : (nextRq p pd eff q).wptr = (W + (pushes p q pd).toNat) % ptrModulus p := by
    cases hp : pushes p q pd <;> simp [hp, h.wptr, ptrSucc_count]
  constructor
  · exact hw
  · cases hp : pushes p q pd <;> simp [hp, h.wgray]
  · exact hr
  · by_cases he : eff = .popQueue <;> simp [he, h.rgray]
  · simp only [nextRq_wsync, h.wgray, h.wptr, h.wsync, syncShift_map]
  · simp only [nextRq_rsync, h.rgray, h.rptr, h.rsync, syncShift_map]
  · simp [h.wlen]
  · simp [h.rlen]
  · exact falling_take h.wfall (by omega)
  · exact falling_take h.rfall (by omega)
  · intro n hn
    have := hw1 n hn
    by_cases he : eff = .popQueue
    · have := hpop he; simp [he]; omega
    · simp [he]; omega
  · intro n hn
    have := hr1 n hn
    cases hp : pushes p q pd
    · simp; omega
    · have := hpush hp; simp; omega

end

end Sys2Proof.Machine
end

