-- ==== Sys2Proof/Laws/Sequencer.lean ====
section
/-! SUPPORT. What the Timing Sequencer's shared operations do: the step in each `sstate`, what no step touches,
and how a transaction's proposal lies over it. -/

namespace Sys2Proof.Machine

section
variable {p : Params} {edge : Bool} {ts : Sequencer}

/-- An edge, in the words of R199. -/
theorem edgeSeen_iff (p : Params) (ts : Sequencer) (e : Bool) : edgeSeen p ts e = true ↔
    ts.prevValid = true ∧
      ((p.edgePolarity = .rising ∧ ts.prev = false ∧ e = true) ∨
        (p.edgePolarity = .falling ∧ ts.prev = true ∧ e = false)) := by
  cases h : p.edgePolarity <;> simp [edgeSeen, h]

/-- `enter_pulse()` (R202): straight to `FIRED` with width 0, else to `PULSE`. -/
theorem enterPulse_zero (h : ts.wid = 0#32) :
    enterPulse ts = { ts with sstate := .fired, cnt := 0#32, out := false, irqPend := true } := by
  simp [enterPulse, h]

theorem enterPulse_pos (h : ts.wid ≠ 0#32) :
    enterPulse ts = { ts with sstate := .pulse, cnt := ts.wid, out := true } := by
  simp [enterPulse, h]

/-- Everything the step can do with `en = 1`: wait, take a parameter, start the delay, count down, start the
pulse (or complete at once), or complete. -/
theorem sequencerStep_cases (edge : Bool) (ts : Sequencer) :
    (sequencerStep edge ts = ts ∧
      ((ts.sstate = .idle ∨ ts.sstate = .loadWidth) ∧ ts.txf = [] ∨
        ts.sstate = .waitEdge ∧ edge = false ∨ ts.sstate = .fired)) ∨
    (∃ v rest, ts.sstate = .idle ∧ ts.txf = v :: rest ∧
      sequencerStep edge ts = { ts with dly := v, txf := rest, sstate := .loadWidth }) ∨
    (∃ v rest, ts.sstate = .loadWidth ∧ ts.txf = v :: rest ∧
      sequencerStep edge ts = { ts with wid := v, txf := rest, sstate := .waitEdge }) ∨
    (ts.sstate = .waitEdge ∧ edge = true ∧ ts.dly ≠ 0#32 ∧
      sequencerStep edge ts = { ts with sstate := .delay, cnt := ts.dly }) ∨
    ((ts.sstate = .waitEdge ∧ edge = true ∧ ts.dly = 0#32 ∨ ts.sstate = .delay ∧ ts.cnt = 1#32) ∧
      sequencerStep edge ts = enterPulse ts) ∨
    ((ts.sstate = .delay ∨ ts.sstate = .pulse) ∧ ts.cnt ≠ 1#32 ∧
      sequencerStep edge ts = { ts with cnt := ts.cnt - 1#32 }) ∨
    (ts.sstate = .pulse ∧ ts.cnt = 1#32 ∧
      sequencerStep edge ts =
        { ts with out := false, cnt := 0#32, sstate := .fired, irqPend := true }) := by
  cases hs : ts.sstate with
  | idle => cases ht : ts.txf <;> simp [sequencerStep, hs, ht]
  | loadWidth => cases ht : ts.txf <;> simp [sequencerStep, hs, ht]
  | waitEdge =>
    cases edge
    · simp [sequencerStep, hs]
    · by_cases hd : ts.dly = 0#32 <;> simp [sequencerStep, hs, hd]
  | delay => by_cases hc : ts.cnt = 1#32 <;> simp [sequencerStep, hs, hc]
  | pulse => by_cases hc : ts.cnt = 1#32 <;> simp [sequencerStep, hs, hc]
  | fired => simp [sequencerStep, hs]

/-! ### What no step touches -/

@[simp] theorem enterPulse_en : (enterPulse ts).en = ts.en := by
  unfold enterPulse; split <;> rfl

@[simp] theorem enterPulse_irqEn : (enterPulse ts).irqEn = ts.irqEn := by
  unfold enterPulse; split <;> rfl

@[simp] theorem enterPulse_txf : (enterPulse ts).txf = ts.txf := by
  unfold enterPulse; split <;> rfl

@[simp] theorem enterPulse_txfOvf : (enterPulse ts).txfOvf = ts.txfOvf := by
  unfold enterPulse; split <;> rfl

@[simp] theorem gatedStep_en : (gatedStep edge ts).en = ts.en := by
  unfold gatedStep
  split
  · rcases sequencerStep_cases edge ts with ⟨h, -⟩ | ⟨_, _, -, -, h⟩ | ⟨_, _, -, -, h⟩ | ⟨-, -, -, h⟩ |
      ⟨-, h⟩ | ⟨-, -, h⟩ | ⟨-, -, h⟩ <;> simp [h]
  · rfl

@[simp] theorem gatedStep_irqEn : (gatedStep edge ts).irqEn = ts.irqEn := by
  unfold gatedStep
  split
  · rcases sequencerStep_cases edge ts with ⟨h, -⟩ | ⟨_, _, -, -, h⟩ | ⟨_, _, -, -, h⟩ | ⟨-, -, -, h⟩ |
      ⟨-, h⟩ | ⟨-, -, h⟩ | ⟨-, -, h⟩ <;> simp [h]
  · rfl

@[simp] theorem gatedStep_txfOvf : (gatedStep edge ts).txfOvf = ts.txfOvf := by
  unfold gatedStep
  split
  · rcases sequencerStep_cases edge ts with ⟨h, -⟩ | ⟨_, _, -, -, h⟩ | ⟨_, _, -, -, h⟩ | ⟨-, -, -, h⟩ |
      ⟨-, h⟩ | ⟨-, -, h⟩ | ⟨-, -, h⟩ <;> simp [h]
  · rfl

theorem gatedStep_disabled (h : ts.en = false) : gatedStep edge ts = ts := by simp [gatedStep, h]

theorem gatedStep_enabled (h : ts.en = true) : gatedStep edge ts = sequencerStep edge ts := by
  simp [gatedStep, h]

/-- The step only takes parameters from the head. -/
theorem gatedStep_txf : (gatedStep edge ts).txf = ts.txf ∨ ∃ v, ts.txf = v :: (gatedStep edge ts).txf := by
  unfold gatedStep
  split
  · rcases sequencerStep_cases edge ts with ⟨h, -⟩ | ⟨v, _, _, ht, h⟩ | ⟨v, _, _, ht, h⟩ | ⟨-, -, -, h⟩ |
      ⟨-, h⟩ | ⟨-, -, h⟩ | ⟨-, -, h⟩
    · simp [h]
    · right; exact ⟨v, by simp [h, ht]⟩
    · right; exact ⟨v, by simp [h, ht]⟩
    all_goals simp [h]
  · exact .inl rfl

/-! ### The transaction's proposal over the step -/

/-- A transaction of another block leaves TS to its step. -/
theorem nextTs_none (p : Params) (e : Bool) (ts : Sequencer) :
    nextTs p e .none ts = sampleEdge e (gatedStep (edgeSeen p ts e) ts) := rfl

theorem nextTs_setEnables (p : Params) (e : Bool) (ts : Sequencer) (en irqEn : Bool) :
    nextTs p e (.setEnables en irqEn) ts =
      sampleEdge e { gatedStep (edgeSeen p ts e) ts with en := en, irqEn := irqEn } := rfl

theorem nextTs_resetArm (p : Params) (e : Bool) (ts : Sequencer) (irqEn : Bool) :
    nextTs p e (.resetArm irqEn) ts = sampleEdge e (resetArm irqEn ts) := rfl

theorem nextTs_pushTxf (p : Params) (e : Bool) (ts : Sequencer) (v : Word) :
    nextTs p e (.pushTxf v) ts = sampleEdge e (pushTxf p v ts (gatedStep (edgeSeen p ts e) ts)) := rfl

theorem nextTs_clearIrq (p : Params) (e : Bool) (ts : Sequencer) :
    nextTs p e .clearIrq ts = sampleEdge e (clearIrq ts (gatedStep (edgeSeen p ts e) ts)) := rfl

/-- What becomes of the TS fields that neither the enables nor RESET_ARM concern, in a cycle that carries
neither of them. -/
theorem nextTs_other {eff : BusEffect} {e : Bool} (h1 : ∀ a b, eff ≠ .setEnables a b) (h2 : ∀ b, eff ≠ .resetArm b) :
    (nextTs p e eff ts).en = ts.en ∧ (nextTs p e eff ts).irqEn = ts.irqEn ∧
    (nextTs p e eff ts).dly = (gatedStep (edgeSeen p ts e) ts).dly ∧
    (nextTs p e eff ts).wid = (gatedStep (edgeSeen p ts e) ts).wid ∧
    (nextTs p e eff ts).cnt = (gatedStep (edgeSeen p ts e) ts).cnt ∧
    (nextTs p e eff ts).out = (gatedStep (edgeSeen p ts e) ts).out := by
  cases eff with
  | setEnables a b => exact absurd rfl (h1 a b)
  | resetArm b => exact absurd rfl (h2 b)
  | clearIrq =>
    rw [nextTs_clearIrq, clearIrq]; split <;> simp
  | pushTxf v =>
    rw [nextTs_pushTxf, pushTxf]; split <;> simp
  | _ => simp [nextTs, applyToSequencer]

end

/-! ### One cycle of a run -/

section
variable {s : State}

/-- `FIRED` stands still under the step. -/
theorem gatedStep_fired {edge : Bool} {ts : Sequencer} (h : ts.sstate = .fired) : gatedStep edge ts = ts := by
  unfold gatedStep; split <;> simp [sequencerStep, h]

/-- RESET_ARM leaves `IDLE` with nothing pending. -/
theorem advance_ts_resetArm (hr : resetCycleAt s = false) (ha : isResetArm (rowAt s) = true) :
    (advance s).ts.sstate = .idle ∧ (advance s).ts.irqPend = false := by
  rw [advance_ts hr]
  cases hrow : rowAt s <;> rw [hrow] at ha <;> simp only [isResetArm, Bool.false_eq_true] at ha
  rename_i w
  rw [show effectOf (.wrSeqCtrl w) s = .resetArm (w.getLsbD 1) from effectOf_resetArm.2 ⟨w, rfl, ha, rfl⟩,
    nextTs_resetArm]
  exact ⟨rfl, rfl⟩

/-- What every other transaction leaves to the step in one cycle: the loaded values, the count and the output
always, `sstate` outside `FIRED`; in `FIRED` TS stays or a clear takes it to `IDLE`; nothing but the step raises
`irq_pend`, and a completion is never lost; without a disable `en` stays 1. -/
theorem advance_ts_noArm (hr : resetCycleAt s = false) (ha : isResetArm (rowAt s) = false) :
    let g := gatedStep (edgeAt s) s.ts
    (advance s).ts.dly = g.dly ∧ (advance s).ts.wid = g.wid ∧ (advance s).ts.cnt = g.cnt ∧
    (advance s).ts.out = g.out ∧
    (s.ts.sstate ≠ .fired → (advance s).ts.sstate = g.sstate) ∧
    (s.ts.sstate = .fired → (advance s).ts.sstate = .fired ∨ (advance s).ts.sstate = .idle) ∧
    ((advance s).ts.irqPend = true → g.irqPend = true) ∧
    (s.ts.sstate ≠ .fired → g.sstate = .fired → (advance s).ts.irqPend = g.irqPend) ∧
    (isDisable (rowAt s) = false → s.ts.en = true → (advance s).ts.en = true) := by
  rw [advance_ts hr]
  have hg : edgeSeen s.params s.ts s.nextInput.edgeIn = edgeAt s := rfl
  generalize heff : effectOf (rowAt s) s = eff
  cases eff with
  | resetArm b =>
    obtain ⟨w, h1, h2, -⟩ := effectOf_resetArm.1 heff
    simp only [h1, isResetArm, h2, Bool.true_eq_false] at ha
  | setEnables a b =>
    obtain ⟨w, h1, h2, h3, -⟩ := effectOf_setEnables.1 heff
    simp only [nextTs_setEnables, hg]
    refine ⟨rfl, rfl, rfl, rfl, fun _ => rfl, fun h => .inl (by simp [gatedStep_fired h, h]), fun h => h,
      fun _ _ => rfl, fun h _ => ?_⟩
    simp only [h1, isDisable, h2] at h
    simpa [h3] using h
  | clearIrq =>
    simp only [nextTs_clearIrq, hg, clearIrq]
    split
    · rename_i he
      simp only [entersFired, Bool.and_eq_true, decide_eq_true_eq] at he
      exact ⟨rfl, rfl, rfl, rfl, fun _ => rfl, fun h => absurd h he.1, fun h => h, fun _ _ => rfl,
        fun _ h => by simp [h]⟩
    · rename_i he
      simp only [entersFired, Bool.and_eq_true, decide_eq_true_eq, not_and] at he
      exact ⟨rfl, rfl, rfl, rfl, fun h => by simp [h], fun h => .inr (by simp [h]), fun h => by simp at h,
        fun h1 h2 => absurd h2 (he h1), fun _ h => by simp [h]⟩
  | pushTxf v =>
    simp only [nextTs_pushTxf, hg, pushTxf]
    split <;> exact ⟨rfl, rfl, rfl, rfl, fun _ => rfl, fun h => .inl (by simp [gatedStep_fired h, h]),
      fun h => h, fun _ _ => rfl, fun _ h => by simp [h]⟩
  | _ =>
    exact ⟨rfl, rfl, rfl, rfl, fun _ => rfl,
      fun h => .inl (by simp [nextTs, applyToSequencer, hg, gatedStep_fired h, h]), fun h => h,
      fun _ _ => rfl, fun _ h => by simp [nextTs, applyToSequencer, h]⟩

end

end Sys2Proof.Machine
end

