-- ==== Sys2Proof/Tests/Slice0.lean ====
section
/-! SUPPORT. The model's own tests: ill-formed terms refused, words of the spec decoded, vectors of
spec/95_test_vectors.md run for one step, and for every statement with hypotheses a state that meets them. -/

namespace Sys2Proof.Tests

open Sys2Proof Sys2Proof.Machine

/-! ### The small machine of spec/95_test_vectors.md section 0 -/

/-- Parameters with `S = 2`, `TXF_DEPTH = 4`, rising edges. -/
def small (a : Nat) (dpc : BitVec 16) (rescan : Bool) : Params :=
  ⟨a, rescan, 2, dpc, 1, 4, .rising, 0, 0, 0#32⟩

/-- The machine after reset with `A = 4`, `DIRECT_PULSE_CYCLES = 3`. -/
def base : State := State.resetWith (small 4 3 false)

/-- The machine after reset with `A = 2`. -/
def base2 : State := State.resetWith (small 2 3 false)

/-- The next state, `s` itself where there is none. -/
def nextOf (i : Instr) (s : State) : State :=
  match exec i s with
  | .next t => t
  | .fault _ => s
  | .refused _ => s

/-- The instruction answers a next state with this response. -/
def answers (i : Instr) (s : State) (resp : Resp) (rdata : Word) : Bool :=
  match exec i s with
  | .next t => t.out.reply == some ⟨resp, rdata⟩
  | .fault _ => false
  | .refused _ => false

/-- A cycle with no input. -/
def quiet : CycleIn := idleInput false

/-! ### WellFormed refuses -/

theorem test_wf_reserved_read_misaligned : Instr.wf (.rdReserved 0x011#12) = false := by decide
theorem test_wf_reserved_read_own_row : Instr.wf (.rdReserved 0x098#12) = false := by decide
theorem test_wf_reserved_read_pattern : Instr.wf (.rdReserved 0x17C#12) = false := by decide
theorem test_wf_reserved_write_misaligned : Instr.wf (.wrReserved 0x006#12 0#32) = false := by decide
theorem test_wf_reserved_write_own_row : Instr.wf (.wrReserved 0x044#12 0#32) = false := by decide
theorem test_wf_reserved_write_pattern : Instr.wf (.wrReserved 0x100#12 0#32) = false := by decide
theorem test_wf_bus_error_legal : Instr.wf (.busError false 0x000#12 2#2 0#32) = false := by decide

/-! ### Words written out from R89, R94, R95, R97: `off` in bits 11:0, `we` in bit 12; the model's frame puts
`wdata` from bit 16 and the port tags from bit 48 -/

theorem test_decode_rdQData : decodeTableWord 16 0b0_0000_0000_0000 = some .rdQData := by decide
theorem test_decode_rdQLevel : decodeTableWord 16 0b0_0000_0000_0100 = some .rdQLevel := by decide
theorem test_decode_rdQCapacity : decodeTableWord 16 0b0_0000_0000_1000 = some .rdQCapacity := by decide
theorem test_decode_rdQStatus : decodeTableWord 16 0b0_0000_0000_1100 = some .rdQStatus := by decide
theorem test_decode_wrQStatus :
    decodeTableWord 48 0x0000_0004_100C = some (.wrQStatus 4#32) := by decide
theorem test_decode_rdDetPatLen : decodeTableWord 16 0b0_0000_0100_0000 = some .rdDetPatLen := by decide
theorem test_decode_wrDetPatLen :
    decodeTableWord 48 0x0000_0080_1040 = some (.wrDetPatLen 128#32) := by decide
theorem test_decode_wrDetCommit :
    decodeTableWord 48 0x0000_0001_1044 = some (.wrDetCommit 1#32) := by decide
theorem test_decode_rdDetStatus : decodeTableWord 16 0b0_0000_0100_1000 = some .rdDetStatus := by decide
theorem test_decode_rdDetRxcount :
    decodeTableWord 16 0b0_0000_0100_1100 = some .rdDetRxcount := by decide
/-- BUS-15: `k = off[6:2]`. -/
theorem test_decode_rdDetPatWord :
    decodeTableWord 16 0b0_0001_0111_1100 = some (.rdDetPatWord 31#5) := by decide
theorem test_decode_wrDetPatWord :
    decodeTableWord 48 0x6362_6161_1104 = some (.wrDetPatWord 1#5 0x63626161#32) := by decide
theorem test_decode_rdSeqCtrl : decodeTableWord 16 0b0_0000_1000_0000 = some .rdSeqCtrl := by decide
theorem test_decode_wrSeqCtrl :
    decodeTableWord 48 0x0000_0006_1080 = some (.wrSeqCtrl 6#32) := by decide
theorem test_decode_wrSeqTxf :
    decodeTableWord 48 0x0000_0064_1084 = some (.wrSeqTxf 100#32) := by decide
theorem test_decode_rdSeqStatus : decodeTableWord 16 0b0_0000_1000_1000 = some .rdSeqStatus := by decide
theorem test_decode_wrSeqIrqClr :
    decodeTableWord 48 0x0000_0001_108C = some (.wrSeqIrqClr 1#32) := by decide
theorem test_decode_rdSeqDelay : decodeTableWord 16 0b0_0000_1001_0000 = some .rdSeqDelay := by decide
theorem test_decode_rdSeqWidth : decodeTableWord 16 0b0_0000_1001_0100 = some .rdSeqWidth := by decide
theorem test_decode_rdSeqCount : decodeTableWord 16 0b0_0000_1001_1000 = some .rdSeqCount := by decide
/-- BUS-8: `DET_COMMIT` has no read row. -/
theorem test_decode_rdReserved :
    decodeTableWord 16 0b0_0000_0100_0100 = some (.rdReserved 0x044#12) := by decide
/-- BUS-7: `Q_CAPACITY` has no write row. -/
theorem test_decode_wrReserved :
    decodeTableWord 48 0xFFFF_FFFF_1008 = some (.wrReserved 0x008#12 0xFFFFFFFF#32) := by decide
/-- BUS-3. -/
theorem test_decode_busError_misaligned :
    decodeTableWord 16 0b0_0000_0000_0010 = some (.busError false 0x002#12 2#2 0#32) := by decide
/-- BUS-5: `size = 3`; the frame's bits 51:50 are `size XOR 2`. -/
theorem test_decode_busError_size :
    decodeTableWord 64 0x0004_0000_0000_0000 = some (.busError false 0x000#12 3#2 0#32) := by decide
theorem test_decode_rxByte : decodeTableWord 64 0x0001_0000_0000_0174 = some (.rxByte 0x74#8) := by decide
theorem test_decode_edgeSample :
    decodeTableWord 64 0x0002_0000_0000_0001 = some (.edgeSample true) := by decide
theorem test_decode_rst : decodeTableWord 64 0x0003_0000_0000_0001 = some .rst := by decide
theorem test_decode_stray_bit : decodeTableWord 16 0x2000 = none := by decide
theorem test_decode_truncated : decode [0x00#8, 0x00#8] = .error .truncated := by rfl

/-! ### One step of each instruction, the vectors of spec/95_test_vectors.md section 2 -/

/-- RQ-3. -/
def rq3 : State :=
  { base with rq := { base.rq with qmem := [(0, 0x5A#8)], wptr := 1, wgray := 1, wsync := [1, 1] } }

theorem test_RQ2_rdQData_empty : answers .rdQData base .okay 0x00000000#32 = true := by decide
theorem test_RQ3_rdQData_pops : answers .rdQData rq3 .okay 0x0000015A#32 = true ∧
    (nextOf .rdQData rq3).rq.rptr = 1 ∧ (nextOf .rdQData rq3).rq.rgray = 1 := by decide

/-- RQ-7. -/
def rq7 : State :=
  { base2 with rq := { base2.rq with rptr := 7, rgray := 4, wsync := [0, 0], rsync := [4, 4] } }

theorem test_RQ7_rdQLevel_wraps : answers .rdQLevel rq7 .okay 1#32 = true := by decide
theorem test_BUS1_rdQCapacity : answers .rdQCapacity base .okay 0x10#32 = true := by decide

/-- RQ-5: four bytes in a queue of four, PD not pushing. -/
def rq5 : State :=
  { base2 with rq := { base2.rq with qmem := [(0, 0x10#8), (1, 0x11#8), (2, 0x12#8), (3, 0x13#8)],
                                     wptr := 4, wgray := 6, wsync := [6, 6], stallSeen := true } }

/-- RQ-4: as RQ-5, PD in `D_PUSH`. -/
def rq4 : State := { rq5 with pd := { rq5.pd with dstate := .push, hold := 0x14#8 } }

theorem test_RQ1_rdQStatus_empty : answers .rdQStatus base .okay 1#32 = true := by decide
theorem test_RQ5_rdQStatus_full : answers .rdQStatus rq5 .okay 6#32 = true := by decide
theorem test_RQ8_wrQStatus_clears : (nextOf (.wrQStatus 4#32) rq5).rq.stallSeen = false := by decide
theorem test_RQ9_wrQStatus_set_wins : (nextOf (.wrQStatus 4#32) rq4).rq.stallSeen = true := by decide

/-- RQ-6: PD pushes 0x20 at `wptr = 7`. -/
def rq6 : State :=
  { base2 with rq := { base2.rq with wptr := 7, wgray := 4, rptr := 7, rgray := 4, wsync := [4, 4], rsync := [4, 4] },
               pd := { base2.pd with dstate := .push, hold := 0x20#8 } }

theorem test_RQ6_push_wraps : (nextOf (.edgeSample false) rq6).rq.qmem = [(3, 0x20#8)] ∧
    (nextOf (.edgeSample false) rq6).rq.wptr = 0 ∧ (nextOf (.edgeSample false) rq6).rq.wgray = 0 := by
  decide

/-- PD with the pattern "abc" in both copies, the cursor at `c`. -/
def abcAt (c : Byte) : State :=
  { base with pd := { base.pd with patS := [(0, 0x61#8), (1, 0x62#8), (2, 0x63#8)], lenS := 3,
                                   patA := [(0, 0x61#8), (1, 0x62#8), (2, 0x63#8)], lenA := 3, curPos := c } }

theorem test_rdDetPatLen : answers .rdDetPatLen (abcAt 0) .okay 3#32 = true := by decide
theorem test_PD12_wrDetPatLen_max : (nextOf (.wrDetPatLen 128#32) base).pd.lenS = 128#8 := by decide
theorem test_PD14_wrDetPatLen_ignored :
    (nextOf (.wrDetPatLen 0x80000004#32) (abcAt 0)).pd.lenS = 3#8 := by decide
theorem test_PD15_wrDetCommit : (nextOf (.wrDetCommit 1#32) (abcAt 2)).pd.curPos = 0#8 ∧
    (nextOf (.wrDetCommit 1#32) (abcAt 2)).pd.patA = (abcAt 2).pd.patS := by decide
/-- PD-16: a matching byte in the cycle of the commit. -/
theorem test_PD16_wrDetCommit_wins :
    let s := { abcAt 1 with port := ⟨true, true, 0x62#8, false⟩ }
    (nextOf (.wrDetCommit 1#32) s).pd.curPos = 0#8 ∧ (nextOf (.wrDetCommit 1#32) s).pd.dstate = .push ∧
      answers .rdDetStatus (nextOf (.wrDetCommit 1#32) s) .okay 0x00020300#32 = true := by decide
theorem test_PD22_rdDetStatus : answers .rdDetStatus (abcAt 2) .okay 0x00000302#32 = true := by decide
/-- PD-20. -/
theorem test_PD20_rdDetRxcount_wraps :
    let s := { rq6 with pd := { rq6.pd with rxCount := 0xFFFFFFFF#32 } }
    answers .rdDetRxcount s .okay 0xFFFFFFFF#32 = true ∧ (nextOf .rdDetRxcount s).pd.rxCount = 0#32 := by
  decide
theorem test_BUS13_rdDetPatWord :
    answers (.rdDetPatWord 31#5)
      { base with pd := { base.pd with patS := [(124, 0x41#8), (125, 0x41#8), (126, 0x41#8), (127, 0x42#8)] } }
      .okay 0x42414141#32 = true := by decide
/-- P1, cycle 1: "test". -/
theorem test_P1_wrDetPatWord : (nextOf (.wrDetPatWord 0#5 0x74736574#32) base).pd.patS =
    [(0, 0x74#8), (1, 0x65#8), (2, 0x73#8), (3, 0x74#8)] := by decide

/-- TS enabled with both enables, in a state with a delay and a width. -/
def tsAt (st : SState) (d w c : Word) (prev : Bool) : State :=
  { base with ts := { base.ts with en := true, irqEn := true, sstate := st, dly := d, wid := w, cnt := c,
                                   out := st == .pulse, irqPend := st == .fired, prev := prev, prevValid := true } }

theorem test_rdSeqCtrl : answers .rdSeqCtrl (tsAt .idle 0 0 0 false) .okay 3#32 = true := by decide
theorem test_TS7_wrSeqCtrl_disables :
    (nextOf (.wrSeqCtrl 2#32) (tsAt .pulse 0 5 4 true)).ts.en = false ∧
    (nextOf (.wrSeqCtrl 2#32) (tsAt .pulse 0 5 4 true)).ts.cnt = 3#32 := by decide
theorem test_TS9_wrSeqCtrl_rearms :
    let t := (nextOf (.wrSeqCtrl 4#32) (tsAt .pulse 3 2 2 true)).ts
    t.sstate = .idle ∧ t.out = false ∧ t.cnt = 0#32 ∧ t.irqEn = false ∧ t.en = true ∧ t.irqPend = false := by
  decide

/-- TS idle with parameters waiting. -/
def tsFed (vs : List Word) : State :=
  { tsAt .idle 0 0 0 false with ts := { (tsAt .idle 0 0 0 false).ts with txf := vs } }

theorem test_TS19_wrSeqTxf_with_pop :
    (nextOf (.wrSeqTxf 9#32) (tsFed [7#32])).ts.txf = [9#32] ∧
    (nextOf (.wrSeqTxf 9#32) (tsFed [7#32])).ts.dly = 7#32 ∧
    (nextOf (.wrSeqTxf 9#32) (tsFed [7#32])).ts.sstate = .loadWidth := by decide
theorem test_TS20_wrSeqTxf_dropped :
    (nextOf (.wrSeqTxf 9#32) (tsFed [1#32, 2#32, 3#32, 4#32])).ts.txf = [2#32, 3#32, 4#32] ∧
    (nextOf (.wrSeqTxf 9#32) (tsFed [1#32, 2#32, 3#32, 4#32])).ts.txfOvf = true := by decide
/-- P2, cycle 14. -/
theorem test_P2_rdSeqStatus_fired : answers .rdSeqStatus (tsAt .fired 3 2 0 true) .okay 0x4D#32 = true := by
  decide
/-- TS-3. -/
theorem test_TS3_rdSeqStatus_level :
    answers .rdSeqStatus
      { base with ts := { base.ts with txf := [1#32, 2#32, 3#32, 4#32], txfOvf := true } }
      .okay 0x410#32 = true := by decide
theorem test_TS10_wrSeqIrqClr_loses :
    (nextOf (.wrSeqIrqClr 1#32) (tsAt .pulse 0 2 1 true)).ts.sstate = .fired ∧
    (nextOf (.wrSeqIrqClr 1#32) (tsAt .pulse 0 2 1 true)).ts.irqPend = true := by decide
theorem test_TS13_wrSeqIrqClr_acks :
    (nextOf (.wrSeqIrqClr 1#32) (tsAt .fired 3 2 0 true)).ts.sstate = .idle ∧
    (nextOf (.wrSeqIrqClr 1#32) (tsAt .fired 3 2 0 true)).ts.irqPend = false ∧
    (nextOf (.wrSeqIrqClr 1#32) (tsAt .fired 3 2 0 true)).ts.dly = 3#32 := by decide
theorem test_rdSeqDelay : answers .rdSeqDelay (tsAt .delay 3 2 1 true) .okay 3#32 = true := by decide
theorem test_rdSeqWidth : answers .rdSeqWidth (tsAt .delay 3 2 1 true) .okay 2#32 = true := by decide
theorem test_TS18_rdSeqCount : answers .rdSeqCount (tsAt .delay 3 2 3 true) .okay 3#32 = true := by decide
/-- BUS-9: a read of `SEQ_TXF`. -/
theorem test_BUS9_rdReserved : answers (.rdReserved 0x084#12) base .okay 0#32 = true := by decide
/-- BUS-12. -/
theorem test_BUS12_wrReserved : answers (.wrReserved 0xFFC#12 0x12345678#32) base .okay 0#32 = true := by
  decide
/-- BUS-2: a byte-sized read of `Q_DATA` pops nothing. -/
theorem test_BUS2_busError : answers (.busError false 0x000#12 0#2 0#32) rq3 .error 0#32 = true ∧
    (nextOf (.busError false 0x000#12 0#2 0#32) rq3).rq.rptr = 0 := by decide
/-- P5's pattern: the byte that completes "abc". -/
theorem test_rxByte_full_match :
    let t := (nextOf (.rxByte 0x63#8) (abcAt 2)).pd
    t.trig = true ∧ t.pcnt = 3#16 ∧ t.dstate = .pulse ∧ t.curPos = 0#8 ∧ t.hold = 0x63#8 := by decide
/-- PD-9r, third byte: with MATCH_RESCAN the mismatched 'a' restarts the match. -/
theorem test_PD9r_rxByte_rescans :
    (nextOf (.rxByte 0x61#8) { abcAt 2 with params := small 4 3 true }).pd.curPos = 1#8 := by decide
/-- TS-5. -/
theorem test_TS5_edgeSample_fires :
    (nextOf (.edgeSample true) (tsAt .waitEdge 0 0 0 false)).ts.sstate = .fired ∧
    (nextOf (.edgeSample true) (tsAt .waitEdge 0 0 0 false)).ts.irqPend = true ∧
    (nextOf (.edgeSample true) (tsAt .waitEdge 0 0 0 false)).ts.out = false := by decide
/-- TS-16. -/
theorem test_TS16_edgeSample_level_is_no_edge :
    (nextOf (.edgeSample true) (tsAt .waitEdge 0 0 0 true)).ts.sstate = .waitEdge := by decide
/-- RST-1. -/
theorem test_RST1_rst :
    (nextOf .rst rq4).rq = RelayQueue.reset rq4.params rq4.rq.qmem ∧ (nextOf .rst rq4).pd = Detector.reset ∧
    (nextOf .rst (tsAt .pulse 3 2 2 true)).ts = Sequencer.reset ∧
    (nextOf .rst (tsAt .pulse 3 2 2 true)).out.seqOut = false := by decide
theorem test_reset_memory_wf : State.reset.rq.qmem.wf = true ∧ State.reset.pd.patS.wf = true ∧
    State.reset.pd.patA.wf = true := by decide

/-- A word placed for the fetch runs as the first instruction after reset: RESET_ARM with IRQ_EN. -/
theorem test_fetch_runs_first_after_reset :
    (match step (State.reset.withFetchWord 48 0x0000_0006_1080) with
      | .next t => t.ts.en && t.ts.irqEn && t.out.reply == some ⟨.okay, 0#32⟩
      | .fault _ => false
      | .refused _ => false) = true := by decide
/-- RST-3: a byte offered in the first cycle after reset is taken. -/
theorem test_RST3_byte_after_reset :
    (match step (State.reset.withFetchWord 64 0x0001_0000_0000_0141) with
      | .next t => t.pd.dstate == .push && t.pd.hold == 0x41#8 && t.out.rxReady
      | .fault _ => false
      | .refused _ => false) = true := by decide

/-! ### For every statement with hypotheses, a state and operands that meet them together -/

/-- `n` cycles placed before a state. -/
def fed (s : State) (cs : List CycleIn) : State := { s with inputs := cs }

/-- A cycle with a transaction and nothing else. -/
def busOf (r : Request) : CycleIn := busInput false r

/-- A cycle that offers a byte and nothing else. -/
def byteOf (b : Byte) : CycleIn := { quiet with rxValid := true, rxData := b }

/-- A cycle with the edge line high and nothing else. -/
def high : CycleIn := idleInput true

/-- A reset cycle. -/
def resetIn : CycleIn := { quiet with rst := true }

theorem witness_DecodingFollowsTheTable :
    (let r : Request := ⟨true, 0x040#12, 1#2, 4#32⟩
     r.size ≠ 2#2 ∨ r.off.extractLsb' 0 2 ≠ 0#2) ∧
    (let r : Request := ⟨false, 0x00F#12, 2#2, 0#32⟩
     r.size ≠ 2#2 ∨ r.off.extractLsb' 0 2 ≠ 0#2) ∧
    (let r : Request := ⟨true, 0x17C#12, 2#2, 5#32⟩
     r.size = 2#2 ∧ r.off.extractLsb' 0 2 = 0#2 ∧
       ∃ row ∈ rows, r.key &&& row.mask = row.mtch) ∧
    (let r : Request := ⟨false, 0x180#12, 2#2, 0#32⟩
     r.size = 2#2 ∧ r.off.extractLsb' 0 2 = 0#2 ∧ ∀ row ∈ rows, r.key &&& row.mask ≠ row.mtch) := by
  refine ⟨by decide, by decide, ⟨rfl, by decide, ?_⟩, ⟨rfl, by decide, ?_⟩⟩
  · exact ⟨⟨0x1100#13, 0x1F83#13, fun k w => .wrDetPatWord k w⟩, by simp [rows, rowsPd], by decide⟩
  · simp [rows, rowsRq, rowsPd, rowsTs, Request.key]

theorem witness_DecodeOfEncodeIsTheInstruction :
    Instr.wf (.wrDetPatWord 31#5 0xFFFFFFFF#32) = true ∧ Instr.wf (.rdReserved 0x0FC#12) = true ∧
    Instr.wf (.wrReserved 0x180#12 1#32) = true ∧ Instr.wf (.busError true 0xFFF#12 3#2 7#32) = true ∧
    Instr.wf .rst = true := by decide

theorem witness_StepRunsTheDecodedInstruction :
    base.inputs = [] ∧ (fed base [resetIn]).inputs = resetIn :: [] ∧ resetIn.rst = true ∧
    (fed base [busOf (readReq 0#12), quiet]).inputs = busOf (readReq 0#12) :: [quiet] ∧
    (busOf (readReq 0#12)).rst = false ∧ (busOf (readReq 0#12)).bus = some (readReq 0#12) ∧
    (byteOf 0x61#8).rst = false ∧ (byteOf 0x61#8).bus = none ∧ (byteOf 0x61#8).rxValid = true ∧
    high.rst = false ∧ high.bus = none ∧ high.rxValid = false := by decide

theorem witness_FetchedWordRuns :
    decodeTableWord 48 0x0000_0006_1080 = some (.wrSeqCtrl 6#32) ∧
    decodeTableWord 16 0x0003 = some (.busError false 0x003#12 2#2 0#32) ∧
    decodeTableWord 64 0x0001_0000_0000_0174 = some (.rxByte 0x74#8) := by decide

theorem witness_OutputsAreFunctionsOfTheState : Instr.rdQData ≠ .rst ∧ Instr.rst = .rst := by decide

theorem witness_ParametersAndInputsAreKept :
    exec .rst (fed base [quiet]) = .next (nextOf .rst (fed base [quiet])) := rfl

theorem witness_ReadQDataPops :
    0 < levelC rq3.params rq3.rq ∧ levelC base.params base.rq = 0 ∧
    levelC rq5.params rq5.rq = 2 ^ rq5.params.a := by decide

theorem witness_QueuePointersHaveOneWriterEach :
    exec .rdQData rq6 = .next (nextOf .rdQData rq6) ∧ Instr.rdQData ≠ .rst ∧
    (rq6.pd.dstate = .push ∧ fullP rq6.params rq6.rq = false) ∧
    ¬ (rq4.pd.dstate = .push ∧ fullP rq4.params rq4.rq = false) ∧
    (rq4.pd.dstate = .push ∧ fullP rq4.params rq4.rq = true) ∧
    (Instr.rdQData = .rdQData ∧ 0 < levelC rq5.params rq5.rq) ∧
    ¬ (Instr.rdQData = .rdQData ∧ 0 < levelC base.params base.rq) ∧
    (rq5.rq.stallSeen = true ∧ (nextOf (.wrQStatus 4#32) rq5).rq.stallSeen = false) := by
  exact ⟨rfl, by decide⟩

theorem witness_SynchronizerStagesLag :
    1 < (fed rq3 [quiet, quiet]).params.syncStages ∧ NoReset 2 (fed rq3 [quiet, quiet]) := by
  unfold NoReset; decide

/-- A run with a byte pushed, seen and popped: "a" is offered in the first cycle. -/
def pushPop : State :=
  fed base [byteOf 0x61#8, quiet, quiet, quiet, quiet, busOf (readReq 0#12), quiet]

theorem witness_QueuePointersCountPushesAndPops :
    pushPop.params.wf ∧ QueueFresh pushPop ∧ NoReset 6 pushPop ∧
    pushCount 6 pushPop = 1 ∧ popCount 6 pushPop = 1 := by
  unfold NoReset QueueFresh; decide

theorem rq5_counts : QueueCounts rq5.params rq5.rq 4 0 [4, 4] [0, 0] := by constructor <;> decide

theorem base_counts : QueueCounts base.params base.rq 0 0 [0, 0] [0, 0] := by constructor <;> decide

/-- Full with PD idle, two quiet cycles to come. -/
def fullIdle : State := fed rq5 [quiet, quiet, quiet]

theorem witness_StepKeepsQueueInvariant :
    fullIdle.params.wf ∧ QueueInv fullIdle.params fullIdle.rq ∧ step fullIdle = .next (advance fullIdle) :=
  ⟨by decide, ⟨4, 0, [4, 4], [0, 0], rq5_counts⟩, rfl⟩

theorem witness_QueueViewsAreExact :
    rq5.params.wf ∧ QueueCounts rq5.params rq5.rq 4 0 [4, 4] [0, 0] ∧
    fullC rq5.params rq5.rq = true ∧ emptyC base.params base.rq = true ∧
    QueueCounts base.params base.rq 0 0 [0, 0] [0, 0] :=
  ⟨by decide, rq5_counts, by decide, by decide, base_counts⟩

theorem witness_BlockedProducerIsSeenFull :
    fullIdle.params.wf ∧ QueueInv fullIdle.params fullIdle.rq ∧
    NoReset fullIdle.params.syncStages fullIdle ∧
    (∀ k, k < fullIdle.params.syncStages →
      fullP fullIdle.params (after k fullIdle).rq = true ∧ popAt (after k fullIdle) = false) ∧
    fullP fullIdle.params (after fullIdle.params.syncStages fullIdle).rq = true := by
  refine ⟨by decide, ⟨4, 0, [4, 4], [0, 0], rq5_counts⟩, ?_⟩
  unfold NoReset; decide

theorem witness_QueueIsFirstInFirstOut :
    pushPop.params.wf ∧ QueueFresh pushPop ∧ pushPop.rq.qmem.wf = true ∧ NoReset 5 pushPop ∧
    popAt (after 5 pushPop) = true := by
  unfold NoReset QueueFresh; decide

/-- Four bytes to drain: a read of the level, then pops. -/
def draining : State := fed rq5 [busOf (readReq 4#12), busOf (readReq 0#12), busOf (readReq 0#12)]

theorem witness_DrainAlwaysFindsBytes :
    draining.params.wf ∧ QueueInv draining.params draining.rq ∧ NoReset 3 draining ∧
    popCount 2 draining < levelC draining.params draining.rq ∧ rowAt (after 2 draining) = .rdQData := by
  refine ⟨by decide, ⟨4, 0, [4, 4], [0, 0], rq5_counts⟩, ?_⟩
  unfold NoReset; decide

theorem witness_GrayTestsAgree :
    rq5.params.wf ∧ QueueInv rq5.params rq5.rq ∧ fullP rq5.params rq5.rq = true ∧
    QueueInv base.params base.rq ∧ emptyC base.params base.rq = true :=
  ⟨by decide, ⟨4, 0, [4, 4], [0, 0], rq5_counts⟩, by decide, ⟨0, 0, [0, 0], [0, 0], base_counts⟩, by decide⟩

/-- PD pushes while the host pops: one byte in the queue. -/
def pushAndPop : State :=
  { fed rq3 [busOf (readReq 0#12)] with pd := { base.pd with dstate := .push, hold := 0x33#8 } }

theorem witness_PushAndPopTouchDifferentSlots :
    pushAndPop.params.wf ∧ QueueInv pushAndPop.params pushAndPop.rq ∧ pushAt pushAndPop = true ∧
    popAt pushAndPop = true :=
  ⟨by decide, ⟨1, 0, [1, 1], [0, 0], by constructor <;> decide⟩, by decide, by decide⟩

theorem witness_QueueStorageAtResetIsUnobservable :
    pushPop.params.wf ∧ QueueFresh pushPop ∧ pushPop.rq.qmem.wf = true ∧
    Memory.wf [(0, 0x99#8), (3, 0x01#8)] = true := by
  unfold QueueFresh; decide

theorem witness_PatternWordsAreLittleEndian : (abcAt 0).pd.patS.wf = true := by decide

theorem witness_PatternLengthAboveMaxIsIgnored :
    (128#32 : Word).toNat ≤ 128 ∧ 128 < (129#32 : Word).toNat := by decide

theorem witness_CommitSwapsPatternAndClearsCursor :
    (1#32 : Word).getLsbD 0 = true ∧ (0xFFFFFFFE#32 : Word).getLsbD 0 = false := by decide

theorem witness_ByteIsMatchedAgainstTheCursor :
    (abcAt 2).pd.dstate = .idle ∧
    ((0 < (abcAt 2).pd.lenA.toNat ∧ 0x63#8 = (abcAt 2).pd.patA.read (abcAt 2).pd.curPos.toNat) ∧
      (abcAt 2).pd.curPos = (abcAt 2).pd.lenA - 1#8) ∧
    ((0 < (abcAt 1).pd.lenA.toNat ∧ 0x62#8 = (abcAt 1).pd.patA.read (abcAt 1).pd.curPos.toNat) ∧
      (abcAt 1).pd.curPos ≠ (abcAt 1).pd.lenA - 1#8) ∧
    (¬ (0 < (abcAt 1).pd.lenA.toNat ∧ 0x61#8 = (abcAt 1).pd.patA.read (abcAt 1).pd.curPos.toNat) ∧
      (small 4 3 true).matchRescan = true ∧ 0 < (abcAt 1).pd.lenA.toNat ∧
      0x61#8 = (abcAt 1).pd.patA.read 0) ∧
    (¬ (0 < base.pd.lenA.toNat ∧ 0x61#8 = base.pd.patA.read base.pd.curPos.toNat) ∧
      ¬ (base.params.matchRescan = true ∧ 0 < base.pd.lenA.toNat ∧ 0x61#8 = base.pd.patA.read 0)) ∧
    rq4.pd.dstate ≠ .idle := by decide

theorem abcAt_inv : DetectorInv (abcAt 2).pd := by constructor <;> decide

/-- The byte that completes the pattern, then its pulse. -/
def matching : State := fed (abcAt 2) [byteOf 0x63#8, quiet, quiet, quiet, quiet]

theorem witness_CursorFollowsTheRecurrence :
    matching.params.wf ∧ DetectorInv matching.pd ∧ PatternStays 2 matching ∧
    acceptedAt (after 0 matching) = some 0x63#8 :=
  ⟨by decide, abcAt_inv, by unfold PatternStays; decide, by decide⟩

/-- A byte with no pattern set. -/
def unmatched : State := fed base [byteOf 0x61#8, quiet, quiet]

theorem base_detector_inv : DetectorInv base.pd := by constructor <;> decide

theorem witness_EmptyPatternNeverMatches :
    unmatched.params.wf ∧ DetectorInv unmatched.pd ∧ unmatched.pd.lenA = 0#8 ∧
    unmatched.pd.trig = false ∧ PatternStays 2 unmatched ∧
    acceptedAt (after 0 unmatched) = some 0x61#8 :=
  ⟨by decide, base_detector_inv, by decide, by decide, by unfold PatternStays; decide, by decide⟩

theorem witness_DirectPulseLastsItsCycles :
    matching.params.wf ∧ matching.pd.trig = false ∧ acceptedAt matching = some 0x63#8 ∧
    (after 1 matching).pd.dstate = .pulse ∧ NoReset (matching.params.directPulse.toNat + 1) matching := by
  unfold NoReset; decide

theorem witness_ReceivedBytesAreCountedAtThePush :
    exec (.edgeSample false) rq6 = .next (nextOf (.edgeSample false) rq6) ∧
    Instr.edgeSample false ≠ .rst ∧ exec .rst rq6 = .next (nextOf .rst rq6) := ⟨rfl, by decide, rfl⟩

theorem witness_BlockedPushKeepsTheByte :
    exec .rdQLevel rq4 = .next (nextOf .rdQLevel rq4) ∧ Instr.rdQLevel ≠ .rst ∧
    rq4.pd.dstate = .push ∧ fullP rq4.params rq4.rq = true ∧
    rq6.pd.dstate = .push ∧ fullP rq6.params rq6.rq = false := ⟨rfl, by decide⟩

theorem witness_PatternStoresHaveTheirOwnWriters :
    exec .rdQLevel (abcAt 1) = .next (nextOf .rdQLevel (abcAt 1)) ∧ Instr.rdQLevel ≠ .rst ∧
    isCommit .rdQLevel = false ∧ (∀ k w, Instr.rdQLevel ≠ .wrDetPatWord k w) ∧
    (∀ w, Instr.rdQLevel ≠ .wrDetPatLen w) :=
  ⟨rfl, by decide, rfl, fun _ _ h => (by cases h), fun _ h => (by cases h)⟩

theorem witness_StepKeepsDetectorInvariant :
    matching.params.wf ∧ DetectorInv matching.pd ∧ step matching = .next (advance matching) :=
  ⟨by decide, abcAt_inv, rfl⟩

/-- A reset cycle in the middle of a pulse and a blocked push. -/
def resetRun : State := fed { rq4 with ts := (tsAt .pulse 3 2 1 true).ts } [resetIn, quiet]

theorem witness_StepKeepsDetectorInvariant_reset : resetRun.params.wf ∧ resetCycleAt resetRun = true := by
  decide

theorem witness_CursorFollowsTheRecurrence_restart :
    resetCycleAt resetRun = true ∧
    isCommit (rowAt (fed (abcAt 2) [busOf (writeReq 0x044#12 1#32)])) = true := by decide

theorem witness_ControlWriteSetsOrRearms :
    (3#32 : Word).getLsbD 2 = false ∧ (6#32 : Word).getLsbD 2 = true := by decide

theorem witness_ParameterPushAppendsOrDrops :
    (tsFed [1#32, 2#32, 3#32]).ts.txf.length < (tsFed []).params.txfDepth ∧
    (tsFed []).params.txfDepth ≤ (tsFed [1#32, 2#32, 3#32, 4#32]).ts.txf.length := by decide

theorem fired_inv : SequencerInv base.params (tsAt .fired 3 2 0 true).ts := by constructor <;> decide

theorem pulse_inv : SequencerInv base.params (tsAt .pulse 3 2 1 true).ts := by constructor <;> decide

theorem witness_InterruptClearLosesToCompletion :
    SequencerInv base.params (tsAt .fired 3 2 0 true).ts ∧ (tsAt .fired 3 2 0 true).ts.sstate = .fired ∧
    SequencerInv base.params (tsAt .pulse 3 2 1 true).ts ∧ (tsAt .pulse 3 2 1 true).ts.sstate ≠ .fired ∧
    (1#32 : Word).getLsbD 0 = true ∧ (2#32 : Word).getLsbD 0 = false :=
  ⟨fired_inv, by decide, pulse_inv, by decide, by decide, by decide⟩

theorem witness_SequencerTakesItsStep :
    base.ts.en = false ∧
    ((tsFed [7#32]).ts.en = true ∧ (tsFed [7#32]).ts.sstate = .idle ∧ (tsFed [7#32]).ts.txf = 7#32 :: []) ∧
    (let s : State := { tsFed [7#32] with ts := { (tsFed [7#32]).ts with sstate := .loadWidth } }
     s.ts.en = true ∧ s.ts.sstate = .loadWidth ∧ s.ts.txf = 7#32 :: []) ∧
    ((tsFed []).ts.sstate = .idle ∧ (tsFed []).ts.txf = []) ∧
    ((tsAt .waitEdge 5 0 0 true).ts.sstate = .waitEdge ∧ (tsAt .waitEdge 5 0 0 true).ts.prev = true) ∧
    (let s := tsAt .waitEdge 5 0 0 false
     s.ts.sstate = .waitEdge ∧ s.ts.prevValid = true ∧ s.params.edgePolarity = .rising ∧
       s.ts.prev = false ∧ s.ts.dly ≠ 0#32) ∧
    (let s := tsAt .waitEdge 0 0 0 false
     s.ts.sstate = .waitEdge ∧ s.ts.prevValid = true ∧ s.params.edgePolarity = .rising ∧
       s.ts.prev = false ∧ s.ts.dly = 0#32) ∧
    ((tsAt .delay 3 2 1 true).ts.sstate = .delay ∧ (tsAt .delay 3 2 1 true).ts.cnt = 1#32) ∧
    ((tsAt .pulse 3 2 1 true).ts.sstate = .pulse ∧ (tsAt .pulse 3 2 1 true).ts.cnt = 1#32) ∧
    ((tsAt .pulse 3 2 2 true).ts.sstate = .pulse ∧ (tsAt .pulse 3 2 2 true).ts.cnt ≠ 1#32) ∧
    (tsAt .fired 3 2 0 true).ts.sstate = .fired := by decide

/-- An edge with delay 2 and width 1; in the delay a write that keeps EN and clears IRQ_EN. -/
def edgeRun : State :=
  fed (tsAt .waitEdge 2 1 0 false) [high, busInput true (writeReq 0x080#12 1#32), high, high, high]

theorem witness_PulseTimelineIsExact :
    edgeRun.ts.en = true ∧ edgeRun.ts.sstate = .waitEdge ∧ edgeRun.ts.out = false ∧
    edgeRun.ts.irqPend = false ∧ edgeAt edgeRun = true ∧
    Undisturbed (edgeRun.ts.dly.toNat + edgeRun.ts.wid.toNat + 1) edgeRun := by
  unfold Undisturbed; decide

/-- Delay 0 and width 0: the boundary of R210. -/
def edgeRun0 : State := fed (tsAt .waitEdge 0 0 0 false) [high]

theorem witness_PulseTimelineIsExact_zero :
    edgeRun0.ts.en = true ∧ edgeRun0.ts.sstate = .waitEdge ∧ edgeRun0.ts.out = false ∧
    edgeRun0.ts.irqPend = false ∧ edgeAt edgeRun0 = true ∧
    Undisturbed (edgeRun0.ts.dly.toNat + edgeRun0.ts.wid.toNat + 1) edgeRun0 := by
  unfold Undisturbed; decide

theorem witness_InterruptRisesByCompletionFallsByClear :
    (let s := tsAt .pulse 3 2 1 true
     exec (.edgeSample true) s = .next (nextOf (.edgeSample true) s) ∧
       s.ts.irqPend = false ∧ (nextOf (.edgeSample true) s).ts.irqPend = true) ∧
    SequencerInv base.params (tsAt .pulse 3 2 1 true).ts ∧
    (let s := tsAt .fired 3 2 0 true
     exec (.wrSeqIrqClr 1#32) s = .next (nextOf (.wrSeqIrqClr 1#32) s) ∧
       s.ts.irqPend = true ∧ (nextOf (.wrSeqIrqClr 1#32) s).ts.irqPend = false) ∧
    SequencerInv base.params (tsAt .fired 3 2 0 true).ts :=
  ⟨⟨rfl, by decide, by decide⟩, pulse_inv, ⟨rfl, by decide, by decide⟩, fired_inv⟩

theorem witness_ArmReachesWaitEdgeInFourCycles :
    base.params.wf ∧
    (fed (tsAt .pulse 9 9 9 true)
      [⟨false, some (writeReq 0x080#12 0x6#32), false, 0#8, false⟩,
       ⟨false, some (writeReq 0x084#12 3#32), false, 0#8, false⟩,
       ⟨false, some (writeReq 0x084#12 2#32), false, 0#8, false⟩,
       ⟨false, none, false, 0#8, false⟩]).inputs =
      [⟨false, some (writeReq 0x080#12 0x6#32), false, 0#8, false⟩,
       ⟨false, some (writeReq 0x084#12 3#32), false, 0#8, false⟩,
       ⟨false, some (writeReq 0x084#12 2#32), false, 0#8, false⟩,
       ⟨false, none, false, 0#8, false⟩] ++ [] := by decide

/-- From `IDLE` with the pairs (0, 0) and (0, 1) waiting: an edge, an acknowledgement, an edge. -/
def twoPairs : State :=
  fed (tsFed [0#32, 0#32, 0#32, 1#32])
    [quiet, quiet, high, busOf (writeReq 0x08C#12 1#32), quiet, quiet, high, high]

theorem witness_CompletionComesOncePerArmCycle :
    (twoPairs.ts.sstate = .idle ∨ twoPairs.ts.sstate = .fired) ∧ completesAt (after 2 twoPairs) = true ∧
    2 < 7 ∧ completesAt (after 7 twoPairs) = true := by decide

/-- `FIRED`, with an edge and a parameter to come. -/
def firedRun : State := fed (tsAt .fired 3 2 0 false) [high, busOf (writeReq 0x084#12 5#32)]

theorem witness_FiredWaitsForTheHost :
    firedRun.ts.sstate = .fired ∧
    ∀ k, k < 2 → resetCycleAt (after k firedRun) = false ∧ isIrqClear (rowAt (after k firedRun)) = false ∧
      isResetArm (rowAt (after k firedRun)) = false := by decide

/-- `WAIT_EDGE` with the line low. -/
def waitRun : State := fed (tsAt .waitEdge 3 2 0 false) [quiet, quiet]

theorem witness_WaitEdgeHasNoTimeout :
    waitRun.ts.sstate = .waitEdge ∧
    ∀ k, k < 2 → resetCycleAt (after k waitRun) = false ∧ isResetArm (rowAt (after k waitRun)) = false ∧
      ((after k waitRun).ts.en = false ∨ edgeAt (after k waitRun) = false) := by decide

/-- TS-7: disabled in `PULSE`. -/
def frozenRun : State :=
  { fed (tsAt .pulse 0 5 3 true) [high, high] with ts := { (tsAt .pulse 0 5 3 true).ts with en := false } }

theorem witness_DisabledSequencerIsFrozen :
    frozenRun.ts.en = false ∧ LeftDisabled 2 frozenRun ∧
    ∀ k, k < 2 → isIrqClear (rowAt (after k frozenRun)) = false := by
  unfold LeftDisabled; decide

theorem witness_StepKeepsSequencerInvariant :
    SequencerInv firedRun.params firedRun.ts ∧ step firedRun = .next (advance firedRun) :=
  ⟨by constructor <;> decide, rfl⟩

theorem witness_StepKeepsSequencerInvariant_reset : resetCycleAt resetRun = true := by decide

theorem witness_DetectorAndSequencerAreIndependent :
    (let s := fed (abcAt 2) [quiet]
     let s' := fed base [quiet]
     s.params = s'.params ∧ s.cycles = s'.cycles ∧ s.inputs = s'.inputs ∧ s.ts = s'.ts ∧ s.pd ≠ s'.pd) ∧
    (let s := fed (tsAt .pulse 3 2 1 true) [quiet]
     let s' := fed base [quiet]
     s.params = s'.params ∧ s.cycles = s'.cycles ∧ s.inputs = s'.inputs ∧ s.rq = s'.rq ∧ s.pd = s'.pd ∧
       s.ts ≠ s'.ts) := by decide

theorem witness_ReservedAccessesDoNothing :
    (let r : Request := ⟨true, 0x008#12, 2#2, 7#32⟩
     r.size = 2#2 ∧ r.off.extractLsb' 0 2 = 0#2 ∧ ∀ row ∈ rows, r.key &&& row.mask ≠ row.mtch) ∧
    (let r : Request := ⟨false, 0x044#12, 2#2, 0#32⟩
     r.size = 2#2 ∧ r.off.extractLsb' 0 2 = 0#2 ∧ ∀ row ∈ rows, r.key &&& row.mask ≠ row.mtch) := by
  refine ⟨⟨rfl, by decide, ?_⟩, ⟨rfl, by decide, ?_⟩⟩ <;>
    simp [rows, rowsRq, rowsPd, rowsTs, Request.key]

theorem witness_BusErrorChangesNothing_requests :
    (let r : Request := ⟨true, 0x040#12, 1#2, 4#32⟩
     r.size ≠ 2#2 ∨ r.off.extractLsb' 0 2 ≠ 0#2) ∧
    (let r : Request := ⟨false, 0x001#12, 2#2, 0#32⟩
     r.size ≠ 2#2 ∨ r.off.extractLsb' 0 2 ≠ 0#2) := by decide

theorem witness_BusErrorChangesNothing :
    let i := Instr.busError false 0x000#12 0#2 0#32
    exec i rq3 = .next (nextOf i rq3) ∧ (nextOf i rq3).out.reply = some ⟨.error, 0#32⟩ := ⟨rfl, rfl⟩

theorem witness_RegistersAfterReset :
    (small 30 1 true).wf ∧
    exec .rdQCapacity (State.resetWith (small 30 1 true)) =
      .next (nextOf .rdQCapacity (State.resetWith (small 30 1 true))) := ⟨by decide, rfl⟩

theorem witness_NoEdgeInFirstCycleAfterReset : resetCycleAt (fed rq4 [resetIn]) = true := by decide

theorem witness_StoresChangeOnlyWhereWritten :
    exec (.edgeSample false) rq6 = .next (nextOf (.edgeSample false) rq6) ∧
    rq6.rq.qmem.wf = true ∧ rq6.pd.dstate = .push ∧ fullP rq6.params rq6.rq = false ∧
    0 ≠ rq6.rq.wptr % 2 ^ rq6.params.a ∧
    (∀ k w, Instr.wrDetPatWord 1#5 0#32 = .wrDetPatWord k w → 8 / 4 ≠ k.toNat) := by
  refine ⟨rfl, by decide, by decide, by decide, by decide, fun k w h => ?_⟩
  injection h with hk hw
  rw [← hk]; decide

theorem rq5_stores : StoresInv rq5.params rq5.rq rq5.pd := by constructor <;> decide

theorem witness_StepKeepsStoresCanonical :
    StoresInv fullIdle.params fullIdle.rq fullIdle.pd ∧ step fullIdle = .next (advance fullIdle) :=
  ⟨rq5_stores, rfl⟩

theorem witness_InvariantsHoldAtReset : (small 1 1 false).wf ∧ (small 30 65535 true).wf := by decide

theorem witness_InvariantsHoldAlongEveryRun : BlockInv fullIdle :=
  ⟨by decide, ⟨4, 0, [4, 4], [0, 0], rq5_counts⟩, by constructor <;> decide, by constructor <;> decide,
    rq5_stores⟩

end Sys2Proof.Tests
end

section
/-! SUPPORT. What the proofs of the state's invariants share: a step as `advance`, the induction along a run, the
legal parameters, and the fields that no instruction changes. -/

namespace Sys2Proof.Machine

/-! ### Steps and runs -/

/-- The next state of a step is `advance`. -/
theorem step_next_iff {s t : State} : step s = .next t ↔ t = advance s := by
  rw [advance_eq]; exact exec_next_iff

/-- What one cycle keeps, every run keeps. -/
theorem after_keeps {P : State → Prop} (hstep : ∀ s, P s → P (advance s)) {s : State} (h : P s)
    (n : Nat) : P (after n s) := by
  induction n with
  | zero => exact h
  | succ n ih => exact hstep _ ih

theorem NoReset.of_succ {n : Nat} {s : State} (h : NoReset (n + 1) s) : NoReset n s :=
  fun k hk => h k (Nat.lt_succ_of_lt hk)

theorem execState_inputs (i : Instr) (s : State) : (execState i s).inputs = s.inputs := by
  cases i <;> rfl

theorem execState_cycles (i : Instr) (s : State) : (execState i s).cycles = s.cycles + 1 := by
  cases i <;> rfl

/-! ### Legal parameters (00_scope.md R7) -/

section
variable {p : Params}

theorem one_le_syncStages (h : p.wf) : 1 ≤ p.syncStages :=
  let ⟨_, _, hstages, _⟩ := h
  hstages

theorem one_le_directPulse (h : p.wf) : 1 ≤ p.directPulse.toNat :=
  let ⟨_, _, _, hpulse, _⟩ := h
  hpulse

end

/-- The reference values are legal, whatever the OPEN parameters are. -/
theorem reference_wf : Params.reference.wf := by
  have hpulse : 1 ≤ Params.reference.directPulse.toNat := by
    have := Config.directPulsePred.isLt
    simp only [Params.reference, BitVec.toNat_ofNat]
    omega
  have hbase : Params.reference.baseAddr.extractLsb' 0 12 = 0#12 :=
    BitVec.extractLsb'_append_eq_right
  exact ⟨by decide, by decide, by decide, hpulse, Nat.succ_pos _, by decide, by decide,
    Nat.le_add_right _ _, hbase⟩

/-- Settles O9: RST and every other row leave the parameters and the inputs to come, and take one cycle. -/
theorem parametersAndInputsAreKept : Obligations.ParametersAndInputsAreKept := by
  intro i s t h
  rw [exec_next_iff.1 h]
  exact ⟨execState_params i s, execState_inputs i s, execState_cycles i s⟩

end Sys2Proof.Machine
end

section
/-! PROOF. The Relay Queue's invariant (10_state.md R26): the counts of pushes and pops, at reset, over one cycle,
and along a run, where the synchronizer stages carry the counts of the cycles before. -/

namespace Sys2Proof.Machine

/-! ### At reset and over one cycle -/

theorem falling_zeros (k : Nat) : List.Pairwise (· ≥ ·) (0 :: List.replicate k 0) := by
  rw [← List.replicate_succ]
  exact List.pairwise_replicate.2 (.inr le_rfl)

/-- After reset nothing was pushed or popped, whatever the storage holds. -/
theorem queueCounts_reset (p : Params) (m : Memory) :
    QueueCounts p (RelayQueue.reset p m) 0 0 (List.replicate p.syncStages 0)
      (List.replicate p.syncStages 0) where
  wptr := (Nat.zero_mod _).symm
  wgray := gray_zero.symm
  rptr := (Nat.zero_mod _).symm
  rgray := gray_zero.symm
  wsync := by simp [RelayQueue.reset, gray_zero]
  rsync := by simp [RelayQueue.reset, gray_zero]
  wlen := List.length_replicate
  rlen := List.length_replicate
  wfall := falling_zeros _
  rfall := falling_zeros _
  behind := fun n _ => Nat.zero_le n
  room := fun _ _ => Nat.zero_le _

/-- So where the queue holds its reset values. -/
theorem queueCounts_of_fresh {s : State} (h : QueueFresh s) :
    QueueCounts s.params s.rq 0 0 (List.replicate s.params.syncStages 0)
      (List.replicate s.params.syncStages 0) := by
  rw [h]; exact queueCounts_reset _ _

section
variable {s : State}

theorem pushAt_of_noReset (h : resetCycleAt s = false) : pushAt s = pushes s.params s.rq s.pd := by
  simp [pushAt, h]

/-- A pop is the proposal to pop. -/
theorem popAt_eq : popAt s = decide (effectOf (rowAt s) s = .popQueue) := by
  simp [popAt, effectOf_popQueue]

theorem canPop_of_effectOf {i : Instr} (h : effectOf i s = .popQueue) : canPop s.params s.rq = true :=
  (effectOf_popQueue.1 h).2

/-- A cycle that is no reset cycle counts its push and its pop. -/
theorem QueueCounts.of_advance {W R : Nat} {ws rs : List Nat} (hS : 1 ≤ s.params.syncStages)
    (hr : resetCycleAt s = false) (h : QueueCounts s.params s.rq W R ws rs) :
    QueueCounts s.params (advance s).rq (W + (pushAt s).toNat) (R + (popAt s).toNat)
      ((W :: ws).take s.params.syncStages) ((R :: rs).take s.params.syncStages) := by
  rw [advance_rq hr, pushAt_of_noReset hr, popAt_eq]
  exact h.next hS canPop_of_effectOf

/-- Every cycle keeps R26. -/
theorem queueInv_advance (hS : 1 ≤ s.params.syncStages) (h : QueueInv s.params s.rq) :
    QueueInv s.params (advance s).rq := by
  cases hr : resetCycleAt s with
  | true => rw [advance_rq_reset hr]; exact ⟨0, 0, _, _, queueCounts_reset _ _⟩
  | false =>
    obtain ⟨W, R, ws, rs, hc⟩ := h
    exact ⟨_, _, _, _, hc.of_advance hS hr⟩

end

/-- Settles O16: a reset cycle starts the counts again, any other cycle adds its push and its pop. -/
theorem stepKeepsQueueInvariant : Obligations.StepKeepsQueueInvariant := by
  intro s t hp h hst
  rw [step_next_iff.1 hst, advance_params]
  exact queueInv_advance (one_le_syncStages hp) h

/-! ### Along a run -/

/-- What a synchronizer of `S` stages carries in cycle `n` of a count that is `f k` in cycle `k`: stage `j + 1`
has the count of `j + 1` cycles before, and before cycle 0 the count of cycle 0. -/
def countHistory (f : Nat → Nat) (S n : Nat) : List Nat := (List.range S).map fun j => f (n - (j + 1))

theorem countHistory_zero (f : Nat → Nat) (S : Nat) : countHistory f S 0 = List.replicate S (f 0) := by
  simp [countHistory, List.map_const']

theorem countHistory_succ (f : Nat → Nat) (S n : Nat) :
    countHistory f S (n + 1) = (f n :: countHistory f S n).take S := by
  refine List.ext_getElem (by simp [countHistory]) fun j _ _ => ?_
  cases j with
  | zero => simp [countHistory]
  | succ j => simp [countHistory, Nat.add_sub_add_right]

theorem countHistory_last (f : Nat → Nat) {S : Nat} (hS : 1 ≤ S) (n : Nat) :
    (countHistory f S n).getD (S - 1) 0 = f (n - S) := by
  obtain ⟨S, rfl⟩ := Nat.exists_eq_add_of_le' hS
  simp [countHistory]

/-- R26 along a run from reset, with the true counts: `n` cycles later the stages carry the counts' history. -/
theorem queueCounts_after {s : State} {n : Nat} (hS : 1 ≤ s.params.syncStages) (hf : QueueFresh s)
    (hn : NoReset n s) :
    QueueCounts s.params (after n s).rq (pushCount n s) (popCount n s)
      (countHistory (pushCount · s) s.params.syncStages n)
      (countHistory (popCount · s) s.params.syncStages n) := by
  induction n with
  | zero =>
    rw [countHistory_zero, countHistory_zero]
    exact queueCounts_of_fresh hf
  | succ n ih =>
    have h := ih hn.of_succ
    rw [← after_params n s] at h hS
    have h' := h.of_advance hS (hn n n.lt_succ_self)
    rw [after_params] at h'
    rw [countHistory_succ, countHistory_succ]
    exact h'

/-- Settles O15: the stages carry the counts of the cycles before, and R26's bounds are those of the counts. -/
theorem queuePointersCountPushesAndPops : Obligations.QueuePointersCountPushesAndPops := by
  intro s n hp hf hn M S q
  have hS : 1 ≤ s.params.syncStages := one_le_syncStages hp
  have h := queueCounts_after hS hf hn
  have hbounds := h.bounds hS
  have hW := h.viewW_eq hS
  have hR := h.viewR_eq hS
  rw [countHistory_last _ hS, countHistory_last _ hS] at hbounds
  rw [countHistory_last _ hS] at hW hR
  obtain ⟨hRs, hRW, hWs, hroom⟩ := hbounds
  exact ⟨h.wptr, h.rptr, hW, hR, hRs, hRW, hWs, hroom⟩

end Sys2Proof.Machine
end

section
/-! PROOF. The Pattern Detector's invariant (10_state.md R27): kept by PD's step, by what a transaction lays over it,
and so along every run. -/

namespace Sys2Proof.Machine

/-- R27 after reset. -/
theorem detectorInv_reset : DetectorInv Detector.reset := by constructor <;> simp [Detector.reset]

section
variable {p : Params} {q : RelayQueue} {port : Port} {pd : Detector}

/-- A byte that does not complete the pattern leaves the cursor inside it: the cursor moves only to a place before
the last, and a mismatch that restarts at 1 needs two bytes, since the first one is where a cursor of 0 stands. -/
theorem cursorAfter_inside {ch : Byte} (h : DetectorInv pd) (hf : fullMatch pd ch = false) :
    (pd.lenA.toNat = 0 → (cursorAfter p pd ch).toNat = 0) ∧
    (0 < pd.lenA.toNat → (cursorAfter p pd ch).toNat < pd.lenA.toNat) := by
  cases hm : matchesCursor pd ch with
  | true =>
    have hlen := ((matchesCursor_iff pd ch).1 hm).1
    have hbelow := h.cursorBelow hlen
    have hlast : atLastByte pd = false := by simpa [fullMatch, hm] using hf
    have hne : pd.curPos ≠ pd.lenA - 1#8 := by simpa [atLastByte] using hlast
    have hnext : cursorAfter p pd ch = pd.curPos + 1#8 := by simp [cursorAfter, hm, hlast]
    rw [hnext]
    constructor <;> intro <;> bv_omega
  | false =>
    cases hs : rescans p pd ch with
    | false => simp [cursorAfter, hm, hs]
    | true =>
      obtain ⟨-, hlen, hch⟩ := (rescans_iff p pd ch).1 hs
      have hcur : pd.curPos.toNat ≠ 0 := fun h0 => by
        have : matchesCursor pd ch = true := (matchesCursor_iff pd ch).2 ⟨hlen, h0 ▸ hch⟩
        simp [this] at hm
      have hbelow := h.cursorBelow hlen
      have hnext : cursorAfter p pd ch = 1#8 := by simp [cursorAfter, hm, hs]
      rw [hnext]
      constructor <;> intro <;> bv_omega

/-- PD's own step keeps R27. -/
theorem detectorInv_detectorStep (hp : 1 ≤ p.directPulse.toNat) (h : DetectorInv pd) :
    DetectorInv (detectorStep p q port pd) := by
  obtain ⟨hlenS, hlenA, hzero, hbelow, htrig, hpcnt⟩ := h
  rcases detectorStep_cases p q port pd with ⟨he, -⟩ | ⟨-, -, -, he⟩ | ⟨hd, -, hf, he⟩ | ⟨-, -, he⟩ |
    ⟨hd, hc, he⟩ | ⟨hd, -, he⟩ <;> rw [he]
  · exact ⟨hlenS, hlenA, hzero, hbelow, htrig, hpcnt⟩
  · exact ⟨hlenS, hlenA, fun _ => rfl, id, by simp, fun _ => hp⟩
  · have hcur := cursorAfter_inside (p := p) ⟨hlenS, hlenA, hzero, hbelow, htrig, hpcnt⟩ hf
    exact ⟨hlenS, hlenA, hcur.1, hcur.2, by simpa [hd] using htrig, by simp⟩
  · exact ⟨hlenS, hlenA, hzero, hbelow, by simp, by simp⟩
  · have hge := hpcnt hd
    refine ⟨hlenS, hlenA, hzero, hbelow, htrig, fun _ => ?_⟩
    show 1 ≤ (pd.pcnt - 1#16).toNat
    bv_omega
  · exact ⟨hlenS, hlenA, hzero, hbelow, by simpa [hd] using htrig, by simp⟩

/-- So does the whole cycle, where a length that is written is at most 128: a commit takes the shadow length and
sets the cursor to 0. -/
theorem detectorInv_nextPd {eff : BusEffect} (hp : 1 ≤ p.directPulse.toNat) (h : DetectorInv pd)
    (hlen : ∀ n, eff = .setPatLen n → n.toNat ≤ 128) : DetectorInv (nextPd p q port eff pd) := by
  have hstep := detectorInv_detectorStep (q := q) (port := port) hp h
  cases eff with
  | setPatLen n => exact { hstep with lenS := hlen n rfl }
  | commit =>
    exact { hstep with lenA := h.lenS, cursorZero := fun _ => rfl, cursorBelow := id }
  | setPatWord k w => exact { hstep with }
  | _ => exact hstep

end

/-- A length that a row writes is at most 128 (R163). -/
theorem setPatLen_le {i : Instr} {s : State} {n : Byte} (h : effectOf i s = .setPatLen n) :
    n.toNat ≤ 128 := by
  obtain ⟨w, -, hw, rfl⟩ := effectOf_setPatLen.1 h
  have : w.toNat ≤ 128 := hw
  simp only [wbyte, BitVec.extractLsb'_toNat]
  omega

/-- Every cycle keeps R27. -/
theorem detectorInv_advance {s : State} (hp : 1 ≤ s.params.directPulse.toNat) (h : DetectorInv s.pd) :
    DetectorInv (advance s).pd := by
  cases hr : resetCycleAt s with
  | true => rw [advance_pd_reset hr]; exact detectorInv_reset
  | false => rw [advance_pd hr]; exact detectorInv_nextPd hp h fun _ => setPatLen_le

/-- Settles O35: a reset cycle makes R27 true, and every cycle after it keeps it. -/
theorem stepKeepsDetectorInvariant : Obligations.StepKeepsDetectorInvariant := by
  refine ⟨fun s t hp h hst => ?_, fun s n hp hr => ?_⟩
  · rw [step_next_iff.1 hst]
    exact detectorInv_advance (one_le_directPulse hp) h
  · have hstart : DetectorInv (advance s).pd := by rw [advance_pd_reset hr]; exact detectorInv_reset
    rw [after_succ']
    exact (after_keeps (P := fun u => u.params.wf ∧ DetectorInv u.pd)
      (fun u hu => ⟨by simpa using hu.1, detectorInv_advance (one_le_directPulse hu.1) hu.2⟩)
      ⟨by simpa using hp, hstart⟩ n).2

end Sys2Proof.Machine
end

section
/-! PROOF. The Timing Sequencer's invariant (10_state.md R28): kept by TS's step, by what a transaction lays over it,
and so along every run. -/

namespace Sys2Proof.Machine

/-- R28 after reset, for every depth of the FIFO. -/
theorem sequencerInv_reset (p : Params) : SequencerInv p Sequencer.reset := by
  constructor <;> simp [Sequencer.reset]

section
variable {p : Params} {edge : Bool} {ts : Sequencer}

theorem word_pos_of_ne_zero {w : Word} (h : w ≠ 0#32) : 1 ≤ w.toNat := by bv_omega

/-- `enter_pulse()` makes R28 true but for the FIFO, from any state without a pending interrupt. -/
theorem sequencerInv_enterPulse (hi : ts.irqPend = false) (ht : ts.txf.length ≤ p.txfDepth) :
    SequencerInv p (enterPulse ts) := by
  by_cases hw : ts.wid = 0#32
  · rw [enterPulse_zero hw]
    exact ⟨by simp, by simp, by simp, ht⟩
  · rw [enterPulse_pos hw]
    exact ⟨by simp [hi], by simp, fun _ => word_pos_of_ne_zero hw, ht⟩

/-- The step with `en = 1` keeps R28. -/
theorem sequencerInv_sequencerStep (h : SequencerInv p ts) : SequencerInv p (sequencerStep edge ts) := by
  obtain ⟨hirq, hout, hcnt, htxf⟩ := h
  have hrest {v rest} (ht : ts.txf = v :: rest) : rest.length ≤ p.txfDepth := by
    simp only [ht, List.length_cons] at htxf; omega
  rcases sequencerStep_cases edge ts with ⟨he, -⟩ | ⟨v, rest, hs, ht, he⟩ | ⟨v, rest, hs, ht, he⟩ |
    ⟨hs, -, hd, he⟩ | ⟨hs, he⟩ | ⟨hs, hc, he⟩ | ⟨hs, -, he⟩ <;> rw [he]
  · exact ⟨hirq, hout, hcnt, htxf⟩
  · exact ⟨by simpa [hs] using hirq, by simpa [hs] using hout, by simp, hrest ht⟩
  · exact ⟨by simpa [hs] using hirq, by simpa [hs] using hout, by simp, hrest ht⟩
  · exact ⟨by simpa [hs] using hirq, by simpa [hs] using hout, fun _ => word_pos_of_ne_zero hd, htxf⟩
  · have hidle : ts.irqPend = false := by
      rcases hs with ⟨hs, -⟩ | ⟨hs, -⟩ <;> simpa [hs] using hirq
    exact sequencerInv_enterPulse hidle htxf
  · have hge := hcnt hs
    refine ⟨hirq, hout, fun _ => ?_, htxf⟩
    show 1 ≤ (ts.cnt - 1#32).toNat
    bv_omega
  · exact ⟨by simp, by simp, by simp, htxf⟩

theorem sequencerInv_gatedStep (h : SequencerInv p ts) : SequencerInv p (gatedStep edge ts) := by
  cases hen : ts.en with
  | false => rw [gatedStep_disabled hen]; exact h
  | true => rw [gatedStep_enabled hen]; exact sequencerInv_sequencerStep h

/-- The step never makes the FIFO longer. -/
theorem gatedStep_txf_length : (gatedStep edge ts).txf.length ≤ ts.txf.length := by
  rcases gatedStep_txf (edge := edge) (ts := ts) with h | ⟨v, h⟩ <;> rw [h]
  exact Nat.le_succ _

/-- R28 says nothing of the edge sampler. -/
theorem SequencerInv.of_sampleEdge {e : Bool} (h : SequencerInv p ts) : SequencerInv p (sampleEdge e ts) :=
  { h with }

/-- A clear keeps R28: where nothing completes in the cycle, `FIRED` can only be left, and the flag falls. -/
theorem sequencerInv_clearIrq (h : SequencerInv p ts) : SequencerInv p (clearIrq ts (gatedStep edge ts)) := by
  have hstep := sequencerInv_gatedStep (edge := edge) h
  cases hf : entersFired ts (gatedStep edge ts) with
  | true => simpa [clearIrq, hf] using hstep
  | false =>
    by_cases hs : ts.sstate = .fired
    · have hout : ts.out = false := by simpa [hs] using h.out
      rw [gatedStep_fired hs] at hf ⊢
      simp only [clearIrq, hf, hs]
      exact ⟨by simp, by simp [hout], by simp, h.txf⟩
    · have hne : (gatedStep edge ts).sstate ≠ .fired := by simpa [entersFired, hs] using hf
      simp only [clearIrq, hf, hs]
      exact ⟨by simp [hne], hstep.out, hstep.cnt, hstep.txf⟩

/-- A parameter write keeps R28: the value goes in only where the cycle starts with room. -/
theorem sequencerInv_pushTxf {v : Word} (h : SequencerInv p ts) :
    SequencerInv p (pushTxf p v ts (gatedStep edge ts)) := by
  have hstep := sequencerInv_gatedStep (edge := edge) h
  have hlen := gatedStep_txf_length (edge := edge) (ts := ts)
  by_cases hfit : ts.txf.length < p.txfDepth
  · simp only [pushTxf, hfit, if_true]
    exact { hstep with txf := by simp only [List.length_append, List.length_singleton]; omega }
  · simp only [pushTxf, hfit, if_false]
    exact { hstep with }

/-- The whole cycle keeps R28, whatever its transaction proposes. -/
theorem sequencerInv_nextTs {e : Bool} {eff : BusEffect} (h : SequencerInv p ts) :
    SequencerInv p (nextTs p e eff ts) := by
  refine SequencerInv.of_sampleEdge ?_
  have hstep := sequencerInv_gatedStep (edge := edgeSeen p ts e) h
  cases eff with
  | setEnables en irqEn => exact { hstep with }
  | resetArm irqEn => exact ⟨by simp [applyToSequencer, resetArm], by simp [applyToSequencer, resetArm],
      by simp [applyToSequencer, resetArm], Nat.zero_le _⟩
  | pushTxf v => exact sequencerInv_pushTxf h
  | clearIrq => exact sequencerInv_clearIrq h
  | _ => exact hstep

end

/-- Every cycle keeps R28. -/
theorem sequencerInv_advance {s : State} (h : SequencerInv s.params s.ts) :
    SequencerInv (advance s).params (advance s).ts := by
  rw [advance_params]
  cases hr : resetCycleAt s with
  | true => rw [advance_ts_reset hr]; exact sequencerInv_reset _
  | false => rw [advance_ts hr]; exact sequencerInv_nextTs h

/-- Settles O47: a reset cycle makes R28 true, and every cycle after it keeps it. -/
theorem stepKeepsSequencerInvariant : Obligations.StepKeepsSequencerInvariant := by
  refine ⟨fun s t h hst => ?_, fun s n hr => ?_⟩
  · rw [step_next_iff.1 hst]
    exact sequencerInv_advance h
  · rw [after_succ']
    refine after_keeps (P := fun u => SequencerInv u.params u.ts) (fun _ => sequencerInv_advance) ?_ n
    rw [advance_ts_reset hr]
    exact sequencerInv_reset _

end Sys2Proof.Machine
end

section
/-! PROOF. Every invariant of the block together (10_state.md R26 to R28, and the stores' form): at reset, over one
cycle, and along every run. -/

namespace Sys2Proof.Machine

/-! ### The stores (20_memory.md R60) -/

/-- After reset the pattern stores are empty, and `QMem` keeps what it held. -/
theorem storesInv_reset {p : Params} {m : Memory} (hwf : m.wf = true)
    (hsize : m.below (queueSize p) = true) : StoresInv p (RelayQueue.reset p m) Detector.reset :=
  ⟨hwf, hsize, rfl, rfl, rfl, rfl⟩

theorem slotOf_lt (p : Params) (ptr : Nat) : slotOf p ptr < queueSize p :=
  Nat.mod_lt _ (queueSize_pos p)

/-- A cycle writes `QMem` at a slot of the queue and the pattern stores a word at a time. -/
theorem storesInv_cycle {p : Params} {q : RelayQueue} {port : Port} {pd : Detector} {eff : BusEffect}
    (h : StoresInv p q pd) : StoresInv p (nextRq p pd eff q) (nextPd p q port eff pd) := by
  obtain ⟨hq, hqs, hS, hSs, hA, hAs⟩ := h
  have hqmem : (nextRq p pd eff q).qmem.wf = true ∧
      (nextRq p pd eff q).qmem.below (queueSize p) = true := by
    rw [nextRq_qmem]
    split
    · exact ⟨Memory.wf_write hq, Memory.below_write hqs (slotOf_lt p _)⟩
    · exact ⟨hq, hqs⟩
  have hpatS : (nextPd p q port eff pd).patS.wf = true ∧
      (nextPd p q port eff pd).patS.below patternMax = true := by
    cases eff with
    | setPatWord k w => exact ⟨Memory.wf_writeWord hS, Memory.below_writeWord hSs⟩
    | _ => rw [nextPd_patS _ _ _ _ (by simp)]; exact ⟨hS, hSs⟩
  have hpatA : (nextPd p q port eff pd).patA.wf = true ∧
      (nextPd p q port eff pd).patA.below patternMax = true := by
    rw [nextPd_patA]
    split
    · exact ⟨hS, hSs⟩
    · exact ⟨hA, hAs⟩
  exact ⟨hqmem.1, hqmem.2, hpatS.1, hpatS.2, hpatA.1, hpatA.2⟩

/-- Every cycle keeps the stores' form. -/
theorem storesInv_advance {s : State} (h : StoresInv s.params s.rq s.pd) :
    StoresInv (advance s).params (advance s).rq (advance s).pd := by
  rw [advance_params]
  cases hr : resetCycleAt s with
  | true => rw [advance_rq_reset hr, advance_pd_reset hr]; exact storesInv_reset h.qmem h.qmemSize
  | false => rw [advance_rq hr, advance_pd hr]; exact storesInv_cycle h

/-! ### The whole block -/

theorem blockInv_resetWith {p : Params} (hp : p.wf) : BlockInv (State.resetWith p) :=
  ⟨hp, ⟨0, 0, _, _, queueCounts_reset p []⟩, detectorInv_reset, sequencerInv_reset p,
    storesInv_reset rfl rfl⟩

/-- Settles O56: each part's invariant holds of its reset values, and the reference parameters are legal. -/
theorem invariantsHoldAtReset : Obligations.InvariantsHoldAtReset :=
  ⟨fun _ hp => blockInv_resetWith hp, blockInv_resetWith reference_wf⟩

/-- Every cycle keeps every invariant. -/
theorem blockInv_advance {s : State} (h : BlockInv s) : BlockInv (advance s) where
  legal := by rw [advance_params]; exact h.legal
  queue := by rw [advance_params]; exact queueInv_advance (one_le_syncStages h.legal) h.queue
  detector := detectorInv_advance (one_le_directPulse h.legal) h.detector
  sequencer := sequencerInv_advance h.sequencer
  stores := storesInv_advance h.stores

/-- Settles O57, by induction on the cycles: each one keeps every part's invariant. -/
theorem invariantsHoldAlongEveryRun : Obligations.InvariantsHoldAlongEveryRun :=
  fun _ n h => after_keeps (P := BlockInv) (fun _ => blockInv_advance) h n

end Sys2Proof.Machine
end

section
/-! PROOF. What `QMem` holds at reset never shows (10_state.md R48, 40_cycle_step.md R128): a machine with another
storage stays the same machine with another storage, as long as the two storages agree on the bytes in the queue;
and every cycle keeps that agreement. -/

namespace Sys2Proof.Machine

/-- The machine with another storage in its queue. -/
def State.withQMem (s : State) (m : Memory) : State := { s with rq := { s.rq with qmem := m } }

/-- What the cycle from this state makes of a storage that stands in its queue: the push's byte goes in. -/
def nextStorage (s : State) (m : Memory) : Memory :=
  if pushAt s then m.write (slotOf s.params s.rq.wptr) s.pd.hold else m

/-- Two canonical storages agree on the slots of the counts from `R` to `W`, the bytes not yet popped. -/
structure StorageAgrees (p : Params) (R W : Nat) (m m' : Memory) : Prop where
  wf : m.wf = true
  wf' : m'.wf = true
  live : ∀ i, R ≤ i → i < W → m.read (i % queueSize p) = m'.read (i % queueSize p)

/-- Another storage is unseen in this state: it agrees with the machine's own on the bytes in the queue, by the
counts of R26. -/
def StorageUnseen (s : State) (m : Memory) : Prop :=
  ∃ (W R : Nat) (ws rs : List Nat), QueueCounts s.params s.rq W R ws rs ∧
    StorageAgrees s.params R W s.rq.qmem m

/-! ### One cycle with another storage -/

section
variable {s : State} {m : Memory}

@[simp] theorem nextStorage_reset (h : resetCycleAt s = true) : nextStorage s m = m := by
  simp [nextStorage, pushAt, h]

/-- The queue's storage after a cycle, a reset cycle or not. -/
theorem advance_qmem (s : State) : (advance s).rq.qmem = nextStorage s s.rq.qmem := by
  cases hr : resetCycleAt s with
  | true => rw [advance_rq_reset hr, nextStorage_reset hr]; rfl
  | false => rw [advance_rq hr, nextRq_qmem, nextStorage, pushAt_of_noReset hr]

/-- No proposal depends on the storage. -/
theorem effectOf_withQMem (i : Instr) : effectOf i (s.withQMem m) = effectOf i s := by
  cases i <;> rfl

/-- The only answer that looks at the storage is a popped byte. -/
theorem replyOf_withQMem (i : Instr)
    (h : canPop s.params s.rq = true → m.read (slotOf s.params s.rq.rptr) = headByte s.params s.rq) :
    replyOf i (s.withQMem m) = replyOf i s := by
  cases i with
  | rdQData =>
    cases hc : canPop s.params s.rq with
    | false =>
      have hc' : canPop (s.withQMem m).params (s.withQMem m).rq = false := hc
      simp [replyOf, hc, hc']
    | true =>
      have hc' : canPop (s.withQMem m).params (s.withQMem m).rq = true := hc
      have hb : headByte (s.withQMem m).params (s.withQMem m).rq = headByte s.params s.rq := h hc
      simp [replyOf, hc, hc', hb]
  | _ => rfl

/-- A cycle that looks at no byte where the storages differ is the same cycle with either of them. -/
theorem advance_withQMem
    (h : canPop s.params s.rq = true → m.read (slotOf s.params s.rq.rptr) = headByte s.params s.rq) :
    advance (s.withQMem m) = (advance s).withQMem (nextStorage s m) := by
  have hrow : rowAt (s.withQMem m) = rowAt s := rfl
  cases hr : resetCycleAt s with
  | true =>
    have hr' : resetCycleAt (s.withQMem m) = true := hr
    rw [advance_of_reset hr, advance_of_reset hr', nextStorage_reset hr]
    rfl
  | false =>
    have hr' : resetCycleAt (s.withQMem m) = false := hr
    rw [advance_of_noReset hr, advance_of_noReset hr', hrow, effectOf_withQMem, replyOf_withQMem _ h,
      nextStorage, pushAt_of_noReset hr]
    rfl

end

/-! ### The agreement -/

section
variable {p : Params} {R W : Nat} {m m' : Memory}

/-- A pop leaves fewer slots to agree on. -/
theorem StorageAgrees.of_pop (h : StorageAgrees p R W m m') {R' : Nat} (hR : R ≤ R') :
    StorageAgrees p R' W m m' :=
  { h with live := fun i hi => h.live i (hR.trans hi) }

/-- A push puts one byte into both storages, at the slot of the count `W`. -/
theorem StorageAgrees.of_push (h : StorageAgrees p R W m m') (b : Byte) :
    StorageAgrees p R (W + 1) (m.write (W % queueSize p) b) (m'.write (W % queueSize p) b) where
  wf := Memory.wf_write h.wf
  wf' := Memory.wf_write h.wf'
  live i hR hW := by
    by_cases hslot : i % queueSize p = W % queueSize p
    · rw [hslot, Memory.read_write_same h.wf, Memory.read_write_same h.wf']
    · have hne : i ≠ W := fun e => hslot (e ▸ rfl)
      rw [Memory.read_write_other hslot, Memory.read_write_other hslot]
      exact h.live i hR (by omega)

end

section
variable {s : State} {m : Memory}

/-- Right after reset no byte is in the queue, so any storage is unseen. -/
theorem storageUnseen_of_fresh (hf : QueueFresh s) (hwf : s.rq.qmem.wf = true) (hm : m.wf = true) :
    StorageUnseen s m :=
  ⟨0, 0, _, _, queueCounts_of_fresh hf, hwf, hm, fun i _ hi => absurd hi (Nat.not_lt_zero i)⟩

/-- A pop finds the same byte in a storage that is unseen. -/
theorem StorageUnseen.read_head (hS : 1 ≤ s.params.syncStages) (h : StorageUnseen s m)
    (hc : canPop s.params s.rq = true) :
    m.read (slotOf s.params s.rq.rptr) = headByte s.params s.rq := by
  obtain ⟨W, R, ws, rs, hq, ha⟩ := h
  obtain ⟨-, -, hWs, -⟩ := hq.bounds hS
  have hlevel : 0 < levelC s.params s.rq := by simpa [canPop] using hc
  rw [hq.levelC_eq hS] at hlevel
  rw [headByte, hq.rptr, slotOf_count]
  exact (ha.live R le_rfl (by omega)).symm

/-- Every cycle leaves an unseen storage unseen. -/
theorem StorageUnseen.of_advance (hS : 1 ≤ s.params.syncStages) (h : StorageUnseen s m) :
    StorageUnseen (advance s) (nextStorage s m) := by
  obtain ⟨W, R, ws, rs, hq, ha⟩ := h
  cases hr : resetCycleAt s with
  | true =>
    refine storageUnseen_of_fresh ?_ ?_ ?_
    · rw [QueueFresh, advance_params, advance_rq_reset hr]; rfl
    · rw [advance_qmem, nextStorage_reset hr]; exact ha.wf
    · rw [nextStorage_reset hr]; exact ha.wf'
  | false =>
    refine ⟨_, _, _, _, by rw [advance_params]; exact hq.of_advance hS hr, ?_⟩
    rw [advance_params, advance_qmem]
    refine StorageAgrees.of_pop (R := R) ?_ (Nat.le_add_right _ _)
    cases hp : pushAt s with
    | false => simpa [nextStorage, hp] using ha
    | true => simpa [nextStorage, hp, hq.wptr, slotOf_count] using ha.of_push s.pd.hold

/-- Along every run a machine with an unseen storage is the machine itself with another storage. -/
theorem after_withQMem (hp : s.params.wf) (h : StorageUnseen s m) (n : Nat) :
    ∃ m', after n (s.withQMem m) = (after n s).withQMem m' ∧ StorageUnseen (after n s) m' := by
  have hS : 1 ≤ (after n s).params.syncStages := by rw [after_params]; exact one_le_syncStages hp
  induction n with
  | zero => exact ⟨m, rfl, h⟩
  | succ n ih =>
    rw [after_succ, advance_params] at hS
    obtain ⟨m', he, hu⟩ := ih hS
    refine ⟨nextStorage (after n s) m', ?_, hu.of_advance hS⟩
    rw [after_succ, after_succ, he, advance_withQMem (hu.read_head hS)]

/-- Another storage is no other difference. -/
theorem sameButQMem_withQMem (s : State) (m : Memory) : SameButQMem s (s.withQMem m) := rfl

end

/-- Settles O23: after reset any storage is unseen, and an unseen storage is all that ever differs. -/
theorem queueStorageAtResetIsUnobservable : Obligations.QueueStorageAtResetIsUnobservable := by
  intro s m n hp hf hwf hm
  obtain ⟨m', he, -⟩ := after_withQMem hp (storageUnseen_of_fresh hf hwf hm) n
  show SameButQMem (after n s) (after n (s.withQMem m))
  rw [he]
  exact sameButQMem_withQMem _ _

end Sys2Proof.Machine
end

section
/-! PROOF. The three byte stores (20_memory.md R60): which bytes an instruction stores to, and that every step keeps
their form. -/

namespace Sys2Proof.Machine

/-! ### The bytes one cycle stores to -/

section
variable {p : Params} {q : RelayQueue} {port : Port} {eff : BusEffect} {pd : Detector} {a : Nat}

/-- A cycle leaves every byte of `QMem` but the slot of a push (R139). -/
theorem nextRq_qmem_read_other (h : pushes p q pd = true → a ≠ slotOf p q.wptr) :
    (nextRq p pd eff q).qmem.read a = q.qmem.read a := by
  rw [nextRq_qmem]
  split
  · next hp => exact Memory.read_write_other (h hp)
  · rfl

/-- A push stores the held byte in its slot (R139). -/
theorem nextRq_qmem_read_slot (hwf : q.qmem.wf = true) (hp : pushes p q pd = true) :
    (nextRq p pd eff q).qmem.read (slotOf p q.wptr) = pd.hold := by
  rw [nextRq_qmem, if_pos hp]
  exact Memory.read_write_same hwf

/-- A word write leaves every byte of another word, found by the byte's index divided by 4 (R161). -/
theorem Memory.read_writeWord_of_div_ne {m : Memory} {k : BitVec 5} {w : Word} (h : a / 4 ≠ k.toNat) :
    (m.writeWord k w).read a = m.read a :=
  Memory.read_writeWord_other fun j hj => by simp only [patByteIndex]; omega

/-- A cycle leaves every shadow pattern byte but those of the word written (R161). -/
theorem nextPd_patS_read_other (h : ∀ k w, eff = .setPatWord k w → a / 4 ≠ k.toNat) :
    (nextPd p q port eff pd).patS.read a = pd.patS.read a := by
  cases eff with
  | setPatWord k w => exact Memory.read_writeWord_of_div_ne (h k w rfl)
  | _ => rw [nextPd_patS _ _ _ _ (by simp)]

end

/-! ### The statements -/

/-- Settles O54: RST keeps `QMem` and empties the patterns; any other row is one cycle with its proposal. -/
theorem storesChangeOnlyWhereWritten : Obligations.StoresChangeOnlyWhereWritten := by
  intro i s t a h
  obtain rfl := exec_next_iff.1 h
  by_cases hi : i = .rst
  · subst hi
    exact ⟨fun _ => rfl, fun _ hne => absurd rfl hne, fun hne => absurd rfl hne,
      fun hne => absurd rfl hne, fun _ => ⟨rfl, rfl⟩⟩
  · rw [execState_of_ne hi, runCycle_rq, runCycle_pd]
    refine ⟨fun hkept => nextRq_qmem_read_other fun hp => ?_, fun hwf _ hd hf => ?_,
      fun _ hword => nextPd_patS_read_other fun k w he => ?_, fun _ => ?_, fun hrst => absurd hrst hi⟩
    · rcases hkept with hrst | hidle | hslot
      · exact absurd hrst hi
      · exact absurd ((pushes_iff _ _ _).1 hp) hidle
      · exact hslot
    · exact nextRq_qmem_read_slot hwf ((pushes_iff _ _ _).2 ⟨hd, hf⟩)
    · exact hword k w (effectOf_setPatWord.1 he)
    · simp only [nextPd_patA, effectOf_commit]
      split <;> rfl

/-- Settles O55: a step's next state is `advance`, which keeps the stores' form. -/
theorem stepKeepsStoresCanonical : Obligations.StepKeepsStoresCanonical := by
  intro s t h hstep
  rw [step_next_iff.1 hstep]
  exact storesInv_advance h

end Sys2Proof.Machine
end

section
/-! PROOF. What the fields of a frame read back as, and the frames of the port rows (30_encoding.md R86, R94, R95,
R97). -/

namespace Sys2Proof

open Sys2Proof.Machine
open Sys2Proof.Laws.EncodedFrame (frame_gap frame_top)

/-! ### The fields of a frame -/

section
variable (tag : FrameTag) (size : BitVec 2) (wdata : Word) (low : BitVec 13)

@[simp] theorem frame_low : (frame tag size wdata low).extractLsb' 0 13 = low :=
  BitVec.extractLsb'_append_eq_right

@[simp] theorem frame_wdata : (frame tag size wdata low).extractLsb' 16 32 = wdata := by
  refine (BitVec.extractLsb'_append_eq_of_le (by decide)).trans ?_
  refine (BitVec.extractLsb'_append_eq_of_le (by decide)).trans ?_
  exact BitVec.extractLsb'_append_eq_right

@[simp] theorem frame_tag : (frame tag size wdata low).extractLsb' 48 2 = tag.code := by
  refine (BitVec.extractLsb'_append_eq_of_le (by decide)).trans ?_
  refine (BitVec.extractLsb'_append_eq_of_le (by decide)).trans ?_
  refine (BitVec.extractLsb'_append_eq_of_le (by decide)).trans ?_
  exact BitVec.extractLsb'_append_eq_right

@[simp] theorem frame_size : (frame tag size wdata low).extractLsb' 50 2 = size ^^^ 2#2 := by
  refine (BitVec.extractLsb'_append_eq_of_le (by decide)).trans ?_
  refine (BitVec.extractLsb'_append_eq_of_le (by decide)).trans ?_
  refine (BitVec.extractLsb'_append_eq_of_le (by decide)).trans ?_
  refine (BitVec.extractLsb'_append_eq_of_le (by decide)).trans ?_
  exact BitVec.extractLsb'_append_eq_right

end

@[simp] theorem FrameTag.ofCode_code (tag : FrameTag) : ofCode tag.code = tag := by cases tag <;> rfl

/-- The size field is written and read by the same XOR. -/
@[simp] theorem size_xor_xor (size : BitVec 2) : size ^^^ 2#2 ^^^ 2#2 = size := by
  rw [BitVec.xor_assoc, BitVec.xor_self, BitVec.xor_zero]

@[simp] theorem key_we (r : Request) : r.key[12] = r.we := by
  cases h : r.we <;> simp only [Request.key, ← BitVec.getLsbD_eq_getElem, BitVec.getLsbD_append, h] <;> rfl

@[simp] theorem key_off (r : Request) : r.key.extractLsb' 0 12 = r.off :=
  BitVec.extractLsb'_append_eq_right

/-- The frame of a transaction decodes to what the transaction does. -/
theorem decodeFrame_request (r : Request) :
    decodeFrame (frame .bus r.size r.wdata r.key) = .ok (decodeRequest r) := by
  simp [decodeFrame, frame_gap, frame_top]

theorem decodeFrame_rxByte (d : Byte) : decodeFrame (encode (.rxByte d)) = .ok (.rxByte d) := by
  have hhigh : (0#4 ++ 1#1 ++ d).extractLsb' 9 4 = 0#4 :=
    (BitVec.extractLsb'_append_eq_of_le (by decide)).trans (by decide)
  have hvalid : (0#4 ++ 1#1 ++ d).getLsbD 8 = true := by
    rw [BitVec.getLsbD_append]; rfl
  have hdata : (0#4 ++ 1#1 ++ d).extractLsb' 0 8 = d := BitVec.extractLsb'_append_eq_right
  simp only [decodeFrame, encode, frame_gap, frame_top, frame_low, frame_wdata, frame_tag, frame_size,
    FrameTag.ofCode_code, size_xor_xor, hhigh, hvalid, hdata]
  rfl

theorem decodeFrame_edgeSample (e : Bool) :
    decodeFrame (encode (.edgeSample e)) = .ok (.edgeSample e) := by
  cases e <;> decide

theorem decodeFrame_rst : decodeFrame (encode .rst) = .ok .rst := by decide

/-- A bus row's frame is its request's. -/
theorem encode_of_requestOf {i : Instr} {r : Request} (h : requestOf i = some r) :
    encode i = frame .bus r.size r.wdata r.key := by
  cases i with
  | rxByte d => cases h
  | edgeSample e => cases h
  | rst => cases h
  | _ => rw [← Option.some.inj h]; rfl

end Sys2Proof
end

section
/-! PROOF. The rows of the table (30_encoding.md R86 to R92): which transactions a row matches, that no key matches two,
and that a row's own request decodes to the row. -/

namespace Sys2Proof

open Sys2Proof.Machine

/-! ### The offsets of the pattern words -/

theorem legalAccess_iff {size : BitVec 2} {off : BitVec 12} :
    legalAccess size off = true ↔ size = 2#2 ∧ off.extractLsb' 0 2 = 0#2 := by
  simp [legalAccess]

/-- The pattern words' block is the offsets with `off[11:7] = 2`. -/
theorem isPatWordOffset_iff (off : BitVec 12) :
    isPatWordOffset off = true ↔ off.extractLsb' 7 5 = 2#5 := by
  have hlt := off.isLt
  rw [← BitVec.toNat_inj, BitVec.extractLsb'_toNat, Nat.shiftRight_eq_div_pow]
  simp only [isPatWordOffset, Bool.and_eq_true, decide_eq_true_eq, BitVec.toNat_ofNat]
  omega

@[simp] theorem patIndex_patOffset (k : BitVec 5) : patIndex (patOffset k) = k := by
  decide +revert

/-- The mask of the pattern rows leaves the row's key of every pattern word's. -/
theorem patKey_and_mask (we : Bool) (k : BitVec 5) :
    keyOf we (patOffset k) &&& 0x1F83#13 = keyOf we 0x100#12 := by
  decide +revert

/-- An aligned offset in the pattern words' block is the offset of its word. -/
theorem patOffset_patIndex {off : BitVec 12} (hpat : isPatWordOffset off = true)
    (hword : off.extractLsb' 0 2 = 0#2) : patOffset (patIndex off) = off := by
  rw [isPatWordOffset_iff] at hpat
  have hmid : off.extractLsb' 7 5 ++ off.extractLsb' 2 5 = off.extractLsb' 2 10 :=
    BitVec.extractLsb'_append_extractLsb'_eq_extractLsb' rfl
  calc patOffset (patIndex off)
      = off.extractLsb' 7 5 ++ off.extractLsb' 2 5 ++ off.extractLsb' 0 2 := by rw [hpat, hword]; rfl
    _ = off.extractLsb' 2 10 ++ off.extractLsb' 0 2 := by rw [hmid]
    _ = off := BitVec.extractLsb'_append_extractLsb' (w := 10) (len := 2)

/-! ### The transactions a row matches -/

/-- The transaction with the write data of a read, which R85 ignores, at 0. -/
def Request.bare (r : Request) : Request := { r with wdata := if r.we then r.wdata else 0#32 }

/-- The accesses that a non-default row is for, by the offsets of R89. -/
def hasOwnRow (we : Bool) (off : BitVec 12) : Bool :=
  (if we then writeOffsets else readOffsets).contains off || isPatWordOffset off

/-- Every legal transaction that the row matches is the request of the instruction the row gives, an access with a
row of its own. -/
def RowGivesRequest (row : Row) : Prop :=
  ∀ r : Request, legalAccess r.size r.off = true → row.hits r.key = true →
    hasOwnRow r.we r.off = true ∧ requestOf (row.build (patIndex r.off) r.wdata) = some r.bare

/-- A row that matches one key. -/
theorem rowGivesRequest_of_key {row : Row} (we : Bool) (off : BitVec 12) (hown : hasOwnRow we off = true)
    (hmask : row.mask = 0x1FFF#13) (hmtch : row.mtch = keyOf we off)
    (hreq : ∀ k w, requestOf (row.build k w) = some ⟨we, off, 2#2, if we then w else 0#32⟩) :
    RowGivesRequest row := by
  intro r hlegal hhits
  have hkey : r.key = Request.key ⟨we, off, 2#2, 0#32⟩ := by
    rw [Row.hits, hmask, hmtch, beq_iff_eq] at hhits
    exact BitVec.and_allOnes.symm.trans hhits
  have hwe : r.we = we := by simpa using congrArg (·[12]) hkey
  have hoff : r.off = off := by simpa using congrArg (·.extractLsb' 0 12) hkey
  rw [hreq, Request.bare, hwe, hoff, (legalAccess_iff.1 hlegal).1]
  exact ⟨hown, rfl⟩

/-- A row that matches the keys of the pattern words. -/
theorem rowGivesRequest_of_patWord {row : Row} (we : Bool) (hmask : row.mask = 0x1F83#13)
    (hmtch : row.mtch = keyOf we 0x100#12)
    (hreq : ∀ k w, requestOf (row.build k w) = some ⟨we, patOffset k, 2#2, if we then w else 0#32⟩) :
    RowGivesRequest row := by
  intro r hlegal hhits
  obtain ⟨hsize, hword⟩ := legalAccess_iff.1 hlegal
  have hkey : r.key &&& 0x1F83#13 = Request.key ⟨we, 0x100#12, 2#2, 0#32⟩ := by
    rwa [Row.hits, hmask, hmtch, beq_iff_eq] at hhits
  have hwe : r.we = we := by simpa using congrArg (·[12]) hkey
  have hoff : r.off &&& 0xF83#12 = 0x100#12 := by
    simpa [BitVec.extractLsb'_and] using congrArg (·.extractLsb' 0 12) hkey
  have hpat : isPatWordOffset r.off = true := by
    rw [isPatWordOffset_iff, ← BitVec.and_allOnes (x := r.off.extractLsb' 7 5)]
    simpa [BitVec.extractLsb'_and] using congrArg (·.extractLsb' 7 5) hoff
  rw [hreq, Request.bare, patOffset_patIndex hpat hword, hwe, hsize]
  exact ⟨by rw [hasOwnRow, hpat, Bool.or_true], rfl⟩

/-- A row matches every legal access with a row of its own. -/
theorem exists_hit_of_hasOwnRow {r : Request} (hlegal : legalAccess r.size r.off = true)
    (hown : hasOwnRow r.we r.off = true) : ∃ row ∈ rows, row.hits r.key = true := by
  have hword : ∀ we : Bool, (if we then writeOffsets else readOffsets).all
      (fun off => rows.any (·.hits (keyOf we off))) = true := by decide
  have hpat : ∀ we, ∃ row ∈ rows, row.mask = 0x1F83#13 ∧ row.mtch = keyOf we 0x100#12 := by decide
  rw [hasOwnRow, Bool.or_eq_true, List.contains_iff_mem] at hown
  rcases hown with hmem | hblock
  · exact List.any_eq_true.1 (List.all_eq_true.1 (hword r.we) r.off hmem)
  · obtain ⟨row, hrow, hmask, hmtch⟩ := hpat r.we
    have hkey := patKey_and_mask r.we (patIndex r.off)
    rw [patOffset_patIndex hblock (legalAccess_iff.1 hlegal).2] at hkey
    exact ⟨row, hrow, by rw [Row.hits, hmask, hmtch]; exact beq_iff_eq.2 hkey⟩

/-- Every row of the table matches the requests of its own instructions alone. -/
theorem rows_giveRequest : ∀ row ∈ rows, RowGivesRequest row := by
  simp only [rows, rowsRq, rowsPd, rowsTs, List.cons_append, List.nil_append, List.forall_mem_cons,
    List.not_mem_nil, false_implies, implies_true, and_true]
  exact ⟨rowGivesRequest_of_key false 0x000#12 rfl rfl rfl fun _ _ => rfl,
    rowGivesRequest_of_key false 0x004#12 rfl rfl rfl fun _ _ => rfl,
    rowGivesRequest_of_key false 0x008#12 rfl rfl rfl fun _ _ => rfl,
    rowGivesRequest_of_key false 0x00C#12 rfl rfl rfl fun _ _ => rfl,
    rowGivesRequest_of_key true 0x00C#12 rfl rfl rfl fun _ _ => rfl,
    rowGivesRequest_of_key false 0x040#12 rfl rfl rfl fun _ _ => rfl,
    rowGivesRequest_of_key true 0x040#12 rfl rfl rfl fun _ _ => rfl,
    rowGivesRequest_of_key true 0x044#12 rfl rfl rfl fun _ _ => rfl,
    rowGivesRequest_of_key false 0x048#12 rfl rfl rfl fun _ _ => rfl,
    rowGivesRequest_of_key false 0x04C#12 rfl rfl rfl fun _ _ => rfl,
    rowGivesRequest_of_patWord false rfl rfl fun _ _ => rfl,
    rowGivesRequest_of_patWord true rfl rfl fun _ _ => rfl,
    rowGivesRequest_of_key false 0x080#12 rfl rfl rfl fun _ _ => rfl,
    rowGivesRequest_of_key true 0x080#12 rfl rfl rfl fun _ _ => rfl,
    rowGivesRequest_of_key true 0x084#12 rfl rfl rfl fun _ _ => rfl,
    rowGivesRequest_of_key false 0x088#12 rfl rfl rfl fun _ _ => rfl,
    rowGivesRequest_of_key true 0x08C#12 rfl rfl rfl fun _ _ => rfl,
    rowGivesRequest_of_key false 0x090#12 rfl rfl rfl fun _ _ => rfl,
    rowGivesRequest_of_key false 0x094#12 rfl rfl rfl fun _ _ => rfl,
    rowGivesRequest_of_key false 0x098#12 rfl rfl rfl fun _ _ => rfl⟩

/-! ### No key matches two rows (R87) -/

/-- The two rows' keys differ in a bit that both masks look at, so no key matches both. -/
def Row.disjoint (a b : Row) : Prop := a.mtch &&& b.mask ≠ b.mtch &&& a.mask

theorem rows_pairwise_disjoint : rows.Pairwise Row.disjoint := by
  unfold Row.disjoint; decide

theorem Row.not_hits_of_disjoint {a b : Row} (h : a.disjoint b) {key : BitVec 13}
    (ha : a.hits key = true) : b.hits key = false := by
  refine Bool.eq_false_iff.2 fun hb => h ?_
  rw [Row.hits, beq_iff_eq] at ha hb
  rw [← ha, ← hb, BitVec.and_assoc, BitVec.and_assoc, BitVec.and_comm a.mask]

/-- At most one row matches a key. -/
theorem length_filter_hits_le_one (key : BitVec 13) : (rows.filter (·.hits key)).length ≤ 1 := by
  have hpw := rows_pairwise_disjoint.filter (·.hits key)
  have hall : ∀ row ∈ rows.filter (·.hits key), row.hits key = true := fun _ h => (List.mem_filter.1 h).2
  generalize rows.filter (·.hits key) = hitting at hpw hall ⊢
  match hitting with
  | [] => simp
  | [_] => simp
  | a :: b :: _ =>
    have hb : b.hits key = false :=
      Row.not_hits_of_disjoint (List.rel_of_pairwise_cons hpw List.mem_cons_self) (hall a (by simp))
    simp [hall b (by simp)] at hb

/-- A row that matches the key is the one the table's order finds. -/
theorem find_hits {row : Row} {key : BitVec 13} (hrow : row ∈ rows) (hhits : row.hits key = true) :
    rows.find? (·.hits key) = some row := by
  have hmem : row ∈ rows.filter (·.hits key) := List.mem_filter.2 ⟨hrow, hhits⟩
  obtain ⟨row', hone⟩ : ∃ row', rows.filter (·.hits key) = [row'] :=
    List.length_eq_one_iff.1
      (le_antisymm (length_filter_hits_le_one key) (List.length_pos_of_mem hmem))
  rw [← List.head?_filter, hone, List.head?_cons]
  rw [hone, List.mem_singleton] at hmem
  rw [hmem]

/-- A legal transaction is the instruction of whichever row matches. -/
theorem decodeRequest_of_hits {row : Row} {r : Request} (hlegal : legalAccess r.size r.off = true)
    (hrow : row ∈ rows) (hhits : row.hits r.key = true) :
    decodeRequest r = row.build (patIndex r.off) r.wdata := by
  simp [decodeRequest, hlegal, find_hits hrow hhits]

/-- A legal transaction that no row matches is the default row's. -/
theorem decodeRequest_of_no_hit {r : Request} (hlegal : legalAccess r.size r.off = true)
    (hnone : ∀ row ∈ rows, row.hits r.key = false) :
    decodeRequest r = if r.we then .wrReserved r.off r.wdata else .rdReserved r.off := by
  rcases decodeRequest_legal hlegal with ⟨row, hrow, hhits, -⟩ | ⟨-, he⟩
  · simp [hnone row hrow] at hhits
  · exact he

/-! ### A transaction and its instruction -/

/-- The default rows' offsets are the aligned ones without a row of their own (R87, R90). -/
theorem wf_reserved (we : Bool) (off : BitVec 12) (w : Word) :
    (if we then Instr.wrReserved off w else .rdReserved off).wf =
      (legalAccess 2#2 off && !hasOwnRow we off) := by
  cases we <;> simp [Instr.wf, hasOwnRow, Bool.and_assoc]

/-- A legal access is some row's exactly when it has a row of its own. -/
theorem no_hit_iff {r : Request} (hlegal : legalAccess r.size r.off = true) :
    (∀ row ∈ rows, row.hits r.key = false) ↔ hasOwnRow r.we r.off = false := by
  constructor
  · intro hnone
    by_contra hown
    obtain ⟨row, hrow, hhits⟩ := exists_hit_of_hasOwnRow hlegal (by simpa using hown)
    simp [hnone row hrow] at hhits
  · intro hown row hrow
    by_contra hhits
    have h := (rows_giveRequest row hrow r hlegal (by simpa using hhits)).1
    simp [hown] at h

/-- Every transaction decodes to a well-formed row (R87, R92). -/
theorem wf_decodeRequest (r : Request) : (decodeRequest r).wf = true := by
  cases hlegal : legalAccess r.size r.off with
  | false => rw [decodeRequest_illegal hlegal]; simp [Instr.wf, hlegal]
  | true =>
    rcases decodeRequest_legal hlegal with ⟨row, hrow, -, he⟩ | ⟨hnone, he⟩
    · have hwf : ∀ row ∈ rows, ∀ k w, (row.build k w).wf = true := by
        simp [rows, rowsRq, rowsPd, rowsTs, Instr.wf]
      rw [he, hwf row hrow]
    · rw [he, wf_reserved, (no_hit_iff hlegal).1 hnone, ← (legalAccess_iff.1 hlegal).1, hlegal]
      rfl

/-- The instruction of a legal transaction stands for that transaction. -/
theorem requestOf_decodeRequest_legal {r : Request} (hlegal : legalAccess r.size r.off = true) :
    requestOf (decodeRequest r) = some r.bare := by
  rcases decodeRequest_legal hlegal with ⟨row, hrow, hhits, he⟩ | ⟨-, he⟩
  · rw [he, (rows_giveRequest row hrow r hlegal hhits).2]
  · rw [he, Request.bare, (legalAccess_iff.1 hlegal).1]
    cases r.we <;> rfl

/-- An illegal transaction is kept whole in its BUS_ERROR. -/
theorem requestOf_decodeRequest_illegal {r : Request} (h : legalAccess r.size r.off = false) :
    requestOf (decodeRequest r) = some r := by
  rw [decodeRequest_illegal h]; rfl

/-- An aligned access at an offset of the table is the instruction of the row that the table finds for its key. -/
theorem decodeRequest_of_find {we : Bool} {off : BitVec 12} {w : Word} {row : Row}
    (hlegal : legalAccess 2#2 off = true) (hfind : rows.find? (·.hits (keyOf we off)) = some row) :
    decodeRequest ⟨we, off, 2#2, w⟩ = row.build (patIndex off) w := by
  have hkey : Request.key ⟨we, off, 2#2, w⟩ = keyOf we off := rfl
  simp [decodeRequest, hlegal, hkey, hfind]

/-- A pattern word's request decodes to its row. -/
theorem decodeRequest_patOffset {row : Row} (hrow : row ∈ rows) (we : Bool)
    (hmask : row.mask = 0x1F83#13) (hmtch : row.mtch = keyOf we 0x100#12) (k : BitVec 5) (w : Word) :
    decodeRequest ⟨we, patOffset k, 2#2, w⟩ = row.build k w := by
  have hlegal : legalAccess 2#2 (patOffset k) = true := by decide +revert
  have hhits : row.hits (keyOf we (patOffset k)) = true := by
    rw [Row.hits, hmask, hmtch, patKey_and_mask, beq_self_eq_true]
  rw [decodeRequest_of_hits (r := ⟨we, patOffset k, 2#2, w⟩) hlegal hrow hhits, patIndex_patOffset]

/-- An access to a default row's offset decodes to the default row. -/
theorem decodeRequest_reserved {we : Bool} {off : BitVec 12} {w : Word}
    (hwf : (if we then Instr.wrReserved off w else .rdReserved off).wf = true) :
    decodeRequest ⟨we, off, 2#2, w⟩ = if we then .wrReserved off w else .rdReserved off := by
  rw [wf_reserved, Bool.and_eq_true, Bool.not_eq_true'] at hwf
  obtain ⟨hlegal, hown⟩ := hwf
  exact decodeRequest_of_no_hit (r := ⟨we, off, 2#2, w⟩) hlegal ((no_hit_iff hlegal).2 hown)

/-- A well-formed bus row's request decodes to the row. -/
theorem decodeRequest_requestOf {i : Instr} {r : Request} (hwf : i.wf = true)
    (h : requestOf i = some r) : decodeRequest r = i := by
  cases i with
  | rdDetPatWord k =>
    cases h
    exact decodeRequest_patOffset (row := ⟨0x0100#13, 0x1F83#13, fun k _ => .rdDetPatWord k⟩)
      (by simp [rows, rowsPd]) false rfl rfl k 0#32
  | wrDetPatWord k w =>
    cases h
    exact decodeRequest_patOffset (row := ⟨0x1100#13, 0x1F83#13, fun k w => .wrDetPatWord k w⟩)
      (by simp [rows, rowsPd]) true rfl rfl k w
  | rdReserved off => cases h; exact decodeRequest_reserved (we := false) (w := 0#32) hwf
  | wrReserved off w => cases h; exact decodeRequest_reserved (we := true) hwf
  | busError we off size w =>
    cases h
    simp only [Instr.wf, Bool.not_eq_true'] at hwf
    exact decodeRequest_illegal hwf
  | rxByte d => cases h
  | edgeSample e => cases h
  | rst => cases h
  | _ => cases h; exact (decodeRequest_of_find (row := _) rfl rfl).trans rfl

end Sys2Proof
end

section
/-! PROOF. The round trip of the encoding (30_encoding.md R85 to R97) and the cycle a table word is placed as. -/

namespace Sys2Proof

open Sys2Proof.Machine

/-! ### The frame of an instruction -/

/-- A row with no request is a port row, and its frame decodes to it. -/
theorem decodeFrame_encode_port {i : Instr} (h : requestOf i = none) : decodeFrame (encode i) = .ok i := by
  cases i with
  | rxByte d => exact decodeFrame_rxByte d
  | edgeSample e => exact decodeFrame_edgeSample e
  | rst => exact decodeFrame_rst
  | _ => cases h

/-- The frame of a well-formed instruction decodes to it. -/
theorem decodeFrame_encode {i : Instr} (hwf : i.wf = true) : decodeFrame (encode i) = .ok i := by
  cases h : requestOf i with
  | none => exact decodeFrame_encode_port h
  | some r => rw [encode_of_requestOf h, decodeFrame_request, decodeRequest_requestOf hwf h]

/-- Settles O3: the bytes give back the frame, and the frame the instruction. -/
theorem decodeOfEncodeIsTheInstruction : Obligations.DecodeOfEncodeIsTheInstruction := by
  intro i rest hwf
  rw [encodeBytes, decode_frameBytes, decodeFrame_encode hwf]

/-- Settles O2: the masks keep the rows apart, so the order of R87's search does not matter. -/
theorem decodingFollowsTheTable : Obligations.DecodingFollowsTheTable := by
  intro r
  refine ⟨fun h => decodeRequest_illegal ?_, length_filter_hits_le_one r.key, fun hsize hword => ?_⟩
  · rw [← Bool.not_eq_true, legalAccess_iff]
    tauto
  · have hlegal := legalAccess_iff.2 ⟨hsize, hword⟩
    refine ⟨fun row hrow hhits => decodeRequest_of_hits hlegal hrow (beq_iff_eq.2 hhits), fun hnone => ?_⟩
    exact decodeRequest_of_no_hit hlegal fun row hrow => beq_eq_false_iff_ne.2 (hnone row hrow)

/-- Settles O4: the request of the decoded row is the transaction, and a well-formed row's request decodes to it. -/
theorem everyTransactionIsOneRow : Obligations.EveryTransactionIsOneRow := by
  intro r
  have hwf := wf_decodeRequest r
  cases hlegal : legalAccess r.size r.off with
  | false =>
    have hreq := requestOf_decodeRequest_illegal hlegal
    exact ⟨hwf, r, hreq, rfl, rfl, rfl, rfl, fun _ => rfl⟩
  | true =>
    have hreq := requestOf_decodeRequest_legal hlegal
    exact ⟨hwf, r.bare, hreq, decodeRequest_requestOf hwf hreq, rfl, rfl, rfl,
      fun hwe => by rw [Request.bare, if_pos hwe]⟩

/-! ### A table word as the next cycle -/

/-- What a frame decodes to is a well-formed row. -/
theorem wf_of_decodeFrame {w : BitVec 64} {i : Instr} (h : decodeFrame w = .ok i) : i.wf = true := by
  simp only [decodeFrame] at h
  split at h
  · cases h
  · generalize FrameTag.ofCode (w.extractLsb' 48 2) = tag at h
    cases tag with
    | bus => cases h; exact wf_decodeRequest _
    | rx => dsimp only at h; split_ifs at h; cases h; rfl
    | edge => dsimp only at h; split_ifs at h; cases h; rfl
    | rst => dsimp only at h; split_ifs at h; cases h; rfl

/-- What a table word decodes to is a well-formed row. -/
theorem wf_of_decodeTableWord {nbits w : Nat} {i : Instr} (h : decodeTableWord nbits w = some i) :
    i.wf = true := by
  have hbytes := decode_frameBytes (BitVec.ofNat 64 (w % 2 ^ nbits)) []
  simp only [decodeTableWord] at h
  split at h
  · next hlt =>
    rw [List.append_nil, BitVec.toNat_ofNat, Nat.mod_eq_of_lt hlt] at hbytes
    rw [hbytes] at h
    cases hf : decodeFrame (BitVec.ofNat 64 (w % 2 ^ nbits)) with
    | ok j => simp only [hf, Option.some.injEq] at h; exact h ▸ wf_of_decodeFrame hf
    | error e => simp [hf] at h
  · cases h

namespace Machine

/-- A well-formed instruction leads the cycle it is placed as. -/
theorem leadInstr_inputOf {i : Instr} (level : Bool) (hwf : i.wf = true) :
    leadInstr (inputOf level i) = i := by
  cases h : requestOf i with
  | some r => rw [inputOf_bus level h, leadInstr_busInput, decodeRequest_requestOf hwf h]
  | none =>
    cases i with
    | rxByte d => exact leadInstr_rxByte level d
    | edgeSample e => exact leadInstr_edgeSample level e
    | rst => exact leadInstr_rst level
    | _ => cases h

/-- A step from a state with a cycle placed first runs that cycle's row. -/
theorem step_place (s : State) (c : CycleIn) :
    step (s.place c) = exec (leadInstr c) { s with port := portOf c } := rfl

end Machine

/-- Settles O6: the placed cycle leads with the decoded instruction. -/
theorem fetchedWordRuns : Obligations.FetchedWordRuns := by
  intro s nbits w i h
  have hplace : s.withFetchWord nbits w = s.place (inputOf s.ts.prev i) := by simp [State.withFetchWord, h]
  rw [hplace, step_place, leadInstr_inputOf _ (wf_of_decodeTableWord h)]

/-- Settles O1: each word is a literal, and the decoder is run on it. -/
theorem specWordsDecodeToTheirRows : Obligations.SpecWordsDecodeToTheirRows :=
  ⟨by decide, by decide, by decide, by decide, by decide, by decide, by decide, by decide, by decide,
    by decide, by decide, by decide, by decide⟩

end Sys2Proof
end

section
/-! PROOF. The reserved accesses (30_encoding.md R90) and the sequencer's step in a cycle that samples the edge
(30_encoding.md R95, 43_timing_sequencer.md R196 to R204). -/

namespace Sys2Proof.Machine

/-! ### Reserved accesses -/

theorem exec_rdReserved (off : BitVec 12) (s : State) :
    ∃ t, exec (.rdReserved off) s = .next t ∧ AnswersOkay t 0#32 ∧ NoBusEffect s t :=
  ⟨_, exec_eq _ s, rfl, rfl, rfl, rfl, rfl⟩

theorem exec_wrReserved (off : BitVec 12) (w : Word) (s : State) :
    ∃ t, exec (.wrReserved off w) s = .next t ∧ AnswersOkay t 0#32 ∧ NoBusEffect s t :=
  ⟨_, exec_eq _ s, rfl, rfl, rfl, rfl, rfl⟩

/-- Settles O49: an aligned word access that no row matches is a default row. -/
theorem reservedAccessesDoNothing : Obligations.ReservedAccessesDoNothing := by
  refine ⟨fun off w s => ⟨exec_rdReserved off s, exec_wrReserved off w s⟩, fun r s hsize hword hnone => ?_⟩
  rw [decodeRequest_of_no_hit (legalAccess_iff.2 ⟨hsize, hword⟩)
    fun row hrow => beq_eq_false_iff_ne.2 (hnone row hrow)]
  cases r.we
  · exact exec_rdReserved r.off s
  · exact exec_wrReserved r.off r.wdata s

/-! ### The step, by state -/

section
variable {edge : Bool} {ts : Sequencer}

theorem sequencerStep_idle {v : Word} {rest : List Word} (hs : ts.sstate = .idle) (ht : ts.txf = v :: rest) :
    sequencerStep edge ts = { ts with dly := v, txf := rest, sstate := .loadWidth } := by
  simp [sequencerStep, hs, ht]

theorem sequencerStep_loadWidth {v : Word} {rest : List Word} (hs : ts.sstate = .loadWidth)
    (ht : ts.txf = v :: rest) :
    sequencerStep edge ts = { ts with wid := v, txf := rest, sstate := .waitEdge } := by
  simp [sequencerStep, hs, ht]

theorem sequencerStep_noParameter (hs : ts.sstate = .idle ∨ ts.sstate = .loadWidth) (ht : ts.txf = []) :
    sequencerStep edge ts = ts := by
  rcases hs with hs | hs <;> simp [sequencerStep, hs, ht]

theorem sequencerStep_noEdge (hs : ts.sstate = .waitEdge) (he : edge = false) : sequencerStep edge ts = ts := by
  simp [sequencerStep, hs, he]

theorem sequencerStep_edge_delay (hs : ts.sstate = .waitEdge) (he : edge = true) (hd : ts.dly ≠ 0#32) :
    sequencerStep edge ts = { ts with sstate := .delay, cnt := ts.dly } := by
  simp [sequencerStep, hs, he, hd]

theorem sequencerStep_edge_noDelay (hs : ts.sstate = .waitEdge) (he : edge = true) (hd : ts.dly = 0#32) :
    sequencerStep edge ts = enterPulse ts := by
  simp [sequencerStep, hs, he, hd]

theorem sequencerStep_delayOver (hs : ts.sstate = .delay) (hc : ts.cnt = 1#32) :
    sequencerStep edge ts = enterPulse ts := by
  simp [sequencerStep, hs, hc]

theorem sequencerStep_pulseOver (hs : ts.sstate = .pulse) (hc : ts.cnt = 1#32) :
    sequencerStep edge ts = { ts with out := false, cnt := 0#32, sstate := .fired, irqPend := true } := by
  simp [sequencerStep, hs, hc]

theorem sequencerStep_count (hs : ts.sstate = .delay ∨ ts.sstate = .pulse) (hc : ts.cnt ≠ 1#32) :
    sequencerStep edge ts = { ts with cnt := ts.cnt - 1#32 } := by
  rcases hs with hs | hs <;> simp [sequencerStep, hs, hc]

theorem sequencerStep_fired (hs : ts.sstate = .fired) : sequencerStep edge ts = ts := by
  simp [sequencerStep, hs]

end

/-- A pulse that begins in a cycle, with the cycle's sample. -/
theorem sampleEdge_enterPulse (e : Bool) (ts : Sequencer) : sampleEdge e (enterPulse ts) =
    if ts.wid = 0#32 then
      { sampleEdge e ts with sstate := .fired, cnt := 0#32, out := false, irqPend := true }
    else { sampleEdge e ts with sstate := .pulse, cnt := ts.wid, out := true } := by
  unfold enterPulse; split <;> rfl

/-- Settles O40: with `en = 0` only the sample acts; with `en = 1` each clause is a branch of the step, under the
sample. -/
theorem sequencerTakesItsStep : Obligations.SequencerTakesItsStep := by
  intro e s
  refine ⟨execState (.edgeSample e) s, exec_eq _ s, rfl, ?_⟩
  have hts : (execState (.edgeSample e) s).ts = sampleEdge e (gatedStep (edgeSeen s.params s.ts e) s.ts) := rfl
  rw [hts]
  refine ⟨fun hen => by rw [gatedStep_disabled hen]; rfl, fun hen => ?_, rfl, rfl⟩
  rw [gatedStep_enabled hen, ← edgeSeen_iff]
  refine ⟨fun v rest hs ht => ?_, fun v rest hs ht => ?_, fun hs ht => ?_, fun hs he => ?_,
    fun hs he hd => ?_, fun hs he hd => ?_, fun hs hc => ?_, fun hs hc => ?_, fun hs hc => ?_, fun hs => ?_⟩
  · rw [sequencerStep_idle hs ht]; rfl
  · rw [sequencerStep_loadWidth hs ht]; rfl
  · rw [sequencerStep_noParameter hs ht]; rfl
  · rw [sequencerStep_noEdge hs (by simpa using he)]; rfl
  · rw [sequencerStep_edge_delay hs he hd]; rfl
  · rw [sequencerStep_edge_noDelay hs he hd, sampleEdge_enterPulse]; rfl
  · rw [sequencerStep_delayOver hs hc, sampleEdge_enterPulse]; rfl
  · rw [sequencerStep_pulseOver hs hc]; rfl
  · rw [sequencerStep_count hs hc]; rfl
  · rw [sequencerStep_fired hs]; rfl

end Sys2Proof.Machine
end

section
/-! PROOF. One cycle as a whole (40_cycle_step.md R120 to R127): which row a cycle runs, that no run stops, and what
stands at the output ports. -/

namespace Sys2Proof.Machine

/-! ### The row of a cycle (R121 to R123) -/

section
variable {c : CycleIn}

theorem leadInstr_of_rst (hrst : c.rst = true) : leadInstr c = .rst := by
  simp [leadInstr, hrst]

theorem leadInstr_of_bus {r : Request} (hrst : c.rst = false) (hbus : c.bus = some r) :
    leadInstr c = decodeRequest r := by
  simp [leadInstr, hrst, hbus]

theorem leadInstr_of_byte (hrst : c.rst = false) (hbus : c.bus = none) (hrx : c.rxValid = true) :
    leadInstr c = .rxByte c.rxData := by
  simp [leadInstr, hrst, hbus, hrx]

theorem leadInstr_of_noByte (hrst : c.rst = false) (hbus : c.bus = none) (hrx : c.rxValid = false) :
    leadInstr c = .edgeSample c.edgeIn := by
  simp [leadInstr, hrst, hbus, hrx]

end

/-- A step runs the row of the first placed cycle, with its levels at the ports and the rest still to come. -/
theorem step_of_inputs_cons {s : State} {c : CycleIn} {cs : List CycleIn} (h : s.inputs = c :: cs) :
    step s = exec (leadInstr c) { s with inputs := cs, port := portOf c } := by
  simp [step, State.present, State.nextInput, h]

/-- With no cycle placed, a step is the step with the free cycle placed. -/
theorem step_of_inputs_nil {s : State} (h : s.inputs = []) :
    step s = step { s with inputs := [Config.freeInput s.cycles] } := by
  simp [step, State.present, State.nextInput, h]

/-- Settles O5: the row is `leadInstr` of the placed cycle, and each clause is one of its branches. -/
theorem stepRunsTheDecodedInstruction : Obligations.StepRunsTheDecodedInstruction := by
  refine ⟨fun s => step_of_inputs_nil, fun s c cs h => ?_⟩
  rw [step_of_inputs_cons h]
  refine ⟨fun hrst => ?_, fun r hrst hbus => ?_, fun hrst hbus hrx => ?_, fun hrst hbus hrx => ?_⟩
  · rw [leadInstr_of_rst hrst]; rfl
  · rw [leadInstr_of_bus hrst hbus]; rfl
  · rw [leadInstr_of_byte hrst hbus hrx]; rfl
  · rw [leadInstr_of_noByte hrst hbus hrx]; rfl

/-! ### Runs (R127) -/

theorem step_eq_advance (s : State) : step s = .next (advance s) :=
  step_next_iff.2 rfl

/-- Where a step answers a next state, the run goes on from there. -/
theorem run_succ_of_next {M : Host.Core} {s t : M.State} (h : M.step s = .next t) (n : Nat) :
    M.run (n + 1) s = M.run n t := by
  rw [Host.Core.run, h]

/-- One more cycle of a run is the cycle first and then the run. -/
theorem run_succ (n : Nat) (s : State) : Host.Core.run core (n + 1) s = Host.Core.run core n (advance s) :=
  run_succ_of_next (step_eq_advance s) n

/-- Settles O7, by induction on the cycles, from every state: a step answers a next state and the run goes on
from there. -/
theorem runsNeverStop : Obligations.RunsNeverStop := by
  intro n
  induction n with
  | zero => exact fun _ => rfl
  | succ n ih => exact fun s => by rw [run_succ, ih, after_succ']

/-! ### The output ports (R125, R261) -/

@[simp] theorem resetCycle_out (s : State) : (resetCycle s).out =
    CycleOut.reset (if s.port.busValid then some (Reply.ok 0#32) else none) := rfl

/-- Every row but RST leaves at the ports what the state at the cycle's start puts there. -/
theorem execState_out {i : Instr} (h : i ≠ .rst) (s : State) :
    (execState i s).out = outputsOf s (replyOf i s) := by
  rw [execState_of_ne h, runCycle_out]

/-- Settles O8: RST leaves the outputs of a reset cycle, every other row those of the state. -/
theorem outputsAreFunctionsOfTheState : Obligations.OutputsAreFunctionsOfTheState := by
  intro i s
  refine ⟨execState i s, exec_eq i s, fun hne => ?_, fun hrst => ?_⟩
  · rw [execState_out hne]
    exact ⟨beq_eq_decide _ _, rfl, rfl, rfl⟩
  · rw [hrst, execState_rst, resetCycle_out]
    exact ⟨rfl, rfl, rfl, rfl, rfl⟩

end Sys2Proof.Machine
end

section
/-! PROOF. What R26 says of the queue in one state (41_relay_queue.md R147, R150, R153): the levels as differences of
counts, the gray-code tests, and the slots of a push and a pop. -/

namespace Sys2Proof.Machine

/-! ### Residues and gray codes -/

/-- Two counts less than the modulus apart are equal where their residues are. -/
theorem eq_of_mod_eq_of_lt_add {m x y : Nat} (h : x % m = y % m) (hle : y ≤ x) (hlt : x < y + m) : x = y := by
  have hdvd : m ∣ x - y := (Nat.modEq_iff_dvd' hle).1 h.symm
  have hzero := Nat.eq_zero_of_dvd_of_lt hdvd (by omega)
  omega

/-- Adding half the modulus flips the top bit of a pointer. -/
theorem add_two_pow_mod (a x : Nat) : (x + 2 ^ a) % 2 ^ (a + 1) = x % 2 ^ (a + 1) ^^^ 2 ^ a := by
  refine Nat.eq_of_testBit_eq fun i => ?_
  rw [Nat.testBit_xor, Nat.testBit_mod_two_pow, Nat.testBit_mod_two_pow, Nat.testBit_two_pow, Nat.add_comm x]
  rcases Nat.lt_trichotomy i a with hlt | rfl | hgt
  · rw [Nat.testBit_two_pow_add_gt hlt]
    simp [show a ≠ i by omega]
  · rw [Nat.testBit_two_pow_add_eq]
    simp
  · simp [show ¬ i < a + 1 by omega, show a ≠ i by omega]

theorem gray_xor (x y : Nat) : gray (x ^^^ y) = gray x ^^^ gray y := by
  simp only [gray, Nat.shiftRight_xor_distrib]
  ac_rfl

/-- The gray code of the queue's size is the two top bits of a pointer (R150). -/
theorem gray_two_pow {a : Nat} (ha : 1 ≤ a) : gray (2 ^ a) = 3 <<< (a - 1) := by
  obtain ⟨k, rfl⟩ := Nat.exists_eq_add_of_le' ha
  have hshift : (2 ^ (k + 1)) >>> 1 = 2 ^ k := by
    rw [Nat.shiftRight_eq_div_pow, Nat.pow_succ]; omega
  have hthree : 3 <<< k = (2 <<< k) ^^^ (1 <<< k) := Nat.shiftLeft_xor_distrib (a := 2) (b := 1)
  rw [gray, hshift, Nat.add_sub_cancel, hthree, Nat.shiftLeft_eq, Nat.shiftLeft_eq, Nat.pow_succ', Nat.one_mul]

/-- The gray code of the pointer a whole queue ahead. -/
theorem gray_add_queueSize {p : Params} (ha : 1 ≤ p.a) (n : Nat) :
    gray ((n + queueSize p) % ptrModulus p) = gray (n % ptrModulus p) ^^^ (3 <<< (p.a - 1)) := by
  rw [queueSize, ptrModulus, add_two_pow_mod, gray_xor, gray_two_pow ha]

/-- Two counts less than the modulus apart are equal exactly where their gray codes are. -/
theorem gray_count_eq_iff {p : Params} {x y : Nat} (hle : y ≤ x) (hlt : x < y + ptrModulus p) :
    gray (x % ptrModulus p) = gray (y % ptrModulus p) ↔ x = y := by
  refine ⟨fun h => eq_of_mod_eq_of_lt_add ?_ hle hlt, fun h => h ▸ rfl⟩
  exact gray_inj (Nat.mod_lt _ (ptrModulus_pos p)) (Nat.mod_lt _ (ptrModulus_pos p)) h

/-! ### The views in counts -/

section
variable {p : Params} {q : RelayQueue} {pd : Detector} {W R : Nat} {ws rs : List Nat}

theorem canPop_iff : canPop p q = true ↔ 0 < levelC p q := by simp [canPop]

theorem emptyC_iff : emptyC p q = true ↔ levelC p q = 0 := by simp [emptyC]

theorem fullC_iff : fullC p q = true ↔ levelC p q = queueSize p := by simp [fullC]

theorem fullP_iff : fullP p q = true ↔ levelP p q = queueSize p := by simp [fullP]

/-- The last stage of a synchronizer that carries gray codes of counts. -/
theorem getD_map_gray {l : List Nat} (hS : 1 ≤ p.syncStages) (hl : l.length = p.syncStages) :
    (l.map fun n => gray (n % ptrModulus p)).getD (p.syncStages - 1) 0 =
      gray (l.getD (p.syncStages - 1) 0 % ptrModulus p) := by
  have h : p.syncStages - 1 < l.length := by omega
  simp [List.getElem?_eq_getElem h]

/-- A pop finds a byte of which the consumer has seen the push. -/
theorem QueueCounts.lt_of_canPop (hS : 1 ≤ p.syncStages) (h : QueueCounts p q W R ws rs)
    (hc : canPop p q = true) : R < ws.getD (p.syncStages - 1) 0 := by
  rw [canPop_iff, h.levelC_eq hS] at hc
  omega

/-- A push finds a slot of which the producer has seen the pop. -/
theorem QueueCounts.lt_of_pushes (hS : 1 ≤ p.syncStages) (h : QueueCounts p q W R ws rs)
    (hp : pushes p q pd = true) : W < rs.getD (p.syncStages - 1) 0 + queueSize p := by
  have hnot : fullP p q ≠ true := by simp [((pushes_iff p q pd).1 hp).2]
  rw [Ne, fullP_iff, h.levelP_eq hS] at hnot
  obtain ⟨-, -, -, hroom⟩ := h.bounds hS
  omega

end

/-- Settles O17: each level is the difference of its two counts, and R26 bounds the counts. -/
theorem queueViewsAreExact : Obligations.QueueViewsAreExact := by
  intro p q W R ws rs hp h Ws Rs
  have hS := one_le_syncStages hp
  have hQ := queueSize_pos p
  obtain ⟨hRs, hRW, hWs, hroom⟩ : Rs ≤ R ∧ R ≤ Ws ∧ Ws ≤ W ∧ W ≤ Rs + queueSize p := h.bounds hS
  have hc : levelC p q = Ws - R := h.levelC_eq hS
  have hw : levelP p q = W - Rs := h.levelP_eq hS
  rw [fullC_iff, fullP_iff, emptyC_iff, hc, hw, show 2 ^ p.a = queueSize p from rfl]
  omega

/-- Settles O21: the pointer that a test compares is the other one's count, or that count a whole queue ahead. -/
theorem grayTestsAgree : Obligations.GrayTestsAgree := by
  intro p q hp ⟨W, R, ws, rs, h⟩
  have hS := one_le_syncStages hp
  obtain ⟨ha, -⟩ := hp
  have hQ := queueSize_lt p
  obtain ⟨hRs, hRW, hWs, hroom⟩ := h.bounds hS
  constructor
  · rw [emptyC_iff, h.levelC_eq hS, h.rgray, h.rptr, h.wsync, getD_map_gray hS h.wlen, eq_comm (a := gray _),
      gray_count_eq_iff hRW (by omega)]
    omega
  · rw [fullP_iff, h.levelP_eq hS, h.wgray, h.wptr, h.rsync, getD_map_gray hS h.rlen,
      ← gray_add_queueSize ha, eq_comm (a := gray _), gray_count_eq_iff hroom (by omega)]
    omega

/-- Settles O22: where a push and a pop both happen the queue is neither empty nor full, so the two counts are
less than the queue's size apart and not equal. -/
theorem pushAndPopTouchDifferentSlots : Obligations.PushAndPopTouchDifferentSlots := by
  intro s hp ⟨W, R, ws, rs, h⟩ hpush hpop hslot
  have hS := one_le_syncStages hp
  obtain ⟨hRs, hRW, hWs, hroom⟩ := h.bounds hS
  obtain ⟨-, hpushes⟩ := Bool.and_eq_true_iff.1 hpush
  obtain ⟨-, hcan⟩ := Bool.and_eq_true_iff.1 hpop
  have hW := h.lt_of_pushes hS hpushes
  have hR := h.lt_of_canPop hS hcan
  have hmod : W % queueSize s.params = R % queueSize s.params := by
    rw [← slotOf_count, ← slotOf_count, ← h.wptr, ← h.rptr]
    exact hslot
  have := eq_of_mod_eq_of_lt_add hmod (by omega) (by omega)
  omega

end Sys2Proof.Machine
end

section
/-! PROOF. The Relay Queue's transactions and its part in one cycle of any row (41_relay_queue.md R139 to R146). -/

namespace Sys2Proof.Machine

/-! ### What a read returns -/

/-- `Q_DATA` with a byte, in the words of R141. -/
theorem packQData_eq_or (b : Byte) : packQData b = 0x100#32 ||| b.setWidth 32 := by
  have happend : packQData b = (1#24 ++ b : BitVec 32) := rfl
  rw [happend, BitVec.append_def]
  rfl

/-- `VALID` stands at bit 8 (R30). -/
theorem packQData_valid (b : Byte) : (packQData b).getLsbD 8 = true := by
  rw [packQData, BitVec.getLsbD_append]; rfl

/-- `DATA` stands at bits 7 to 0 (R30). -/
theorem packQData_data (b : Byte) : (packQData b).extractLsb' 0 8 = b := by
  rw [packQData, BitVec.extractLsb'_append_eq_right]

/-- `EMPTY`, `FULL` and `STALL_SEEN` stand at bits 0 to 2, and the rest is 0 (R33). -/
theorem packQStatus_bits (stall full empty : Bool) :
    (packQStatus stall full empty).getLsbD 0 = empty ∧ (packQStatus stall full empty).getLsbD 1 = full ∧
    (packQStatus stall full empty).getLsbD 2 = stall ∧ (packQStatus stall full empty).extractLsb' 3 29 = 0#29 := by
  revert stall full empty
  decide

/-! ### One cycle of any row -/

section
variable {p : Params} {q : RelayQueue} {pd : Detector}

/-- A pop moves `rptr` and `rgray` (R141). -/
theorem nextRq_popQueue : nextRq p pd .popQueue q =
    { nextRq p pd .none q with rptr := ptrSucc p q.rptr, rgray := gray (ptrSucc p q.rptr) } := by
  simp [nextRq]

/-- Any other proposal concerns `stall_seen` at most (R145). -/
theorem nextRq_of_ne_popQueue {eff : BusEffect} (h : eff ≠ .popQueue) : nextRq p pd eff q =
    { nextRq p pd .none q with stallSeen := stalls p q pd || (q.stallSeen && !decide (eff = .clearStall)) } := by
  simp [nextRq, h]

end

/-! ### The statements -/

/-- A plain read proposes nothing. -/
theorem noBusEffect_readCycle (rdata : Word) (s : State) : NoBusEffect s (readCycle rdata s) :=
  ⟨rfl, rfl, rfl, rfl⟩

/-- A `Q_STATUS` write proposes no more than the clear of `stall_seen`. -/
theorem effectOf_wrQStatus (w : Word) (s : State) :
    effectOf (.wrQStatus w) s = .clearStall ∨ effectOf (.wrQStatus w) s = .none := by
  rw [effectOf]; split
  · exact .inl rfl
  · exact .inr rfl

/-- Settles O10: the row is a cycle that pops where the level is not 0, and a plain read of 0 where it is. -/
theorem readQDataPops : Obligations.ReadQDataPops := by
  intro s
  refine ⟨execState .rdQData s, exec_eq _ s, fun hlevel => ?_, fun hlevel => ?_⟩
  · have hpop := canPop_iff.2 hlevel
    have heff : effectOf .rdQData s = .popQueue := effectOf_popQueue.2 ⟨rfl, hpop⟩
    have hreply : replyOf .rdQData s = some (Reply.ok (packQData (headByte s.params s.rq))) := by
      simp [replyOf, hpop]
    rw [execState_of_ne (by decide), AnswersOkay, runCycle_out, runCycle_rq, runCycle_pd, runCycle_ts, hreply,
      heff, packQData_eq_or, nextRq_popQueue]
    exact ⟨rfl, rfl, rfl, rfl⟩
  · have hpop : canPop s.params s.rq = false := by simp [canPop, hlevel]
    have hread : execState .rdQData s = readCycle 0#32 s := by
      simp [execState, replyOf, effectOf, hpop, readCycle, busCycle, levelsOf]
    rw [hread]
    exact ⟨rfl, noBusEffect_readCycle _ s⟩

/-- Settles O11: each row is a plain read of its value. -/
theorem queueReadsAnswer : Obligations.QueueReadsAnswer := by
  intro s
  refine ⟨⟨_, rfl, noBusEffect_readCycle _ s, rfl⟩, ⟨_, rfl, noBusEffect_readCycle _ s, rfl⟩,
    ⟨_, _, rfl, noBusEffect_readCycle _ s, rfl, ?_⟩⟩
  obtain ⟨hempty, hfull, hstall, hrest⟩ :=
    packQStatus_bits s.rq.stallSeen (fullC s.params s.rq) (emptyC s.params s.rq)
  exact ⟨hempty.trans (beq_eq_decide _ _), hfull.trans (beq_eq_decide _ _), hstall, hrest⟩

/-- Settles O12: the write's proposal concerns `stall_seen` alone, and the set of R146 lies over it. -/
theorem stallFlagSetsOverClear : Obligations.StallFlagSetsOverClear := by
  intro w s
  refine ⟨execState (.wrQStatus w) s, exec_eq _ s, rfl, ?_⟩
  have hclear : decide (effectOf (.wrQStatus w) s = .clearStall) = w.getLsbD 2 := by
    simp [effectOf_clearStall]
  have hstall : decide (s.pd.dstate = .push ∧ fullP s.params s.rq = true) = stalls s.params s.rq s.pd := by
    simp [← stalls_iff]
  have hpop : effectOf (.wrQStatus w) s ≠ .popQueue := by simp [effectOf_popQueue]
  rw [execState_of_ne (by simp), runCycle_rq, runCycle_pd, runCycle_ts, nextRq_of_ne_popQueue hpop, hclear, hstall]
  rcases effectOf_wrQStatus w s with heff | heff <;> rw [heff] <;> exact ⟨rfl, rfl, rfl⟩

/-- Settles O13: a cycle's queue is `nextRq`; only RD_Q_DATA proposes a pop and only WR_Q_STATUS a clear. -/
theorem queuePointersHaveOneWriterEach : Obligations.QueuePointersHaveOneWriterEach := by
  intro i s t h hi
  obtain rfl := exec_next_iff.1 h
  rw [execState_of_ne hi, runCycle_rq, ← pushes_iff, ← canPop_iff, ← effectOf_popQueue]
  refine ⟨fun hpush => ?_, fun hpush => ?_, fun hpop => ?_, fun hpop => ?_, fun hd hf => ?_, fun hs hs' => ?_⟩
  · simp [hpush, ptrSucc, ptrModulus, slotOf, queueSize]
  · simp [hpush]
  · simp [hpop, ptrSucc, ptrModulus]
  · simp [hpop]
  · simp [(stalls_iff _ _ _).2 ⟨hd, hf⟩]
  · simp only [nextRq_stallSeen, hs, Bool.true_and, Bool.or_eq_false_iff, Bool.not_eq_false',
      decide_eq_true_eq] at hs'
    exact effectOf_clearStall.1 hs'.2

/-- Settles O33: in `D_PUSH` PD's step is the push step, under whatever the transaction writes. -/
theorem blockedPushKeepsTheByte : Obligations.BlockedPushKeepsTheByte := by
  intro i s t h hi hd
  obtain rfl := exec_next_iff.1 h
  rw [execState_of_ne hi, runCycle_pd, runCycle_out, outputsOf_rxReady, nextPd_hold, nextPd_trig, nextPd_dstate,
    nextPd_rxCount, detectorStep_push hd]
  cases hf : fullP s.params s.rq <;> simp [pushStep, hd]

end Sys2Proof.Machine
end

section
/-! PROOF. The Relay Queue along a run (41_relay_queue.md R137, R147 to R149, R151): the lag of the synchronizers, the
views of a queue that stands still, the order of the bytes, and the drain. -/

namespace Sys2Proof.Machine

/-! ### The synchronizers (R137) -/

section
variable {p : Params} {g j : Nat} {stages : List Nat}

theorem syncShift_getD_zero (hS : 0 < p.syncStages) : (syncShift p g stages).getD 0 0 = g := by
  simp [syncShift, hS]

theorem syncShift_getD_succ (hj : j + 1 < p.syncStages) :
    (syncShift p g stages).getD (j + 1) 0 = stages.getD j 0 := by
  simp [syncShift, hj]

end

theorem NoReset.last {n : Nat} {s : State} (h : NoReset (n + 1) s) : resetCycleAt (after n s) = false :=
  h n n.lt_succ_self

/-- One more cycle of a run without reset, for the queue. -/
theorem after_succ_rq {n : Nat} {s : State} (h : NoReset (n + 1) s) : (after (n + 1) s).rq =
    nextRq s.params (after n s).pd (effectOf (rowAt (after n s)) (after n s)) (after n s).rq := by
  rw [after_succ, advance_rq h.last, after_params]

/-- Settles O14, by induction on the stage: stage 1 takes the gray pointer, and each later stage in each cycle the
stage before it. -/
theorem synchronizerStagesLag : Obligations.SynchronizerStagesLag := by
  intro s j hj hn
  induction j with
  | zero =>
    rw [after_succ_rq hn]
    exact ⟨syncShift_getD_zero hj, syncShift_getD_zero hj⟩
  | succ j ih =>
    rw [after_succ_rq hn, nextRq_wsync, nextRq_rsync, syncShift_getD_succ hj, syncShift_getD_succ hj]
    exact ih (by omega) hn.of_succ

/-! ### A queue that stands still (R147) -/

section
variable {s : State} {n : Nat}

/-- After `S` cycles the last stages are the gray pointers the run began with. -/
theorem lastStage_after (hS : 1 ≤ s.params.syncStages) (hn : NoReset s.params.syncStages s) :
    lastStage s.params (after s.params.syncStages s).rq.wsync = s.rq.wgray ∧
    lastStage s.params (after s.params.syncStages s).rq.rsync = s.rq.rgray := by
  have hlast : s.params.syncStages - 1 + 1 = s.params.syncStages := by omega
  have h := synchronizerStagesLag s (s.params.syncStages - 1) (by omega) (by rwa [hlast])
  rwa [hlast] at h

/-- So the views are the pointers as they were `S` cycles earlier. -/
theorem views_after (hS : 1 ≤ s.params.syncStages) (h : QueueInv s.params s.rq)
    (hn : NoReset s.params.syncStages s) :
    viewW s.params (after s.params.syncStages s).rq = s.rq.wptr ∧
    viewR s.params (after s.params.syncStages s).rq = s.rq.rptr := by
  obtain ⟨W, R, ws, rs, hc⟩ := h
  obtain ⟨hw, hr⟩ := lastStage_after hS hn
  have hpos := ptrModulus_pos s.params
  rw [viewW, viewR, hw, hr, hc.wgray, hc.rgray, hc.wptr, hc.rptr]
  exact ⟨ungray_gray (Nat.mod_lt _ hpos), ungray_gray (Nat.mod_lt _ hpos)⟩

/-- Without a push and a pop the pointers stand still. -/
theorem pointers_after_of_still (hn : NoReset n s)
    (hstill : ∀ k, k < n → pushAt (after k s) = false ∧ popAt (after k s) = false) :
    (after n s).rq.wptr = s.rq.wptr ∧ (after n s).rq.rptr = s.rq.rptr := by
  induction n with
  | zero => exact ⟨rfl, rfl⟩
  | succ n ih =>
    obtain ⟨hpush, hpop⟩ := hstill n n.lt_succ_self
    rw [pushAt_of_noReset hn.last, after_params] at hpush
    rw [popAt_eq, decide_eq_false_iff_not] at hpop
    rw [after_succ_rq hn, nextRq_wptr, nextRq_rptr, if_neg (by simp [hpush]), if_neg hpop]
    exact ih hn.of_succ fun k hk => hstill k (Nat.lt_succ_of_lt hk)

end

/-- Settles O18: a full view blocks the push, so both pointers stand still for `S` cycles, and then both views
are the pointers themselves and both levels their difference. -/
theorem blockedProducerIsSeenFull : Obligations.BlockedProducerIsSeenFull := by
  intro s hp hinv hn hblocked hfull
  have hstill : ∀ k, k < s.params.syncStages → pushAt (after k s) = false ∧ popAt (after k s) = false := by
    intro k hk
    obtain ⟨hf, hpop⟩ := hblocked k hk
    exact ⟨by simp [pushAt, pushes, hf], hpop⟩
  obtain ⟨hw, hr⟩ := pointers_after_of_still hn hstill
  obtain ⟨hviewW, hviewR⟩ := views_after (one_le_syncStages hp) hinv hn
  have hlevels : levelC s.params (after s.params.syncStages s).rq =
      levelP s.params (after s.params.syncStages s).rq := by
    rw [levelC, levelP, hviewW, hviewR, hw, hr]
  rw [fullC_iff, hlevels]
  exact fullP_iff.1 hfull

/-! ### The order of the bytes (R148, R151) -/

/-- A canonical storage holds, each in its slot, the bytes of `bytes` from the count `R` on: those pushed and not
yet popped. -/
structure StorageHolds (p : Params) (m : Memory) (R : Nat) (bytes : List Byte) : Prop where
  wf : m.wf = true
  live : ∀ i, R ≤ i → i < bytes.length → bytes[i]? = some (m.read (i % queueSize p))

section
variable {p : Params} {m : Memory} {R : Nat} {bytes : List Byte}

/-- After a pop there are fewer bytes to hold. -/
theorem StorageHolds.of_pop (h : StorageHolds p m R bytes) {R' : Nat} (hR : R ≤ R') :
    StorageHolds p m R' bytes :=
  { h with live := fun i hi => h.live i (hR.trans hi) }

/-- A push where there is room writes a slot that holds no byte still to be popped. -/
theorem StorageHolds.of_push (h : StorageHolds p m R bytes) (b : Byte)
    (hroom : bytes.length < R + queueSize p) :
    StorageHolds p (m.write (bytes.length % queueSize p) b) R (bytes ++ [b]) where
  wf := Memory.wf_write h.wf
  live i hR hi := by
    rw [List.length_append, List.length_singleton] at hi
    rcases Nat.lt_succ_iff_lt_or_eq.1 hi with hlt | rfl
    · have hslot : i % queueSize p ≠ bytes.length % queueSize p := fun he => by
        have := eq_of_mod_eq_of_lt_add he.symm (by omega) (by omega)
        omega
      rw [List.getElem?_append_left hlt, Memory.read_write_other hslot]
      exact h.live i hR hlt
    · rw [List.getElem?_concat_length, Memory.read_write_same h.wf]

end

theorem length_pushedBytes (n : Nat) (s : State) : (pushedBytes n s).length = pushCount n s := by
  induction n with
  | zero => rfl
  | succ n ih => cases h : pushAt (after n s) <;> simp [pushedBytes, pushCount, h, ih]

theorem noReset_of_rdQData {s : State} (h : rowAt s = .rdQData) : resetCycleAt s = false := by
  refine Bool.eq_false_iff.2 fun hr => ?_
  rw [(rowAt_rst_iff s).2 hr] at h
  cases h

/-- The host reads a byte as popped exactly where a pop happens, and it is the head byte. -/
theorem readPopped_eq (s : State) : readPopped s = if popAt s then [headByte s.params s.rq] else [] := by
  by_cases hrow : rowAt s = .rdQData
  · rw [readPopped, popAt, advance_out (noReset_of_rdQData hrow), outputsOf_reply, hrow]
    cases hc : canPop s.params s.rq <;>
      simp [replyOf, Reply.ok, hc, packQData_valid, packQData_data, -BitVec.getLsbD_eq_getElem]
  · simp [readPopped, popAt, hrow]

section
variable {s : State} {n : Nat} (hp : s.params.wf) (hf : QueueFresh s) (hn : NoReset n s)
include hp hf

include hn in
/-- A pop takes a byte that the consumer's view, `S` cycles old, counts. -/
theorem popCount_lt_of_popAt (hpop : popAt (after n s) = true) :
    popCount n s < pushCount (n - s.params.syncStages) s := by
  have hS := one_le_syncStages hp
  obtain ⟨-, hcan⟩ := Bool.and_eq_true_iff.1 hpop
  rw [after_params] at hcan
  have hR := (queueCounts_after hS hf hn).lt_of_canPop hS hcan
  rwa [countHistory_last _ hS] at hR

/-- Every pop of a run takes a byte pushed before its cycle. -/
theorem popCount_succ_le (hn : NoReset (n + 1) s) : popCount (n + 1) s ≤ pushCount n s := by
  obtain ⟨-, -, -, -, -, hseen, hpushed, -⟩ := queuePointersCountPushesAndPops s n hp hf hn.of_succ
  rw [popCount]
  cases hpop : popAt (after n s) with
  | false => exact hseen.trans hpushed
  | true => exact (popCount_lt_of_popAt hp hf hn.of_succ hpop).trans_le hpushed

variable (hwf : s.rq.qmem.wf = true)
include hwf

include hn in
/-- Along a run from reset the storage holds the pushed bytes that are not yet popped. -/
theorem storageHolds_after :
    StorageHolds s.params (after n s).rq.qmem (popCount n s) (pushedBytes n s) := by
  have hS := one_le_syncStages hp
  induction n with
  | zero => exact ⟨hwf, fun i _ hi => absurd hi (Nat.not_lt_zero i)⟩
  | succ n ih =>
    have hc := queueCounts_after hS hf hn.of_succ
    refine StorageHolds.of_pop ?_ (Nat.le_add_right _ _)
    rw [after_succ, advance_qmem, nextStorage, pushedBytes]
    cases hpush : pushAt (after n s) with
    | false => simpa using ih hn.of_succ
    | true =>
      have hlen := length_pushedBytes n s
      have hslot : slotOf s.params (after n s).rq.wptr = (pushedBytes n s).length % queueSize s.params := by
        rw [hc.wptr, slotOf_count, hlen]
      rw [pushAt_of_noReset hn.last, after_params] at hpush
      have hroom := hc.lt_of_pushes hS hpush
      obtain ⟨hRs, -, -, -⟩ := hc.bounds hS
      rw [if_pos rfl, if_pos rfl, after_params, hslot]
      exact (ih hn.of_succ).of_push _ (by omega)

include hn in
/-- A pop finds the next pushed byte at the head of the queue. -/
theorem headByte_after (hpop : popAt (after n s) = true) :
    (pushedBytes n s)[popCount n s]? = some (headByte s.params (after n s).rq) := by
  have hptr : (after n s).rq.rptr = popCount n s % ptrModulus s.params :=
    (queueCounts_after (one_le_syncStages hp) hf hn).rptr
  obtain ⟨-, -, -, -, -, -, hpushed, -⟩ := queuePointersCountPushesAndPops s n hp hf hn
  have hlt := popCount_lt_of_popAt hp hf hn hpop
  rw [headByte, hptr, slotOf_count]
  exact (storageHolds_after hp hf hn hwf).live _ le_rfl (by rw [length_pushedBytes]; omega)

include hn in
/-- Along a run from reset the popped bytes are the first pushed ones. -/
theorem poppedBytes_eq_take : poppedBytes n s = (pushedBytes n s).take (popCount n s) := by
  induction n with
  | zero => rfl
  | succ n ih =>
    have hle : popCount (n + 1) s ≤ (pushedBytes n s).length := by
      rw [length_pushedBytes]; exact popCount_succ_le hp hf hn
    rw [poppedBytes, readPopped_eq, after_params, ih hn.of_succ, pushedBytes,
      List.take_append_of_le_length hle, popCount]
    cases hpop : popAt (after n s) with
    | false => simp
    | true =>
      rw [if_pos rfl, Bool.toNat_true, List.take_add_one, headByte_after hp hf hn.of_succ hwf hpop,
        Option.toList_some]

end

/-- Settles O19: the storage holds the bytes pushed and not yet popped, so each pop takes the next pushed byte; and
it takes one that the consumer's view, `S` cycles old, counts. -/
theorem queueIsFirstInFirstOut : Obligations.QueueIsFirstInFirstOut :=
  fun s n hp hf hwf hn =>
    ⟨poppedBytes_eq_take hp hf hn hwf, length_pushedBytes n s, popCount_lt_of_popAt hp hf hn⟩

/-! ### The drain (R149) -/

section
variable {s : State} {n : Nat}

/-- The last stage never falls: what comes in is the stage before it, a newer count. -/
theorem lastStage_le_of_shift {S W : Nat} {ws : List Nat} (hS : 1 ≤ S) (hl : ws.length = S)
    (hfall : List.Pairwise (· ≥ ·) (W :: ws)) :
    ws.getD (S - 1) 0 ≤ ((W :: ws).take S).getD (S - 1) 0 := by
  obtain ⟨k, rfl⟩ := Nat.exists_eq_add_of_le' hS
  have h := List.pairwise_iff_getElem.1 hfall k (k + 1) (by simp [hl]) (by simp [hl]) k.lt_succ_self
  simpa [hl, -List.take_succ_cons] using h

/-- A cycle that is no reset cycle takes from the level what it pops and no more. -/
theorem levelC_le_advance (hS : 1 ≤ s.params.syncStages) (hr : resetCycleAt s = false)
    (h : QueueInv s.params s.rq) :
    levelC s.params s.rq ≤ levelC s.params (advance s).rq + (popAt s).toNat := by
  obtain ⟨W, R, ws, rs, hc⟩ := h
  have hshift := lastStage_le_of_shift hS hc.wlen hc.wfall
  rw [hc.levelC_eq hS, (hc.of_advance hS hr).levelC_eq hS]
  omega

theorem queueInv_after (hS : 1 ≤ s.params.syncStages) (h : QueueInv s.params s.rq) (n : Nat) :
    QueueInv s.params (after n s).rq := by
  induction n with
  | zero => exact h
  | succ n ih =>
    rw [← after_params n s] at hS ih ⊢
    exact queueInv_advance hS ih

/-- Nor does a run without reset take more from the level than it pops. -/
theorem levelC_le_after (hS : 1 ≤ s.params.syncStages) (h : QueueInv s.params s.rq) (hn : NoReset n s) :
    levelC s.params s.rq ≤ levelC s.params (after n s).rq + popCount n s := by
  induction n with
  | zero => exact Nat.le_add_right _ _
  | succ n ih =>
    have hstep := levelC_le_advance (s := after n s) (by rwa [after_params]) hn.last
      (by rw [after_params]; exact queueInv_after hS h n)
    rw [after_params] at hstep
    rw [after_succ, popCount]
    have := ih hn.of_succ
    omega

end

/-- Settles O20: the level left is at least the level read less the bytes popped since, so the read pops. -/
theorem drainAlwaysFindsBytes : Obligations.DrainAlwaysFindsBytes := by
  intro s n hp hinv hn hcount hrow
  have hlevel := levelC_le_after (one_le_syncStages hp) hinv hn.of_succ
  have hpop : canPop (after n s).params (after n s).rq = true := by
    rw [canPop_iff, after_params]; omega
  refine ⟨by rw [popAt, hrow, hpop]; rfl, ?_⟩
  rw [after_succ, advance_out hn.last, outputsOf_reply, hrow]
  refine ⟨_, rfl, rfl, ?_⟩
  rw [if_pos hpop]
  exact packQData_valid _

end Sys2Proof.Machine
end

section
/-! PROOF. The Pattern Detector's transactions (42_pattern_detector.md R161 to R165, R172 to R174) and its part in one
cycle of any row (R160, R166 to R168, R171). -/

namespace Sys2Proof.Machine

/-! ### What a read returns -/

/-- Byte `j` of a pattern word stands at bits `8j+7` to `8j` (20_memory.md R62). -/
theorem Memory.readWord_byte (m : Memory) (k : BitVec 5) {j : Nat} (hj : j < 4) :
    (m.readWord k).extractLsb' (8 * j) 8 = m.read (4 * k.toNat + j) := by
  rw [Memory.readWord, packBytes]
  match j, hj with
  | 0, _ => exact BitVec.extractLsb'_append_eq_right
  | 1, _ =>
    rw [BitVec.extractLsb'_append_eq_of_le (by decide)]
    exact BitVec.extractLsb'_append_eq_right
  | 2, _ =>
    rw [BitVec.extractLsb'_append_eq_of_le (by decide), BitVec.extractLsb'_append_eq_of_le (by decide)]
    exact BitVec.extractLsb'_append_eq_right
  | 3, _ =>
    rw [BitVec.extractLsb'_append_eq_of_le (by decide), BitVec.extractLsb'_append_eq_of_le (by decide)]
    exact BitVec.extractLsb'_append_eq_left

/-- `cur_pos`, `LenA`, `dstate` and `trig` stand at bits 7:0, 15:8, 17:16 and 18, and the rest is 0 (R36). -/
theorem packDetStatus_fields (trig : Bool) (d : DState) (lenA curPos : Byte) :
    (packDetStatus trig d lenA curPos).extractLsb' 0 8 = curPos ∧
    (packDetStatus trig d lenA curPos).extractLsb' 8 8 = lenA ∧
    (packDetStatus trig d lenA curPos).extractLsb' 16 2 = d.code ∧
    (packDetStatus trig d lenA curPos).getLsbD 18 = trig ∧
    (packDetStatus trig d lenA curPos).extractLsb' 19 13 = 0#13 := by
  have habove : ∀ start len, 16 ≤ start → (packDetStatus trig d lenA curPos).extractLsb' start len =
      (0#13 ++ BitVec.ofBool trig ++ d.code : BitVec 16).extractLsb' (start - 8 - 8) len := by
    intro start len h
    rw [packDetStatus, BitVec.extractLsb'_append_eq_of_le (by omega),
      BitVec.extractLsb'_append_eq_of_le (by omega)]
  refine ⟨BitVec.extractLsb'_append_eq_right, ?_, ?_, ?_, ?_⟩
  · rw [packDetStatus, BitVec.extractLsb'_append_eq_of_le (by decide)]
    exact BitVec.extractLsb'_append_eq_right
  · rw [habove _ _ (by decide)]
    exact BitVec.extractLsb'_append_eq_right
  · rw [packDetStatus, BitVec.getLsbD_append, BitVec.getLsbD_append, BitVec.getLsbD_append,
      BitVec.getLsbD_append]
    simp
  · rw [habove _ _ (by decide), BitVec.extractLsb'_append_eq_of_le (by decide)]
    exact BitVec.extractLsb'_append_eq_left

/-! ### The transactions -/

/-- A proposal for another block leaves RQ to its cycle. -/
theorem nextRq_of_otherBlock {p : Params} {q : RelayQueue} {pd : Detector} {eff : BusEffect}
    (hpop : eff ≠ .popQueue) (hclear : eff ≠ .clearStall) : nextRq p pd eff q = nextRq p pd .none q := by
  simp [nextRq, hpop, hclear]

/-- Settles O24: the write is a word write to the shadow store and the read a plain read of a word of it. -/
theorem patternWordsAreLittleEndian : Obligations.PatternWordsAreLittleEndian := by
  intro k w s hwf
  refine ⟨⟨writeCycle (.setPatWord k w) s, rfl, rfl, fun j hj => ?_, fun a ha => ?_, rfl, ?_, rfl⟩,
    ⟨_, _, rfl, rfl, noBusEffect_readCycle _ s, fun j hj => Memory.readWord_byte _ k hj⟩⟩
  · exact Memory.read_writeWord_same hwf hj
  · exact Memory.read_writeWord_of_div_ne ha
  · exact nextRq_of_otherBlock nofun nofun

/-- Up to 128 the low byte is the whole word. -/
theorem wbyte_zero_toNat {w : Word} (h : w.toNat ≤ 128) : (wbyte w 0).toNat = w.toNat := by
  simp only [wbyte, BitVec.extractLsb'_toNat]
  omega

/-- Settles O25: the comparison of R163 decides between a proposal for `LenS` and none. -/
theorem patternLengthAboveMaxIsIgnored : Obligations.PatternLengthAboveMaxIsIgnored := by
  intro w s
  refine ⟨⟨_, rfl, rfl, fun hle => ?_, fun hgt => ?_⟩,
    ⟨_, _, rfl, rfl, BitVec.toNat_setWidth_of_le (by decide), noBusEffect_readCycle _ s⟩⟩
  · rw [if_pos (show w.toNat ≤ patternMax from hle)]
    exact ⟨wbyte_zero_toNat hle, rfl, nextRq_of_otherBlock nofun nofun, rfl⟩
  · rw [if_neg (show ¬ w.toNat ≤ patternMax from Nat.not_le.2 hgt)]
    exact ⟨nextPd_lenS _ _ _ _ nofun, rfl, rfl, rfl, rfl⟩

/-- Settles O26: bit 0 decides between the commit's proposal, which lies over PD's step, and none. -/
theorem commitSwapsPatternAndClearsCursor : Obligations.CommitSwapsPatternAndClearsCursor := by
  intro w s
  refine ⟨_, rfl, rfl, fun hbit => ?_, fun hbit => ?_⟩
  · rw [if_pos (show wbit w 0 = true from hbit)]
    exact ⟨rfl, nextPd_patS _ _ _ _ nofun, nextPd_lenS _ _ _ _ nofun, nextRq_of_otherBlock nofun nofun, rfl⟩
  · rw [if_neg (show ¬ wbit w 0 = true from by simpa [wbit] using hbit)]
    exact ⟨rfl, rfl, rfl, rfl⟩

/-- Settles O27: each row is a plain read of its value. -/
theorem detectorReadsAnswer : Obligations.DetectorReadsAnswer := by
  intro s
  obtain ⟨hcur, hlen, hstate, htrig, hrest⟩ :=
    packDetStatus_fields s.pd.trig s.pd.dstate s.pd.lenA s.pd.curPos
  exact ⟨⟨_, _, rfl, noBusEffect_readCycle _ s, rfl, hcur, hlen, hstate, htrig, hrest⟩,
    ⟨_, rfl, noBusEffect_readCycle _ s, rfl⟩⟩

/-! ### An accepted byte (R166, R168) -/

section
variable {p : Params} {q : RelayQueue} {port : Port} {pd : Detector} {ch : Byte}

@[simp] theorem acceptByte_curPos : (acceptByte p pd ch).curPos = cursorAfter p pd ch := by
  unfold acceptByte; split <;> rfl

@[simp] theorem acceptByte_hold : (acceptByte p pd ch).hold = ch := by
  unfold acceptByte; split <;> rfl

/-- The byte that completes the pattern starts the pulse, and the cursor goes back to 0. -/
theorem acceptByte_fullMatch (h : fullMatch pd ch = true) : acceptByte p pd ch =
    { pd with hold := ch, curPos := 0#8, trig := true, pcnt := p.directPulse, dstate := .pulse } := by
  have hcur : cursorAfter p pd ch = 0#8 := by
    obtain ⟨hmatch, hlast⟩ := Bool.and_eq_true_iff.1 h
    simp [cursorAfter, hmatch, hlast]
  simp [acceptByte, h, hcur]

/-- Any other byte goes to the push, with the cursor as R166 moves it. -/
theorem acceptByte_of_not_fullMatch (h : fullMatch pd ch = false) : acceptByte p pd ch =
    { pd with hold := ch, curPos := cursorAfter p pd ch, dstate := .push } := by
  simp [acceptByte, h]

theorem acceptByte_dstate_pulse : (acceptByte p pd ch).dstate = .pulse ↔ fullMatch pd ch = true := by
  cases h : fullMatch pd ch with
  | true => simp [acceptByte_fullMatch h]
  | false => simp [acceptByte_of_not_fullMatch h]

/-- A match before the last byte moves the cursor on. -/
theorem cursorAfter_partial (hmatch : matchesCursor pd ch = true) (hlast : atLastByte pd = false) :
    cursorAfter p pd ch = pd.curPos + 1#8 := by
  simp [cursorAfter, hmatch, hlast]

/-- A mismatch puts the cursor at 1 where the byte starts the pattern again, else at 0. -/
theorem cursorAfter_mismatch (hmatch : matchesCursor pd ch = false) :
    cursorAfter p pd ch = if rescans p pd ch then 1#8 else 0#8 := by
  simp [cursorAfter, hmatch]

/-- Outside `D_IDLE` the byte port is not looked at, and the held byte and the cursor stay (30_encoding.md R94). -/
theorem detectorStep_of_not_idle (hd : pd.dstate ≠ .idle) (port' : Port) :
    detectorStep p q port pd = detectorStep p q port' pd ∧
    (detectorStep p q port pd).hold = pd.hold ∧ (detectorStep p q port pd).curPos = pd.curPos := by
  cases h : pd.dstate with
  | idle => exact absurd h hd
  | pulse => rw [detectorStep_pulse h, detectorStep_pulse h, pulseStep]; split <;> exact ⟨rfl, rfl, rfl⟩
  | push => rw [detectorStep_push h, detectorStep_push h, pushStep]; split <;> exact ⟨rfl, rfl, rfl⟩

theorem pushes_of_ne_push (h : pd.dstate ≠ .push) : pushes p q pd = false := by
  simp [pushes, wantsPush, h]

/-- `rx_count` goes up by the push (R171). -/
theorem detectorStep_rxCount : (detectorStep p q port pd).rxCount =
    if pushes p q pd then pd.rxCount + 1#32 else pd.rxCount := by
  cases h : pd.dstate with
  | idle =>
    rw [pushes_of_ne_push (by simp [h])]
    cases hx : port.rxValid with
    | false => rw [detectorStep_noByte h hx]; rfl
    | true => rw [detectorStep_byte h hx, acceptByte]; split <;> rfl
  | pulse => rw [pushes_of_ne_push (by simp [h]), detectorStep_pulse h, pulseStep]; split <;> rfl
  | push => cases hf : fullP p q <;> simp [detectorStep_push h, pushStep, pushes, wantsPush, h, hf]

end

/-! ### One cycle of any row -/

/-- Settles O28: in `D_IDLE` the step takes the byte, by the branches of R166; in any other state it does not look at
the byte port. -/
theorem byteIsMatchedAgainstTheCursor : Obligations.ByteIsMatchedAgainstTheCursor := by
  intro ch s
  have hpd : (execState (.rxByte ch) s).pd =
      detectorStep s.params s.rq { s.port with rxValid := true, rxData := ch } s.pd := rfl
  refine ⟨execState (.rxByte ch) s, exec_eq _ s, rfl, fun hd => ?_, fun hd => ?_, ?_, ?_, ?_, ?_, rfl, rfl⟩ <;>
    rw [hpd]
  · rw [detectorStep_byte hd rfl]
    simp only [← matchesCursor_iff, ← rescans_iff]
    refine ⟨fun ⟨hhit, hlast⟩ => ?_, fun ⟨hhit, hlast⟩ => ?_, fun ⟨hhit, hagain⟩ => ?_,
      fun ⟨hhit, hagain⟩ => ?_⟩
    · exact acceptByte_fullMatch (by simp [fullMatch, hhit, atLastByte, hlast])
    · have hlast : atLastByte s.pd = false := by simp [atLastByte, hlast]
      rw [acceptByte_of_not_fullMatch (by simp [fullMatch, hlast]), cursorAfter_partial hhit hlast]
    · have hhit := Bool.eq_false_iff.2 hhit
      rw [acceptByte_of_not_fullMatch (by simp [fullMatch, hhit]), cursorAfter_mismatch hhit, if_pos hagain]
    · have hhit := Bool.eq_false_iff.2 hhit
      rw [acceptByte_of_not_fullMatch (by simp [fullMatch, hhit]), cursorAfter_mismatch hhit, if_neg hagain]
  · obtain ⟨hport, hhold, hcur⟩ := detectorStep_of_not_idle (p := s.params) (q := s.rq)
      (port := { s.port with rxValid := true, rxData := ch }) hd { s.port with rxValid := false }
    exact ⟨hhold, hcur, hport⟩
  · exact detectorStep_patS _ _ _ _
  · exact detectorStep_lenS _ _ _ _
  · exact detectorStep_patA _ _ _ _
  · exact detectorStep_lenA _ _ _ _

/-- Settles O32: no proposal concerns `rx_count`, and PD's step counts the push. -/
theorem receivedBytesAreCountedAtThePush : Obligations.ReceivedBytesAreCountedAtThePush := by
  intro i s t h
  obtain rfl := exec_next_iff.1 h
  refine ⟨fun hi => ?_, fun hi => by rw [hi]; rfl⟩
  rw [execState_of_ne hi, runCycle_pd, nextPd_rxCount, detectorStep_rxCount]
  simp only [← pushes_iff]
  split
  · exact BitVec.toNat_add _ _
  · exact (Nat.mod_eq_of_lt s.pd.rxCount.isLt).symm

/-- Settles O34: PD's step touches no store and no length, and each is written by one proposal, of one row. -/
theorem patternStoresHaveTheirOwnWriters : Obligations.PatternStoresHaveTheirOwnWriters := by
  intro i s t h hi
  obtain rfl := exec_next_iff.1 h
  rw [execState_of_ne hi, runCycle_pd]
  refine ⟨fun hc => ?_, fun hword => nextPd_patS _ _ _ _ fun k w he => ?_,
    fun hlen => nextPd_lenS _ _ _ _ fun n he => ?_⟩
  · have heff : effectOf i s ≠ .commit := by simp [effectOf_commit, hc]
    rw [nextPd_patA, nextPd_lenA, if_neg heff, if_neg heff]
    exact ⟨rfl, rfl⟩
  · exact hword k w (effectOf_setPatWord.1 he)
  · obtain ⟨w, hw, -⟩ := effectOf_setPatLen.1 he
    exact hlen w hw

end Sys2Proof.Machine
end

section
/-! PROOF. The Pattern Detector along a run (42_pattern_detector.md R167, R169, R175, R178): the cursor as the fold of
the recurrence over the accepted bytes, the empty pattern, and the direct pulse. -/

namespace Sys2Proof.Machine

/-! ### The recurrence (R178) -/

theorem activePattern_length (pd : Detector) : (activePattern pd).length = pd.lenA.toNat := by
  simp [activePattern]

theorem activePattern_congr {pd pd' : Detector} (hpat : pd.patA = pd'.patA) (hlen : pd.lenA = pd'.lenA) :
    activePattern pd = activePattern pd' := by
  rw [activePattern, hpat, hlen, activePattern]

section
variable {p : Params} {pd : Detector} {b : Byte}

/-- A byte of the active pattern, by its index. -/
theorem activePattern_getElem?_eq_some {c : Nat} :
    (activePattern pd)[c]? = some b ↔ c < (activePattern pd).length ∧ b = pd.patA.read c := by
  rw [activePattern_length]
  by_cases hc : c < pd.lenA.toNat
  · simp [activePattern, hc, eq_comm]
  · simp [activePattern, hc]

/-- R27 puts the cursor inside a pattern that is not empty. -/
theorem DetectorInv.curPos_lt_length (h : DetectorInv pd) (hpos : 0 < (activePattern pd).length) :
    pd.curPos.toNat < (activePattern pd).length := by
  rw [activePattern_length] at *
  exact h.cursorBelow hpos

/-- A byte matches exactly where it is the pattern's byte at the cursor. -/
theorem matchesCursor_iff_getElem? (h : DetectorInv pd) : matchesCursor pd b = true ↔
    (activePattern pd)[pd.curPos.toNat]? = some b := by
  rw [matchesCursor_iff, activePattern_getElem?_eq_some, ← activePattern_length]
  exact and_congr_left fun _ => ⟨h.curPos_lt_length, Nat.zero_lt_of_lt⟩

theorem rescans_iff_getElem? : rescans p pd b = true ↔
    p.matchRescan = true ∧ (activePattern pd)[0]? = some b := by
  rw [rescans_iff, activePattern_getElem?_eq_some, ← activePattern_length]

/-- `LenA - 1` as a number, where the pattern is not empty. -/
theorem atLastByte_iff (hpos : 0 < (activePattern pd).length) :
    atLastByte pd = true ↔ pd.curPos.toNat = (activePattern pd).length - 1 := by
  rw [activePattern_length] at *
  rw [atLastByte, beq_iff_eq]
  constructor <;> intro <;> bv_omega

/-- A full match of the model is a full match of R178. -/
theorem fullMatch_iff_matchFires (h : DetectorInv pd) : fullMatch pd b = true ↔
    matchFires (activePattern pd) pd.curPos.toNat b := by
  rw [fullMatch, Bool.and_eq_true_iff, matchesCursor_iff_getElem? h, matchFires]
  constructor
  · rintro ⟨hmatch, hlast⟩
    have hpos := Nat.zero_lt_of_lt (activePattern_getElem?_eq_some.1 hmatch).1
    exact ⟨hpos, hmatch, (atLastByte_iff hpos).1 hlast⟩
  · rintro ⟨hpos, hmatch, hlast⟩
    exact ⟨hmatch, (atLastByte_iff hpos).2 hlast⟩

/-- The cursor after an accepted byte is the recurrence's. -/
theorem cursorAfter_toNat (h : DetectorInv pd) : (cursorAfter p pd b).toNat =
    cursorNext p.matchRescan (activePattern pd) pd.curPos.toNat b := by
  cases hm : matchesCursor pd b with
  | true =>
    have hmatch := (matchesCursor_iff_getElem? h).1 hm
    have hinside := (activePattern_getElem?_eq_some.1 hmatch).1
    have hpos := Nat.zero_lt_of_lt hinside
    cases hl : atLastByte pd with
    | true =>
      have hlast := (atLastByte_iff hpos).1 hl
      rw [cursorNext, if_neg (by omega), if_neg (by simp [hmatch])]
      simp [cursorAfter, hm, hl]
    | false =>
      have hlast : pd.curPos.toNat ≠ (activePattern pd).length - 1 := by
        rw [Ne, ← atLastByte_iff hpos, hl]; exact Bool.false_ne_true
      have hlen := h.lenA
      rw [← activePattern_length] at hlen
      rw [cursorNext, if_pos ⟨hpos, hmatch, by omega⟩, cursorAfter_partial hm hl]
      bv_omega
  | false =>
    have hmiss : (activePattern pd)[pd.curPos.toNat]? ≠ some b := by
      rw [Ne, ← matchesCursor_iff_getElem? h, hm]; exact Bool.false_ne_true
    have hcond : (p.matchRescan = true ∧ 0 < (activePattern pd).length ∧
        (activePattern pd)[pd.curPos.toNat]? ≠ some b ∧ (activePattern pd)[0]? = some b) ↔
        rescans p pd b = true := by
      rw [rescans_iff_getElem?]
      exact ⟨fun ⟨hr, _, _, h0⟩ => ⟨hr, h0⟩,
        fun ⟨hr, h0⟩ => ⟨hr, (activePattern_getElem?_eq_some.1 h0).1, hmiss, h0⟩⟩
    rw [cursorNext, if_neg fun hc => hmiss hc.2.1, cursorAfter_mismatch hm]
    simp only [hcond]
    split <;> rfl

end

/-! ### One cycle without a commit or a reset -/

section
variable {s : State} {b : Byte}

theorem acceptedAt_eq_some : acceptedAt s = some b ↔ resetCycleAt s = false ∧ s.pd.dstate = .idle ∧
    s.nextInput.rxValid = true ∧ s.nextInput.rxData = b := by
  simp [acceptedAt, and_assoc]

/-- An accepted byte is what PD's step works on. -/
theorem detectorStep_of_accepted (h : acceptedAt s = some b) :
    detectorStep s.params s.rq (portOf s.nextInput) s.pd = acceptByte s.params s.pd b := by
  obtain ⟨-, hd, hx, rfl⟩ := acceptedAt_eq_some.1 h
  exact detectorStep_byte hd hx

/-- Without one the cursor stays. -/
theorem detectorStep_curPos_of_none (hr : resetCycleAt s = false) (h : acceptedAt s = none) :
    (detectorStep s.params s.rq (portOf s.nextInput) s.pd).curPos = s.pd.curPos := by
  by_cases hd : s.pd.dstate = .idle
  · have hx : s.nextInput.rxValid = false := by simpa [acceptedAt, hr, hd] using h
    rw [detectorStep_noByte hd hx]
  · exact (detectorStep_of_not_idle hd (portOf s.nextInput)).2.2

/-- An accepted byte goes to `D_PULSE` exactly where it completes the pattern, whatever the transaction writes. -/
theorem advance_dstate_pulse_of_accepted (h : acceptedAt s = some b) :
    (advance s).pd.dstate = .pulse ↔ fullMatch s.pd b = true := by
  rw [advance_pd (acceptedAt_eq_some.1 h).1, nextPd_dstate, detectorStep_of_accepted h, acceptByte_dstate_pulse]

variable (hr : resetCycleAt s = false) (hc : isCommit (rowAt s) = false)
include hr hc

theorem advance_activePattern : activePattern (advance s).pd = activePattern s.pd := by
  have heff : effectOf (rowAt s) s ≠ .commit := by simp [effectOf_commit, hc]
  rw [advance_pd hr]
  exact activePattern_congr (by rw [nextPd_patA, if_neg heff]) (by rw [nextPd_lenA, if_neg heff])

/-- The cursor moves by the recurrence at an accepted byte, and only there. -/
theorem advance_curPos_toNat (h : DetectorInv s.pd) : (advance s).pd.curPos.toNat =
    (acceptedAt s).toList.foldl (cursorNext s.params.matchRescan (activePattern s.pd)) s.pd.curPos.toNat := by
  have heff : effectOf (rowAt s) s ≠ .commit := by simp [effectOf_commit, hc]
  rw [advance_pd hr, nextPd_curPos, if_neg heff]
  cases hb : acceptedAt s with
  | none => rw [detectorStep_curPos_of_none hr hb]; rfl
  | some b => rw [detectorStep_of_accepted hb, acceptByte_curPos]; exact cursorAfter_toNat h

end

/-! ### The cursor along a run (R178) -/

/-- A commit and a reset put the cursor at 0. -/
theorem advance_curPos_restart {s : State} (h : resetCycleAt s = true ∨ isCommit (rowAt s) = true) :
    (advance s).pd.curPos = 0#8 := by
  cases hr : resetCycleAt s with
  | true => rw [advance_pd_reset hr]; rfl
  | false =>
    have hc : isCommit (rowAt s) = true := h.resolve_left (by simp [hr])
    rw [advance_pd hr, nextPd_curPos, if_pos (effectOf_commit.2 hc)]

theorem PatternStays.mono {m n : Nat} {s : State} (h : PatternStays n s) (hm : m ≤ n) : PatternStays m s :=
  fun k hk => h k (hk.trans_le hm)

theorem detectorInv_after {s : State} (hp : s.params.wf) (h : DetectorInv s.pd) (n : Nat) :
    DetectorInv (after n s).pd := by
  induction n with
  | zero => exact h
  | succ n ih => exact detectorInv_advance (by rw [after_params]; exact one_le_directPulse hp) ih

theorem activePattern_after {s : State} {n : Nat} (h : PatternStays n s) :
    activePattern (after n s).pd = activePattern s.pd := by
  induction n with
  | zero => rfl
  | succ n ih =>
    obtain ⟨hr, hc⟩ := h n n.lt_succ_self
    rw [after_succ, advance_activePattern hr hc, ih (h.mono n.le_succ)]

theorem curPos_after {s : State} {n : Nat} (hp : s.params.wf) (hinv : DetectorInv s.pd) (h : PatternStays n s) :
    (after n s).pd.curPos.toNat = (acceptedBytes n s).foldl
      (cursorNext s.params.matchRescan (activePattern s.pd)) s.pd.curPos.toNat := by
  induction n with
  | zero => rfl
  | succ n ih =>
    obtain ⟨hr, hc⟩ := h n n.lt_succ_self
    rw [after_succ, advance_curPos_toNat hr hc (detectorInv_after hp hinv n), after_params,
      activePattern_after (h.mono n.le_succ), ih (h.mono n.le_succ), acceptedBytes, List.foldl_append]

/-- Settles O29, by induction on the cycles: PD's matching is the recurrence on the active pattern, which stays. -/
theorem cursorFollowsTheRecurrence : Obligations.CursorFollowsTheRecurrence := by
  refine ⟨fun s => advance_curPos_restart, ?_⟩
  intro s n hp hinv hstays pat
  refine ⟨curPos_after hp hinv hstays, fun k hk b hb => ?_⟩
  have hpat : activePattern (after k s).pd = pat := activePattern_after (hstays.mono hk.le)
  rw [after_succ, advance_dstate_pulse_of_accepted hb, fullMatch_iff_matchFires (detectorInv_after hp hinv k), hpat]

/-! ### The empty pattern (R167) -/

/-- R27 with an empty active pattern and no pulse under way: the cursor is 0. -/
structure Unarmed (pd : Detector) : Prop where
  inv : DetectorInv pd
  lenA : pd.lenA = 0#8
  trig : pd.trig = false

section
variable {p : Params} {pd : Detector}

theorem fullMatch_of_empty (h : pd.lenA = 0#8) (b : Byte) : fullMatch pd b = false := by
  simp [fullMatch, matchesCursor, h]

theorem Unarmed.curPos (h : Unarmed pd) : pd.curPos = 0#8 :=
  BitVec.eq_of_toNat_eq (h.inv.cursorZero (by rw [h.lenA]; rfl))

/-- Only a full match raises `trig`. -/
theorem detectorStep_trig_of_no_fullMatch {q : RelayQueue} {port : Port} (ht : pd.trig = false)
    (hf : fullMatch pd port.rxData = false) : (detectorStep p q port pd).trig = false := by
  rcases detectorStep_cases p q port pd with ⟨he, -⟩ | ⟨-, -, hf', -⟩ | ⟨-, -, -, he⟩ | ⟨-, -, he⟩ |
    ⟨-, -, he⟩ | ⟨-, -, he⟩
  · rw [he, ht]
  · rw [hf] at hf'; cases hf'
  · rw [he]; exact ht
  · rw [he]
  · rw [he]; exact ht
  · rw [he]; exact ht

end

theorem Unarmed.of_advance {s : State} (hp : s.params.wf) (hr : resetCycleAt s = false)
    (hc : isCommit (rowAt s) = false) (h : Unarmed s.pd) : Unarmed (advance s).pd where
  inv := detectorInv_advance (one_le_directPulse hp) h.inv
  lenA := by rw [advance_pd hr, nextPd_lenA, if_neg (by simp [effectOf_commit, hc]), h.lenA]
  trig := by
    rw [advance_pd hr, nextPd_trig]
    exact detectorStep_trig_of_no_fullMatch h.trig (fullMatch_of_empty h.lenA _)

theorem Unarmed.of_after {s : State} {n : Nat} (hp : s.params.wf) (hstays : PatternStays n s)
    (h : Unarmed s.pd) : Unarmed (after n s).pd := by
  induction n with
  | zero => exact h
  | succ n ih =>
    obtain ⟨hr, hc⟩ := hstays n n.lt_succ_self
    exact (ih (hstays.mono n.le_succ)).of_advance (by rwa [after_params]) hr hc

/-- An accepted byte that completes no pattern is held for the push. -/
theorem advance_of_accepted_no_fullMatch {s : State} {b : Byte} (h : acceptedAt s = some b)
    (hf : fullMatch s.pd b = false) : (advance s).pd.dstate = .push ∧ (advance s).pd.hold = b := by
  rw [advance_pd (acceptedAt_eq_some.1 h).1, nextPd_dstate, nextPd_hold, detectorStep_of_accepted h,
    acceptByte_of_not_fullMatch hf]
  exact ⟨rfl, rfl⟩

/-- Settles O30: the pattern stays empty along the run, and against an empty pattern no byte is a full match. -/
theorem emptyPatternNeverMatches : Obligations.EmptyPatternNeverMatches := by
  intro s n hp hinv hlen htrig hstays
  have h : Unarmed s.pd := ⟨hinv, hlen, htrig⟩
  have hn := h.of_after hp hstays
  refine ⟨hn.trig, hn.curPos, fun k hk b hb => ?_⟩
  have hempty : Unarmed (after k s).pd := h.of_after hp (hstays.mono hk.le)
  exact advance_of_accepted_no_fullMatch hb (fullMatch_of_empty hempty.lenA b)

/-! ### The direct pulse (R169, R175) -/

/-- PD drives the pulse, holding the byte, with `left` cycles to go. -/
structure Pulsing (pd : Detector) (b : Byte) (left : Nat) : Prop where
  dstate : pd.dstate = .pulse
  trig : pd.trig = true
  hold : pd.hold = b
  pcnt : pd.pcnt.toNat = left

section
variable {s : State} {b : Byte} {left : Nat}

/-- A full match starts the pulse. -/
theorem pulsing_advance_of_accepted (h : acceptedAt s = some b) (hd : (advance s).pd.dstate = .pulse) :
    Pulsing (advance s).pd b s.params.directPulse.toNat := by
  have hf := (advance_dstate_pulse_of_accepted h).1 hd
  have hr := (acceptedAt_eq_some.1 h).1
  have hstep : detectorStep s.params s.rq (portOf s.nextInput) s.pd = _ :=
    (detectorStep_of_accepted h).trans (acceptByte_fullMatch hf)
  constructor <;> simp [advance_pd hr, hstep]

variable (hr : resetCycleAt s = false)
include hr

/-- Every cycle but the last counts the pulse down. -/
theorem Pulsing.of_advance (h : Pulsing s.pd b (left + 2)) : Pulsing (advance s).pd b (left + 1) := by
  have hne : s.pd.pcnt ≠ 1#16 := fun he => by have := h.pcnt; simp [he] at this
  have hcount : (s.pd.pcnt - 1#16).toNat = left + 1 := by have := h.pcnt; bv_omega
  have hstep : detectorStep s.params s.rq (portOf s.nextInput) s.pd = { s.pd with pcnt := s.pd.pcnt - 1#16 } := by
    rw [detectorStep_pulse h.dstate, pulseStep, if_neg hne]
  constructor <;> simp [advance_pd hr, hstep, hcount, h.dstate, h.trig, h.hold]

/-- The last one ends it. -/
theorem Pulsing.advance_of_last (h : Pulsing s.pd b 1) :
    (advance s).pd.trig = false ∧ (advance s).pd.dstate = .push := by
  have hlast : s.pd.pcnt = 1#16 := BitVec.eq_of_toNat_eq h.pcnt
  rw [advance_pd hr, nextPd_trig, nextPd_dstate, detectorStep_pulse h.dstate, pulseStep, if_pos hlast]
  exact ⟨rfl, rfl⟩

end

/-- Along a run without reset the pulse counts down, one each cycle. -/
theorem Pulsing.of_after {s : State} {b : Byte} {left j : Nat} (h : Pulsing s.pd b (left + 1)) (hj : j ≤ left)
    (hn : NoReset j s) : Pulsing (after j s).pd b (left - j + 1) := by
  induction j with
  | zero => exact h
  | succ j ih =>
    have hprev := ih (by omega) hn.of_succ
    rw [show left - j + 1 = left - (j + 1) + 2 by omega] at hprev
    exact hprev.of_advance hn.last

/-- Settles O31: the cycle after the match has all `DIRECT_PULSE_CYCLES` cycles to go, and each one takes one. -/
theorem directPulseLastsItsCycles : Obligations.DirectPulseLastsItsCycles := by
  intro s b hp htrig hb hd hn
  obtain ⟨left, hleft⟩ := Nat.exists_eq_add_of_le' (one_le_directPulse hp)
  rw [hleft] at hn ⊢
  have hpulsing : ∀ j, j ≤ left → Pulsing (after (j + 1) s).pd b (left - j + 1) := fun j hj => by
    rw [after_succ']
    exact (hleft ▸ pulsing_advance_of_accepted hb hd).of_after hj fun k hk => by
      rw [← after_succ']; exact hn (k + 1) (by omega)
  refine ⟨?_, fun j h1 hj => ?_, ?_⟩
  · rw [after_one, advance_out (acceptedAt_eq_some.1 hb).1]; exact htrig
  · obtain ⟨j, rfl⟩ := Nat.exists_eq_add_of_le' h1
    have h := hpulsing j (by omega)
    exact ⟨h.trig, h.hold, by rw [after_succ, advance_out (hn _ (by omega))]; exact h.trig⟩
  · have h := hpulsing left le_rfl
    rw [Nat.sub_self, Nat.zero_add] at h
    exact h.advance_of_last (hn _ (by omega))

end Sys2Proof.Machine
end

section
/-! PROOF. PD and TS are not connected (42_pattern_detector.md R177): two machines that take the same inputs keep the
same TS whatever their RQ and PD are, and the same RQ and PD whatever their TS is. -/

namespace Sys2Proof.Machine

/-- Two machines with the same parameters that take the same inputs from here on. -/
structure SameInputs (s s' : State) : Prop where
  params : s.params = s'.params
  cycles : s.cycles = s'.cycles
  inputs : s.inputs = s'.inputs

section
variable {s s' : State} (h : SameInputs s s')
include h

theorem SameInputs.nextInput_eq : s.nextInput = s'.nextInput := by
  simp only [State.nextInput, h.cycles, h.inputs]

theorem SameInputs.resetCycleAt_eq : resetCycleAt s = resetCycleAt s' := by
  rw [resetCycleAt, h.nextInput_eq, resetCycleAt]

theorem SameInputs.rowAt_eq : rowAt s = rowAt s' := by
  rw [rowAt, h.nextInput_eq, rowAt]

theorem SameInputs.of_advance : SameInputs (advance s) (advance s') where
  params := by rw [advance_params, advance_params, h.params]
  cycles := by rw [advance_cycles, advance_cycles, h.cycles]
  inputs := by rw [advance_inputs, advance_inputs, h.inputs]

theorem SameInputs.of_after (n : Nat) : SameInputs (after n s) (after n s') := by
  induction n with
  | zero => exact h
  | succ n ih => exact ih.of_advance

end

/-- What a row proposes to TS does not depend on the state: only a `Q_DATA` read looks at it, and a pop is nothing
to TS. -/
theorem nextTs_effectOf (p : Params) (e : Bool) (i : Instr) (s s' : State) (ts : Sequencer) :
    nextTs p e (effectOf i s) ts = nextTs p e (effectOf i s') ts := by
  cases i with
  | rdQData =>
    have hnone : ∀ u, nextTs p e (effectOf .rdQData u) ts = nextTs p e .none ts := fun u => by
      rw [effectOf]; split <;> rfl
    rw [hnone s, hnone s']
  | _ => rfl

/-- Of the state a proposal depends on the parameters and RQ alone. -/
theorem effectOf_congr {s s' : State} (hp : s.params = s'.params) (hq : s.rq = s'.rq) (i : Instr) :
    effectOf i s = effectOf i s' := by
  cases i with
  | rdQData => simp only [effectOf, hp, hq]
  | _ => rfl

section
variable {s s' : State}

theorem SameInputs.advance_ts_eq (h : SameInputs s s') (hts : s.ts = s'.ts) :
    (advance s).ts = (advance s').ts := by
  cases hr : resetCycleAt s with
  | true => rw [advance_ts_reset hr, advance_ts_reset (h.resetCycleAt_eq ▸ hr)]
  | false =>
    rw [advance_ts hr, advance_ts (h.resetCycleAt_eq ▸ hr), h.params, h.nextInput_eq, h.rowAt_eq, hts]
    exact nextTs_effectOf _ _ _ _ _ _

theorem SameInputs.advance_rq_pd_eq (h : SameInputs s s') (hq : s.rq = s'.rq) (hd : s.pd = s'.pd) :
    (advance s).rq = (advance s').rq ∧ (advance s).pd = (advance s').pd := by
  cases hr : resetCycleAt s with
  | true =>
    have hr' := h.resetCycleAt_eq ▸ hr
    rw [advance_rq_reset hr, advance_rq_reset hr', advance_pd_reset hr, advance_pd_reset hr', h.params, hq]
    exact ⟨rfl, rfl⟩
  | false =>
    have hr' := h.resetCycleAt_eq ▸ hr
    rw [advance_rq hr, advance_rq hr', advance_pd hr, advance_pd hr', effectOf_congr h.params hq, h.rowAt_eq,
      h.params, h.nextInput_eq, hq, hd]
    exact ⟨rfl, rfl⟩

end

/-- Settles O48, by induction on the cycles: equal inputs stay equal, and with them each cycle keeps TS equal, and RQ
with PD. -/
theorem detectorAndSequencerAreIndependent : Obligations.DetectorAndSequencerAreIndependent := by
  intro s s' n hp hc hi
  have h : SameInputs s s' := ⟨hp, hc, hi⟩
  refine ⟨fun hts => ?_, fun hq hd => ?_⟩
  · induction n with
    | zero => exact hts
    | succ n ih => exact (h.of_after n).advance_ts_eq ih
  · induction n with
    | zero => exact ⟨hq, hd⟩
    | succ n ih => exact (h.of_after n).advance_rq_pd_eq ih.1 ih.2

end Sys2Proof.Machine
end

section
/-! PROOF. The Timing Sequencer's transactions (43_timing_sequencer.md R192 to R195, R205 to R209), each over the same
cycle without it. -/

namespace Sys2Proof.Machine

/-! ### What a read returns -/

/-- `EN` and `IRQ_EN` stand at bits 0 and 1, and the rest is 0 (R195). -/
theorem packSeqCtrl_bits (irqEn en : Bool) :
    (packSeqCtrl irqEn en).getLsbD 0 = en ∧ (packSeqCtrl irqEn en).getLsbD 1 = irqEn ∧
    (packSeqCtrl irqEn en).extractLsb' 2 30 = 0#30 := by
  revert irqEn en
  decide

/-- `SSTATE` stands at bits 2:0, the five flags above it, `TXF_LEVEL` at bits 11:8, and the rest is 0 (R206). -/
theorem packSeqStatus_fields (level : Nat) (prev out ovf pend : Bool) (st : SState) :
    (packSeqStatus level prev out ovf pend st).extractLsb' 0 3 = st.code ∧
    (packSeqStatus level prev out ovf pend st).getLsbD 3 = pend ∧
    (packSeqStatus level prev out ovf pend st).getLsbD 4 = ovf ∧
    (packSeqStatus level prev out ovf pend st).getLsbD 5 = out ∧
    (packSeqStatus level prev out ovf pend st).getLsbD 6 = prev ∧
    (packSeqStatus level prev out ovf pend st).getLsbD 7 = false ∧
    (packSeqStatus level prev out ovf pend st).extractLsb' 8 4 = BitVec.ofNat 4 level ∧
    (packSeqStatus level prev out ovf pend st).extractLsb' 12 20 = 0#20 := by
  have habove : ∀ start len, 8 ≤ start → (packSeqStatus level prev out ovf pend st).extractLsb' start len =
      (0#20 ++ BitVec.ofNat 4 level : BitVec 24).extractLsb' (start - 3 - 1 - 1 - 1 - 1 - 1) len := by
    intro start len h
    rw [packSeqStatus]
    iterate 6 rw [BitVec.extractLsb'_append_eq_of_le (by omega)]
  have hflag : ∀ i : Fin 5, (packSeqStatus level prev out ovf pend st).getLsbD (3 + i) =
      [pend, ovf, out, prev, false].get i := by
    intro i
    rw [packSeqStatus]
    iterate 6 rw [BitVec.getLsbD_append]
    fin_cases i <;> simp
  refine ⟨BitVec.extractLsb'_append_eq_right, hflag 0, hflag 1, hflag 2, hflag 3, hflag 4, ?_, ?_⟩
  · rw [habove _ _ (by decide)]
    exact BitVec.extractLsb'_append_eq_right
  · rw [habove _ _ (by decide)]
    exact BitVec.extractLsb'_append_eq_left

/-- Settles O39: each row is a plain read of its value. -/
theorem sequencerReadsAnswer : Obligations.SequencerReadsAnswer := by
  intro s
  obtain ⟨hen, hirqEn, hctrl⟩ := packSeqCtrl_bits s.ts.irqEn s.ts.en
  obtain ⟨hstate, hstatus⟩ :=
    packSeqStatus_fields s.ts.txf.length s.ts.prev s.ts.out s.ts.txfOvf s.ts.irqPend s.ts.sstate
  exact ⟨⟨_, _, rfl, noBusEffect_readCycle _ s, rfl, hen, hirqEn, hctrl⟩,
    ⟨_, _, rfl, noBusEffect_readCycle _ s, rfl, hstate.trans (by cases s.ts.sstate <;> rfl), hstatus⟩,
    ⟨_, rfl, noBusEffect_readCycle _ s, rfl⟩, ⟨_, rfl, noBusEffect_readCycle _ s, rfl⟩,
    ⟨_, rfl, noBusEffect_readCycle _ s, rfl⟩⟩

/-! ### The writes -/

/-- Settles O36: bit 2 decides between RESET_ARM and the enables, each laid over TS's step. -/
theorem controlWriteSetsOrRearms : Obligations.ControlWriteSetsOrRearms := by
  intro w s
  refine ⟨writeCycle _ s, rfl, rfl, fun hbit => ?_, fun hbit => ?_, ?_, ?_⟩
  · rw [if_neg (show ¬ wbit w 2 = true from by simpa [wbit] using hbit)]
    rfl
  · rw [if_pos (show wbit w 2 = true from hbit)]
    rfl
  · split <;> exact nextRq_of_otherBlock nofun nofun
  · split <;> rfl

/-- Settles O37: the length at the cycle's start decides between the value appended and the overflow flag. -/
theorem parameterPushAppendsOrDrops : Obligations.ParameterPushAppendsOrDrops := by
  intro v s
  refine ⟨writeCycle (.pushTxf v) s, rfl, rfl, fun hfit => ?_, fun hfull => ?_,
    nextRq_of_otherBlock nofun nofun, rfl⟩
  · show nextTs _ _ (.pushTxf v) s.ts = _
    rw [nextTs_pushTxf, pushTxf, if_pos hfit]
    rfl
  · show nextTs _ _ (.pushTxf v) s.ts = _
    rw [nextTs_pushTxf, pushTxf, if_neg (Nat.not_lt.2 hfull)]
    rfl

/-- A clear in `FIRED` returns TS to `IDLE` with nothing pending (R205). -/
theorem nextTs_clearIrq_of_fired {p : Params} {e : Bool} {ts : Sequencer} (h : ts.sstate = .fired) :
    nextTs p e .clearIrq ts = sampleEdge e { ts with sstate := .idle, irqPend := false } := by
  rw [nextTs_clearIrq, gatedStep_fired h]
  simp [clearIrq, entersFired, h]

/-- Under R28 a clear in any other state does nothing: a completion wins, and else nothing is pending (R205, R124). -/
theorem nextTs_clearIrq_of_ne_fired {p : Params} {e : Bool} {ts : Sequencer} (hinv : SequencerInv p ts)
    (h : ts.sstate ≠ .fired) : nextTs p e .clearIrq ts = nextTs p e .none ts := by
  rw [nextTs_clearIrq, nextTs_none, clearIrq]
  split
  · rfl
  · next hf =>
    have hstep := sequencerInv_gatedStep (edge := edgeSeen p ts e) hinv
    have hne : (gatedStep (edgeSeen p ts e) ts).sstate ≠ .fired := by simpa [entersFired, h] using hf
    have hidle : (gatedStep (edgeSeen p ts e) ts).irqPend = false := by
      rw [← Bool.not_eq_true, hstep.irqPend]; exact hne
    rw [← hidle]

/-- Settles O38: bit 0 decides between the clear, which acts from `FIRED` alone, and no proposal. -/
theorem interruptClearLosesToCompletion : Obligations.InterruptClearLosesToCompletion := by
  intro w s hinv
  refine ⟨writeCycle (if wbit w 0 then .clearIrq else .none) s, rfl, rfl, fun hbit hs => ?_, fun hbit hs => ?_,
    fun hbit => ?_⟩
  · rw [if_pos (show wbit w 0 = true from hbit)]
    exact ⟨nextTs_clearIrq_of_fired hs, nextRq_of_otherBlock nofun nofun, rfl⟩
  · rw [if_pos (show wbit w 0 = true from hbit)]
    exact ⟨nextRq_of_otherBlock nofun nofun, rfl, nextTs_clearIrq_of_ne_fired hinv hs, rfl⟩
  · rw [if_neg (show ¬ wbit w 0 = true from by simpa [wbit] using hbit)]
    exact ⟨rfl, rfl, rfl, rfl⟩

end Sys2Proof.Machine
end

section
/-! PROOF. The Timing Sequencer in one cycle of any row (43_timing_sequencer.md R196, R200, R205, R211): what raises
`irq_pend` and what clears it, and where nothing happens. -/

namespace Sys2Proof.Machine

/-- In this cycle nothing is left to count: the last cycle of the width, of the delay with width 0, or the edge with
both 0 (R200 to R203). -/
def CountOver (edge : Bool) (ts : Sequencer) : Prop :=
  (ts.sstate = .pulse ∧ ts.cnt = 1#32) ∨
    (ts.sstate = .delay ∧ ts.cnt = 1#32 ∧ ts.wid = 0#32) ∨
    (ts.sstate = .waitEdge ∧ edge = true ∧ ts.dly = 0#32 ∧ ts.wid = 0#32)

/-! ### The interrupt over the step -/

section
variable {p : Params} {e edge : Bool} {eff : BusEffect} {ts : Sequencer}

/-- `enter_pulse()` raises the interrupt with width 0 (R202). -/
theorem enterPulse_irqPend : (enterPulse ts).irqPend = (ts.irqPend || decide (ts.wid = 0#32)) := by
  by_cases hw : ts.wid = 0#32
  · simp [enterPulse_zero hw, hw]
  · simp [enterPulse_pos hw, hw]

/-- The step raises the interrupt only where a count is over with `en = 1`, and then TS is in `FIRED` (R211). -/
theorem gatedStep_completes (h : ts.irqPend = false) (h' : (gatedStep edge ts).irqPend = true) :
    ts.en = true ∧ CountOver edge ts ∧ (gatedStep edge ts).sstate = .fired := by
  have hkept : ts.irqPend ≠ true := by simp [h]
  cases hen : ts.en with
  | false => rw [gatedStep_disabled hen] at h'; exact absurd h' hkept
  | true =>
    rw [gatedStep_enabled hen] at h' ⊢
    refine ⟨rfl, ?_⟩
    rcases sequencerStep_cases edge ts with ⟨he, -⟩ | ⟨_, _, -, -, he⟩ | ⟨_, _, -, -, he⟩ | ⟨-, -, -, he⟩ |
      ⟨hs, he⟩ | ⟨-, -, he⟩ | ⟨hs, hc, he⟩ <;> rw [he] at h' ⊢
    · exact absurd h' hkept
    · exact absurd h' hkept
    · exact absurd h' hkept
    · exact absurd h' hkept
    · have hw : ts.wid = 0#32 := by simpa [enterPulse_irqPend, h] using h'
      rw [enterPulse_zero hw]
      rcases hs with ⟨hs, hedge, hd⟩ | ⟨hs, hc⟩
      · exact ⟨.inr (.inr ⟨hs, hedge, hd, hw⟩), rfl⟩
      · exact ⟨.inr (.inl ⟨hs, hc, hw⟩), rfl⟩
    · exact absurd h' hkept
    · exact ⟨.inl ⟨hs, hc⟩, rfl⟩

/-- The step never clears the interrupt. -/
theorem gatedStep_irqPend_of_pending (h : ts.irqPend = true) : (gatedStep edge ts).irqPend = true := by
  cases hen : ts.en with
  | false => rwa [gatedStep_disabled hen]
  | true =>
    rw [gatedStep_enabled hen]
    rcases sequencerStep_cases edge ts with ⟨he, -⟩ | ⟨_, _, -, -, he⟩ | ⟨_, _, -, -, he⟩ | ⟨-, -, -, he⟩ |
      ⟨-, he⟩ | ⟨-, -, he⟩ | ⟨-, -, he⟩ <;> simp [he, h, enterPulse_irqPend]

/-- No transaction raises the interrupt: what is pending after a cycle is pending after its step. -/
theorem gatedStep_irqPend_of_nextTs (h : (nextTs p e eff ts).irqPend = true) :
    (gatedStep (edgeSeen p ts e) ts).irqPend = true := by
  cases eff with
  | resetArm b => simp [nextTs_resetArm, resetArm] at h
  | pushTxf v => rw [nextTs_pushTxf, pushTxf] at h; split at h <;> exact h
  | clearIrq =>
    rw [nextTs_clearIrq, clearIrq] at h
    split at h
    · exact h
    · cases h
  | _ => exact h

/-- And no transaction but the clear and RESET_ARM takes it away. -/
theorem nextTs_irqPend_of_pending (h : ts.irqPend = true) (hclear : eff ≠ .clearIrq) (harm : ∀ b, eff ≠ .resetArm b) :
    (nextTs p e eff ts).irqPend = true := by
  have hstep := gatedStep_irqPend_of_pending (edge := edgeSeen p ts e) h
  cases eff with
  | resetArm b => exact absurd rfl (harm b)
  | clearIrq => exact absurd rfl hclear
  | pushTxf v => rw [nextTs_pushTxf, pushTxf]; split <;> exact hstep
  | _ => exact hstep

end

/-! ### The rows -/

section
variable {i : Instr} {s : State}

theorem effectOf_ne_resetArm (h : isResetArm i = false) (b : Bool) : effectOf i s ≠ .resetArm b := fun he => by
  obtain ⟨w, rfl, hw, -⟩ := effectOf_resetArm.1 he
  rw [isResetArm, hw] at h; cases h

theorem effectOf_ne_clearIrq (h : isIrqClear i = false) : effectOf i s ≠ .clearIrq := fun he => by
  rw [effectOf_clearIrq.1 he] at h; cases h

/-- Without an enable row no row sets `en` to 1 but RESET_ARM. -/
theorem effectOf_ne_enable (h : isEnable i = false) (b : Bool) : effectOf i s ≠ .setEnables true b := fun he => by
  obtain ⟨w, rfl, hw, hen, -⟩ := effectOf_setEnables.1 he
  rw [isEnable, hw, ← hen] at h; cases h

end

/-- Settles O42: the step alone raises the interrupt, and R28 puts TS in `FIRED` with it; the clear and RESET_ARM alone
take it away. -/
theorem interruptRisesByCompletionFallsByClear : Obligations.InterruptRisesByCompletionFallsByClear := by
  intro i s t h hinv
  obtain rfl := exec_next_iff.1 h
  by_cases hi : i = .rst
  · subst hi
    exact ⟨fun _ ht => absurd ht Bool.false_ne_true, fun _ _ => .inr (.inr rfl)⟩
  · rw [execState_of_ne hi, runCycle_ts, runCycle_port]
    refine ⟨fun hs ht => ?_, fun hs ht => ?_⟩
    · obtain ⟨hen, hover, -⟩ := gatedStep_completes hs (gatedStep_irqPend_of_nextTs ht)
      exact ⟨(sequencerInv_nextTs hinv).irqPend.1 ht, hen, hover⟩
    · by_contra hnone
      simp only [not_or, Bool.not_eq_true] at hnone
      obtain ⟨hclear, harm, -⟩ := hnone
      rw [nextTs_irqPend_of_pending hs (effectOf_ne_clearIrq hclear) (effectOf_ne_resetArm harm)] at ht
      cases ht

/-! ### Waiting for the edge (R200, R214) -/

/-- One cycle in which no edge counts. -/
theorem advance_ts_noEdge {s : State} (hs : s.ts.sstate = .waitEdge) (hr : resetCycleAt s = false)
    (ha : isResetArm (rowAt s) = false) (hedge : s.ts.en = false ∨ edgeAt s = false) :
    (advance s).ts.sstate = .waitEdge ∧ (advance s).ts.dly = s.ts.dly ∧ (advance s).ts.wid = s.ts.wid ∧
    (advance s).ts.out = s.ts.out := by
  have hstep : gatedStep (edgeAt s) s.ts = s.ts := by
    cases hen : s.ts.en with
    | false => exact gatedStep_disabled hen
    | true => rw [gatedStep_enabled hen, sequencerStep_noEdge hs (by simpa [hen] using hedge)]
  obtain ⟨hdly, hwid, -, hout, hsstate, -⟩ := advance_ts_noArm hr ha
  rw [hstep] at hdly hwid hout hsstate
  exact ⟨by rw [hsstate (by simp [hs]), hs], hdly, hwid, hout⟩

/-- Settles O45, by induction on the cycles: in each one TS waits on. -/
theorem waitEdgeHasNoTimeout : Obligations.WaitEdgeHasNoTimeout := by
  intro s n hs h
  induction n with
  | zero => exact ⟨hs, rfl, rfl, rfl⟩
  | succ n ih =>
    obtain ⟨hsstate, hdly, hwid, hout⟩ := ih fun k hk => h k (Nat.lt_succ_of_lt hk)
    obtain ⟨hr, ha, hedge⟩ := h n n.lt_succ_self
    rw [← hdly, ← hwid, ← hout]
    exact advance_ts_noEdge hsstate hr ha hedge

/-! ### Disabled (R196) -/

/-- TS is disabled in `u`, and as it was in `ts` but for `irq_en`, the edge sampler, `txf_ovf` and what the bus has
appended to `txf`. -/
structure FrozenSince (ts u : Sequencer) : Prop where
  en : u.en = false
  sstate : u.sstate = ts.sstate
  cnt : u.cnt = ts.cnt
  dly : u.dly = ts.dly
  wid : u.wid = ts.wid
  out : u.out = ts.out
  irqPend : u.irqPend = ts.irqPend
  txf : ts.txf <+: u.txf

theorem FrozenSince.refl {ts : Sequencer} (h : ts.en = false) : FrozenSince ts ts :=
  ⟨h, rfl, rfl, rfl, rfl, rfl, rfl, ⟨[], List.append_nil _⟩⟩

theorem FrozenSince.trans {ts u v : Sequencer} (h : FrozenSince ts u) (h' : FrozenSince u v) : FrozenSince ts v where
  en := h'.en
  sstate := h'.sstate.trans h.sstate
  cnt := h'.cnt.trans h.cnt
  dly := h'.dly.trans h.dly
  wid := h'.wid.trans h.wid
  out := h'.out.trans h.out
  irqPend := h'.irqPend.trans h.irqPend
  txf := h.txf.trans h'.txf

/-- One cycle with `en = 0` and no transaction that ends the freeze. -/
theorem frozenSince_nextTs {p : Params} {e : Bool} {eff : BusEffect} {ts : Sequencer} (h : ts.en = false)
    (hclear : eff ≠ .clearIrq) (harm : ∀ b, eff ≠ .resetArm b) (henable : ∀ b, eff ≠ .setEnables true b) :
    FrozenSince ts (nextTs p e eff ts) := by
  have hkept := FrozenSince.refl h
  cases eff with
  | resetArm b => exact absurd rfl (harm b)
  | clearIrq => exact absurd rfl hclear
  | setEnables en b =>
    cases en with
    | true => exact absurd rfl (henable b)
    | false =>
      rw [nextTs_setEnables, gatedStep_disabled h]
      exact { hkept with en := rfl }
  | pushTxf v =>
    rw [nextTs_pushTxf, gatedStep_disabled h, pushTxf]
    split
    · exact { hkept with txf := ⟨[v], rfl⟩ }
    · exact { hkept with }
  | _ =>
    rw [nextTs, gatedStep_disabled h]
    exact { hkept with }

/-- Settles O46, by induction on the cycles: each one leaves TS frozen. -/
theorem disabledSequencerIsFrozen : Obligations.DisabledSequencerIsFrozen := by
  intro s n hen hleft hclear
  have hfrozen : FrozenSince s.ts (after n s).ts := by
    induction n with
    | zero => exact .refl hen
    | succ n ih =>
      have hn := ih (fun k hk => hleft k (Nat.lt_succ_of_lt hk)) fun k hk => hclear k (Nat.lt_succ_of_lt hk)
      obtain ⟨hr, harm, henable⟩ := hleft n n.lt_succ_self
      rw [after_succ, advance_ts hr]
      exact hn.trans (frozenSince_nextTs hn.en (effectOf_ne_clearIrq (hclear n n.lt_succ_self))
        (effectOf_ne_resetArm harm) (effectOf_ne_enable henable))
  obtain ⟨hen', hsstate, hcnt, hdly, hwid, hout, hirq, htxf⟩ := hfrozen
  exact ⟨hen', hsstate, hcnt, hdly, hwid, hout, hirq, htxf⟩

end Sys2Proof.Machine
end

section
/-! PROOF. The Timing Sequencer's timeline (43_timing_sequencer.md R210) and its arm latency (R216). -/

namespace Sys2Proof.Machine

/-! ### From the edge to the interrupt (R210) -/

/-- After an edge: so many cycles of `DELAY` and then of `PULSE` are still to go, this one included; with none left
the interrupt is up. -/
inductive InFlight (ts : Sequencer) : Nat → Nat → Prop where
  | delay {i k : Nat} (en : ts.en = true) (sstate : ts.sstate = .delay) (cnt : ts.cnt.toNat = i + 1)
      (wid : ts.wid.toNat = k) (out : ts.out = false) (irqPend : ts.irqPend = false) : InFlight ts (i + 1) k
  | pulse {k : Nat} (en : ts.en = true) (sstate : ts.sstate = .pulse) (cnt : ts.cnt.toNat = k + 1)
      (out : ts.out = true) (irqPend : ts.irqPend = false) : InFlight ts 0 (k + 1)
  | fired (sstate : ts.sstate = .fired) (out : ts.out = false) (irqPend : ts.irqPend = true) : InFlight ts 0 0

section
variable {ts : Sequencer} {i k : Nat}

/-- With the delay over the whole width is still to go. -/
theorem inFlight_enterPulse (hen : ts.en = true) (hirq : ts.irqPend = false) :
    InFlight (enterPulse ts) 0 ts.wid.toNat := by
  by_cases hw : ts.wid = 0#32
  · rw [enterPulse_zero hw, hw]
    exact .fired rfl rfl rfl
  · obtain ⟨k, hk⟩ := Nat.exists_eq_add_of_le' (word_pos_of_ne_zero hw)
    rw [enterPulse_pos hw, hk]
    exact .pulse hen rfl hk rfl hirq

/-- The edge starts the delay, or with delay 0 the width. -/
theorem inFlight_of_edge (hen : ts.en = true) (hs : ts.sstate = .waitEdge) (hout : ts.out = false)
    (hirq : ts.irqPend = false) : InFlight (gatedStep true ts) ts.dly.toNat ts.wid.toNat := by
  rw [gatedStep_enabled hen]
  by_cases hd : ts.dly = 0#32
  · rw [sequencerStep_edge_noDelay hs rfl hd, hd]
    exact inFlight_enterPulse hen hirq
  · obtain ⟨i, hi⟩ := Nat.exists_eq_add_of_le' (word_pos_of_ne_zero hd)
    rw [sequencerStep_edge_delay hs rfl hd, hi]
    exact .delay hen rfl hi rfl hout hirq

theorem word_pred {w : Word} {n : Nat} (h : w.toNat = n + 2) : w ≠ 1#32 ∧ (w - 1#32).toNat = n + 1 := by
  constructor <;> bv_omega

/-- A step takes one cycle of the delay. -/
theorem InFlight.delay_step {edge : Bool} (h : InFlight ts (i + 1) k) : InFlight (gatedStep edge ts) i k := by
  obtain ⟨hen, hs, hcnt, hwid, hout, hirq⟩ := h
  rw [gatedStep_enabled hen]
  cases i with
  | zero =>
    rw [sequencerStep_delayOver hs (BitVec.eq_of_toNat_eq hcnt), ← hwid]
    exact inFlight_enterPulse hen hirq
  | succ i =>
    obtain ⟨hne, hpred⟩ := word_pred hcnt
    rw [sequencerStep_count (.inl hs) hne]
    exact .delay hen hs hpred hwid hout hirq

/-- A step takes one cycle of the width. -/
theorem InFlight.pulse_step {edge : Bool} (h : InFlight ts 0 (k + 1)) : InFlight (gatedStep edge ts) 0 k := by
  obtain - | ⟨hen, hs, hcnt, hout, hirq⟩ := h
  rw [gatedStep_enabled hen]
  cases k with
  | zero =>
    rw [sequencerStep_pulseOver hs (BitVec.eq_of_toNat_eq hcnt)]
    exact .fired rfl rfl rfl
  | succ k =>
    obtain ⟨hne, hpred⟩ := word_pred hcnt
    rw [sequencerStep_count (.inr hs) hne]
    exact .pulse hen hs hpred hout hirq

end

/-- While anything is still to go TS is enabled, and not in `FIRED`. -/
theorem InFlight.running {ts : Sequencer} {i k : Nat} (h : InFlight ts i k) (hpos : 0 < i + k) :
    ts.en = true ∧ ts.sstate ≠ .fired := by
  cases h with
  | delay hen hs => exact ⟨hen, by simp [hs]⟩
  | pulse hen hs => exact ⟨hen, by simp [hs]⟩
  | fired => exact absurd hpos (Nat.lt_irrefl 0)

section
variable {s : State} {i k : Nat}

theorem Undisturbed.mono {m n : Nat} (h : Undisturbed n s) (hm : m ≤ n) : Undisturbed m s :=
  fun k hk => h k (hk.trans_le hm)

/-- An undisturbed run is undisturbed after its first cycle. -/
theorem Undisturbed.tail {n : Nat} (h : Undisturbed (n + 1) s) : Undisturbed n (advance s) := fun k hk => by
  rw [← after_succ']; exact h (k + 1) (Nat.succ_lt_succ hk)

/-- An undisturbed cycle leaves to the step what is still to go. -/
theorem InFlight.of_gatedStep
    (hn : resetCycleAt s = false ∧ isResetArm (rowAt s) = false ∧ isDisable (rowAt s) = false) (hen : s.ts.en = true) (hs : s.ts.sstate ≠ .fired)
    (h : InFlight (gatedStep (edgeAt s) s.ts) i k) : InFlight (advance s).ts i k := by
  obtain ⟨hr, ha, hdis⟩ := hn
  obtain ⟨-, hwid, hcnt, hout, hsstate, -, hirq, hfired, hen'⟩ := advance_ts_noArm hr ha
  have hidle (h : (gatedStep (edgeAt s) s.ts).irqPend = false) : (advance s).ts.irqPend = false := by
    rw [← Bool.not_eq_true] at h ⊢
    exact mt hirq h
  cases h with
  | delay _ gs gcnt gwid gout girq =>
    exact .delay (hen' hdis hen) ((hsstate hs).trans gs) (by rw [hcnt, gcnt]) (by rw [hwid, gwid]) (hout.trans gout)
      (hidle girq)
  | pulse _ gs gcnt gout girq =>
    exact .pulse (hen' hdis hen) ((hsstate hs).trans gs) (by rw [hcnt, gcnt]) (hout.trans gout) (hidle girq)
  | fired gs gout girq =>
    exact .fired ((hsstate hs).trans gs) (hout.trans gout) ((hfired hs gs).trans girq)

/-- Undisturbed, each cycle takes one of the delay, and after it one of the width. -/
theorem inFlight_after {j d w : Nat} (h : InFlight s.ts d w) (hj : j ≤ d + w) (hn : Undisturbed j s) :
    InFlight (after j s).ts (d - j) (w - (j - d)) := by
  induction j with
  | zero => simpa using h
  | succ j ih =>
    have hprev := ih (by omega) (hn.mono j.le_succ)
    obtain ⟨hen, hs⟩ := hprev.running (by omega)
    refine InFlight.of_gatedStep (hn j j.lt_succ_self) hen hs ?_
    rcases Nat.lt_or_ge j d with hlt | hge
    · rw [show d - j = d - (j + 1) + 1 by omega, show w - (j - d) = w - (j + 1 - d) by omega] at hprev
      exact hprev.delay_step
    · rw [show d - j = 0 by omega, show w - (j - d) = w - (j + 1 - d) + 1 by omega] at hprev
      rw [show d - (j + 1) = 0 by omega]
      exact hprev.pulse_step

end

/-- Settles O41: the cycle after the edge has the whole delay and width to go, and each cycle takes one. -/
theorem pulseTimelineIsExact : Obligations.PulseTimelineIsExact := by
  intro s hen hs hout hirq hedge d w hn
  have hstart : InFlight (advance s).ts d w := by
    refine InFlight.of_gatedStep (hn 0 (Nat.succ_pos _)) hen (by simp [hs]) ?_
    rw [hedge]
    exact inFlight_of_edge hen hs hout hirq
  have hflight (j : Nat) (hj : j ≤ d + w) : InFlight (after (j + 1) s).ts (d - j) (w - (j - d)) := by
    rw [after_succ']
    exact inFlight_after hstart hj (hn.tail.mono hj)
  refine ⟨fun j h1 hj => ?_, fun j h1 hj => ?_, ?_⟩
  · obtain ⟨j, rfl⟩ := Nat.exists_eq_add_of_le' h1
    have h := hflight j (by omega)
    rw [show d - j = d - (j + 1) + 1 by omega] at h
    obtain ⟨-, hsstate, -, -, hlow, hidle⟩ := h
    exact ⟨hsstate, hlow, hidle⟩
  · obtain ⟨j, rfl⟩ := Nat.exists_eq_add_of_le' (show 1 ≤ j by omega)
    have h := hflight j (by omega)
    rw [show d - j = 0 by omega, show w - (j - d) = w - (j + 1 - d) + 1 by omega] at h
    obtain - | ⟨-, hsstate, -, hhigh, hidle⟩ := h
    exact ⟨hsstate, hhigh, hidle⟩
  · have h := hflight (d + w) le_rfl
    rw [show d - (d + w) = 0 by omega, show w - (d + w - d) = 0 by omega] at h
    obtain - | - | ⟨hsstate, hlow, hpend⟩ := h
    exact ⟨hsstate, hlow, hpend, by rw [irqLine, hpend, Bool.true_and]⟩

/-! ### Arming (R216) -/

theorem two_le_txfDepth {p : Params} (h : p.wf) : 2 ≤ p.txfDepth :=
  let ⟨_, _, _, _, _, hdepth, _⟩ := h
  hdepth

section
variable {s : State} {c : CycleIn}

/-- A cycle with its inputs placed is the cycle of the row they lead with. -/
theorem advance_ts_of_inputs {cs : List CycleIn} (h : s.inputs = c :: cs) (hrst : c.rst = false) :
    (advance s).ts = nextTs s.params c.edgeIn (effectOf (leadInstr c) s) s.ts := by
  have hnext : s.nextInput = c := by rw [State.nextInput, h]
  rw [advance_ts (by rw [resetCycleAt, hnext, hrst]), rowAt, hnext]

/-- Without a transaction nothing is proposed. -/
theorem effectOf_leadInstr_of_noBus (hbus : c.bus = none) : effectOf (leadInstr c) s = .none := by
  cases hrst : c.rst with
  | true => rw [leadInstr_of_rst hrst]; rfl
  | false =>
    cases hrx : c.rxValid with
    | true => rw [leadInstr_of_byte hrst hbus hrx]; rfl
    | false => rw [leadInstr_of_noByte hrst hbus hrx]; rfl

end

/-- A `SEQ_TXF` write on the bus pushes its value. -/
theorem effectOf_writeTxf (v : Word) (rxValid : Bool) (rxData : Byte) (edgeIn : Bool) (s : State) :
    effectOf (leadInstr ⟨false, some (writeReq 0x084#12 v), rxValid, rxData, edgeIn⟩) s = .pushTxf v := by
  rw [leadInstr_of_bus rfl rfl, decodeRequest_requestOf (i := .wrSeqTxf v) rfl rfl]
  rfl

/-- RESET_ARM with IRQ_EN on the bus. -/
theorem effectOf_writeArm (rxValid : Bool) (rxData : Byte) (edgeIn : Bool) (s : State) :
    effectOf (leadInstr ⟨false, some (writeReq 0x080#12 0x6#32), rxValid, rxData, edgeIn⟩) s = .resetArm true := by
  rw [leadInstr_of_bus rfl rfl, decodeRequest_requestOf (i := .wrSeqCtrl 0x6#32) rfl rfl]
  rfl

/-- TS armed with IRQ_EN and not yet past `WAIT_EDGE`: its state, its FIFO, the values taken and the last sample. -/
def armedSequencer (st : SState) (txf : List Word) (dly wid : Word) (prev : Bool) : Sequencer where
  en := true
  irqEn := true
  sstate := st
  txf := txf
  txfOvf := false
  irqPend := false
  dly := dly
  wid := wid
  cnt := 0#32
  out := false
  prev := prev
  prevValid := true

section
variable {p : Params} {d w : Word} {e e' : Bool}

/-- The delay goes into the empty FIFO. -/
theorem nextTs_armed_idle (hp : 2 ≤ p.txfDepth) :
    nextTs p e' (.pushTxf d) (armedSequencer .idle [] 0#32 0#32 e) = armedSequencer .idle [d] 0#32 0#32 e' := by
  rw [nextTs_pushTxf, gatedStep_enabled rfl, sequencerStep_noParameter (.inl rfl) rfl, pushTxf,
    if_pos (by rw [armedSequencer]; exact Nat.zero_lt_of_lt hp)]
  rfl

/-- TS takes the delay in the cycle that pushes the width. -/
theorem nextTs_armed_takesDelay (hp : 2 ≤ p.txfDepth) :
    nextTs p e' (.pushTxf w) (armedSequencer .idle [d] 0#32 0#32 e) = armedSequencer .loadWidth [w] d 0#32 e' := by
  rw [nextTs_pushTxf, gatedStep_enabled rfl, sequencerStep_idle rfl rfl, pushTxf,
    if_pos (by rw [armedSequencer]; exact hp)]
  rfl

/-- And the width in the next one. -/
theorem nextTs_armed_takesWidth :
    nextTs p e' .none (armedSequencer .loadWidth [w] d 0#32 e) = armedSequencer .waitEdge [] d w e' := by
  rw [nextTs_none, gatedStep_enabled rfl, sequencerStep_loadWidth rfl rfl]
  rfl

end

/-- Settles O43, cycle by cycle: RESET_ARM, the delay pushed, the delay taken with the width pushed, the width taken. -/
theorem armReachesWaitEdgeInFourCycles : Obligations.ArmReachesWaitEdgeInFourCycles := by
  intro s d w x rest hp hin
  have hdepth : 2 ≤ s.params.txfDepth := two_le_txfDepth hp
  have hin1 : (after 1 s).inputs = _ := (advance_inputs s).trans (congrArg List.tail hin)
  have hin2 : (after 2 s).inputs = _ := (advance_inputs _).trans (congrArg List.tail hin1)
  have hin3 : (after 3 s).inputs = _ := (advance_inputs _).trans (congrArg List.tail hin2)
  have h1 : (after 1 s).ts = armedSequencer .idle [] 0#32 0#32 (x 0).2.2 := by
    rw [after_one, advance_ts_of_inputs hin rfl, effectOf_writeArm, nextTs_resetArm]
    rfl
  have h2 : (after 2 s).ts = armedSequencer .idle [d] 0#32 0#32 (x 1).2.2 := by
    rw [after_succ, advance_ts_of_inputs hin1 rfl, effectOf_writeTxf, h1, after_params]
    exact nextTs_armed_idle hdepth
  have h3 : (after 3 s).ts = armedSequencer .loadWidth [w] d 0#32 (x 2).2.2 := by
    rw [after_succ, advance_ts_of_inputs hin2 rfl, effectOf_writeTxf, h2, after_params]
    exact nextTs_armed_takesDelay hdepth
  rw [after_succ, advance_ts_of_inputs hin3 rfl, effectOf_leadInstr_of_noBus rfl, h3]
  exact nextTs_armed_takesWidth

end Sys2Proof.Machine
end

section
/-! PROOF. At most one completion per arm cycle (43_timing_sequencer.md R190, R211): along a run TS's state says how
far an arm cycle has come, and in which cycles it took its values and its edge. -/

namespace Sys2Proof.Machine

/-! ### How far an arm cycle has come -/

/-- The cycles of `DELAY` and `PULSE` still to go, this one included (R201, R203). -/
def cyclesLeft (ts : Sequencer) : Nat :=
  match ts.sstate with
  | .delay => ts.cnt.toNat + ts.wid.toNat
  | .pulse => ts.cnt.toNat
  | .idle | .loadWidth | .waitEdge | .fired => 0

section
variable {ts u : Sequencer}

theorem cyclesLeft_delay (h : ts.sstate = .delay) : cyclesLeft ts = ts.cnt.toNat + ts.wid.toNat := by
  simp [cyclesLeft, h]

theorem cyclesLeft_pulse (h : ts.sstate = .pulse) : cyclesLeft ts = ts.cnt.toNat := by
  simp [cyclesLeft, h]

theorem cyclesLeft_congr (hsstate : u.sstate = ts.sstate) (hcnt : u.cnt = ts.cnt) (hwid : u.wid = ts.wid) :
    cyclesLeft u = cyclesLeft ts := by
  rw [cyclesLeft, cyclesLeft, hsstate, hcnt, hwid]

/-- Counting down takes no more than one cycle. -/
theorem cyclesLeft_count (h : ts.sstate = .delay ∨ ts.sstate = .pulse) :
    cyclesLeft ts ≤ cyclesLeft { ts with cnt := ts.cnt - 1#32 } + 1 := by
  have hcnt : ts.cnt.toNat ≤ (ts.cnt - 1#32).toNat + 1 := by bv_omega
  rcases h with h | h <;> simp only [cyclesLeft, h] <;> omega

/-- `enter_pulse()` keeps the values taken, and leaves the width to go, with width 0 nothing (R202). -/
theorem enterPulse_spec : (enterPulse ts).dly = ts.dly ∧ (enterPulse ts).wid = ts.wid ∧
    ((enterPulse ts).sstate = .pulse ∨ (enterPulse ts).sstate = .fired) ∧
    cyclesLeft (enterPulse ts) = ts.wid.toNat := by
  by_cases hw : ts.wid = 0#32
  · rw [enterPulse_zero hw]
    exact ⟨rfl, rfl, .inr rfl, by rw [hw]; rfl⟩
  · rw [enterPulse_pos hw]
    exact ⟨rfl, rfl, .inl rfl, rfl⟩

end

section
variable (s : State) (first : Nat)

/-- No reset cycle and no RESET_ARM from cycle `a` to before cycle `n`. -/
def Unbroken (a n : Nat) : Prop :=
  ∀ k, a ≤ k → k < n → resetCycleAt (after k s) = false ∧ isResetArm (rowAt (after k s)) = false

/-- The delay that TS holds in cycle `n` was taken in cycle `a`, not before `first`, and not abandoned since. -/
structure TookDelay (n a : Nat) : Prop where
  begun : first ≤ a
  past : a < n
  takes : TakesDelay (after a s) (after n s).ts.dly
  unbroken : Unbroken s a n

/-- And the width in cycle `b`. -/
structure TookWidth (n a b : Nat) : Prop extends TookDelay s first n a where
  order : a < b
  pastWidth : b < n
  takesWidth : TakesWidth (after b s) (after n s).ts.wid

/-- And the edge in cycle `c`, and the cycles since are as many as have been counted, or more. -/
structure TookEdge (n a b c : Nat) : Prop extends TookWidth s first n a b where
  orderEdge : b < c
  counts : edgeCountsAt (after c s) = true
  elapsed : c + (after n s).ts.dly.toNat + (after n s).ts.wid.toNat + 1 ≤ n + cyclesLeft (after n s).ts

/-- Where TS stands in cycle `n`, it has come that far in an arm cycle that began in cycle `first` or later. -/
def ArmReached (n : Nat) : Prop :=
  match (after n s).ts.sstate with
  | .idle => True
  | .loadWidth => ∃ a, TookDelay s first n a
  | .waitEdge => ∃ a b, TookWidth s first n a b
  | .delay | .pulse | .fired => ∃ a b c, TookEdge s first n a b c

end

section
variable {s : State} {first n a b c : Nat}

theorem armReached_idle (h : (after n s).ts.sstate = .idle) : ArmReached s first n := by
  simp [ArmReached, h]

theorem armReached_loadWidth (h : (after n s).ts.sstate = .loadWidth) :
    ArmReached s first n ↔ ∃ a, TookDelay s first n a := by
  simp [ArmReached, h]

theorem armReached_waitEdge (h : (after n s).ts.sstate = .waitEdge) :
    ArmReached s first n ↔ ∃ a b, TookWidth s first n a b := by
  simp [ArmReached, h]

theorem armReached_delay (h : (after n s).ts.sstate = .delay) :
    ArmReached s first n ↔ ∃ a b c, TookEdge s first n a b c := by
  simp [ArmReached, h]

theorem armReached_pulse (h : (after n s).ts.sstate = .pulse) :
    ArmReached s first n ↔ ∃ a b c, TookEdge s first n a b c := by
  simp [ArmReached, h]

theorem armReached_fired (h : (after n s).ts.sstate = .fired) :
    ArmReached s first n ↔ ∃ a b c, TookEdge s first n a b c := by
  simp [ArmReached, h]

/-! ### One more cycle -/

theorem Unbroken.succ (h : Unbroken s a n) (hn : Unbroken s n (n + 1)) : Unbroken s a (n + 1) := fun k ha hk => by
  rcases Nat.lt_succ_iff_lt_or_eq.1 hk with hlt | rfl
  · exact h k ha hlt
  · exact hn k le_rfl hk

section
variable (hn : Unbroken s n (n + 1))
include hn

theorem TookDelay.succ (h : TookDelay s first n a) (hdly : (after (n + 1) s).ts.dly = (after n s).ts.dly) :
    TookDelay s first (n + 1) a where
  begun := h.begun
  past := h.past.trans n.lt_succ_self
  takes := hdly ▸ h.takes
  unbroken := h.unbroken.succ hn

variable (hdly : (after (n + 1) s).ts.dly = (after n s).ts.dly) (hwid : (after (n + 1) s).ts.wid = (after n s).ts.wid)
include hdly hwid

theorem TookWidth.succ (h : TookWidth s first n a b) : TookWidth s first (n + 1) a b where
  toTookDelay := h.toTookDelay.succ hn hdly
  order := h.order
  pastWidth := h.pastWidth.trans n.lt_succ_self
  takesWidth := hwid ▸ h.takesWidth

/-- An edge that counts leaves the whole delay and width to go. -/
theorem TookWidth.succ_of_edge (h : TookWidth s first n a b) (hedge : edgeCountsAt (after n s) = true)
    (hleft : cyclesLeft (after (n + 1) s).ts = (after n s).ts.dly.toNat + (after n s).ts.wid.toNat) :
    TookEdge s first (n + 1) a b n where
  toTookWidth := h.succ hn hdly hwid
  orderEdge := h.pastWidth
  counts := hedge
  elapsed := by rw [hdly, hwid]; omega

theorem TookEdge.succ (h : TookEdge s first n a b c)
    (hleft : cyclesLeft (after n s).ts ≤ cyclesLeft (after (n + 1) s).ts + 1) :
    TookEdge s first (n + 1) a b c where
  toTookWidth := h.toTookWidth.succ hn hdly hwid
  orderEdge := h.orderEdge
  counts := h.counts
  elapsed := by have := h.elapsed; rw [hdly, hwid]; omega

/-- A cycle that keeps `sstate` and the values taken keeps what has been reached. -/
theorem ArmReached.succ_of_same (h : ArmReached s first n)
    (hsstate : (after (n + 1) s).ts.sstate = (after n s).ts.sstate)
    (hleft : cyclesLeft (after n s).ts ≤ cyclesLeft (after (n + 1) s).ts + 1) : ArmReached s first (n + 1) := by
  cases hs : (after n s).ts.sstate with rw [hs] at hsstate
  | idle => exact armReached_idle hsstate
  | loadWidth =>
    obtain ⟨a, ha⟩ := (armReached_loadWidth hs).1 h
    exact (armReached_loadWidth hsstate).2 ⟨a, ha.succ hn hdly⟩
  | waitEdge =>
    obtain ⟨a, b, hb⟩ := (armReached_waitEdge hs).1 h
    exact (armReached_waitEdge hsstate).2 ⟨a, b, hb.succ hn hdly hwid⟩
  | delay =>
    obtain ⟨a, b, c, hc⟩ := (armReached_delay hs).1 h
    exact (armReached_delay hsstate).2 ⟨a, b, c, hc.succ hn hdly hwid hleft⟩
  | pulse =>
    obtain ⟨a, b, c, hc⟩ := (armReached_pulse hs).1 h
    exact (armReached_pulse hsstate).2 ⟨a, b, c, hc.succ hn hdly hwid hleft⟩
  | fired =>
    obtain ⟨a, b, c, hc⟩ := (armReached_fired hs).1 h
    exact (armReached_fired hsstate).2 ⟨a, b, c, hc.succ hn hdly hwid hleft⟩

/-- A cycle that ends the delay, or takes the edge with delay 0, takes the arm cycle to its width or past it. -/
theorem ArmReached.succ_of_enterPulse (h : ArmReached s first n) (hen : (after n s).ts.en = true)
    (hs : (after n s).ts.sstate = .waitEdge ∧ edgeAt (after n s) = true ∧ (after n s).ts.dly = 0#32 ∨
      (after n s).ts.sstate = .delay ∧ (after n s).ts.cnt = 1#32)
    (hsstate : (after (n + 1) s).ts.sstate = .pulse ∨ (after (n + 1) s).ts.sstate = .fired)
    (hleft : cyclesLeft (after (n + 1) s).ts = (after n s).ts.wid.toNat) : ArmReached s first (n + 1) := by
  have hreached : ∃ a b c, TookEdge s first (n + 1) a b c := by
    rcases hs with ⟨hs, hedge, hd⟩ | ⟨hs, hc⟩
    · obtain ⟨a, b, hb⟩ := (armReached_waitEdge hs).1 h
      exact ⟨a, b, n, hb.succ_of_edge hn hdly hwid (by simp [edgeCountsAt, hen, hs, hedge]) (by simp [hleft, hd])⟩
    · obtain ⟨a, b, c, hc'⟩ := (armReached_delay hs).1 h
      refine ⟨a, b, c, hc'.succ hn hdly hwid ?_⟩
      rw [hleft, cyclesLeft_delay hs, hc, Nat.add_comm]
      rfl
  exact hsstate.elim (fun hs => (armReached_pulse hs).2 hreached) fun hs => (armReached_fired hs).2 hreached

end

/-- A cycle that is neither a reset cycle nor RESET_ARM takes an arm cycle on as TS's step does. -/
theorem ArmReached.succ (hfirst : first ≤ n) (hn : Unbroken s n (n + 1)) (hfired : (after n s).ts.sstate ≠ .fired)
    (h : ArmReached s first n) : ArmReached s first (n + 1) := by
  obtain ⟨hr, ha⟩ := hn n le_rfl n.lt_succ_self
  obtain ⟨hdly, hwid, hcnt, -, hsstate, -⟩ := advance_ts_noArm hr ha
  rw [← after_succ] at hdly hwid hcnt hsstate
  replace hsstate := hsstate hfired
  have hleft := cyclesLeft_congr hsstate hcnt hwid
  cases hen : (after n s).ts.en with
  | false =>
    rw [gatedStep_disabled hen] at hdly hwid hsstate hleft
    exact h.succ_of_same hn hdly hwid hsstate (by omega)
  | true =>
    rw [gatedStep_enabled hen] at hdly hwid hsstate hleft
    rcases sequencerStep_cases (edgeAt (after n s)) (after n s).ts with
      ⟨he, -⟩ | ⟨v, rest, hs, -, he⟩ | ⟨v, rest, hs, -, he⟩ | ⟨hs, hedge, -, he⟩ | ⟨hs, he⟩ | ⟨hs, -, he⟩ |
      ⟨hs, hc, he⟩ <;> rw [he] at hdly hwid hsstate hleft
    · exact h.succ_of_same hn hdly hwid hsstate (by omega)
    · exact (armReached_loadWidth hsstate).2 ⟨n, hfirst, n.lt_succ_self, ⟨hs, hsstate, rfl⟩, hn⟩
    · obtain ⟨a, ha⟩ := (armReached_loadWidth hs).1 h
      exact (armReached_waitEdge hsstate).2
        ⟨a, n, ha.succ hn hdly, ha.past, n.lt_succ_self, ⟨hs, hsstate, rfl⟩⟩
    · obtain ⟨a, b, hb⟩ := (armReached_waitEdge hs).1 h
      exact (armReached_delay hsstate).2
        ⟨a, b, n, hb.succ_of_edge hn hdly hwid (by simp [edgeCountsAt, hen, hs, hedge]) hleft⟩
    · obtain ⟨hdly', hwid', hsstate', hleft'⟩ := enterPulse_spec (ts := (after n s).ts)
      exact h.succ_of_enterPulse hn (hdly.trans hdly') (hwid.trans hwid') hen hs (by rwa [hsstate])
        (hleft.trans hleft')
    · exact h.succ_of_same hn hdly hwid hsstate (hleft ▸ cyclesLeft_count hs)
    · obtain ⟨a, b, c, hc'⟩ := (armReached_pulse hs).1 h
      exact (armReached_fired hsstate).2 ⟨a, b, c, hc'.succ hn hdly hwid (by simp [cyclesLeft_pulse hs, hc])⟩

/-! ### Along a run -/

theorem Unbroken.one (hr : resetCycleAt (after n s) = false) (ha : isResetArm (rowAt (after n s)) = false) :
    Unbroken s n (n + 1) := fun k hk hk' => by
  obtain rfl : k = n := by omega
  exact ⟨hr, ha⟩

/-- From `IDLE` or `FIRED` in cycle `first` on, TS is in `FIRED` or has come as far as its state says. -/
theorem armReached_after (hstart : (after first s).ts.sstate = .idle ∨ (after first s).ts.sstate = .fired)
    (hn : first ≤ n) : (after n s).ts.sstate = .fired ∨ ArmReached s first n := by
  induction n, hn using Nat.le_induction with
  | base => exact hstart.symm.imp_right armReached_idle
  | succ n hn ih =>
    cases hr : resetCycleAt (after n s) with
    | true => exact .inr (armReached_idle (by rw [after_succ, advance_ts_reset hr]; rfl))
    | false =>
      cases ha : isResetArm (rowAt (after n s)) with
      | true => exact .inr (armReached_idle (advance_ts_resetArm hr ha).1)
      | false =>
        by_cases hs : (after n s).ts.sstate = .fired
        · obtain ⟨-, -, -, -, -, hleaves, -⟩ := advance_ts_noArm hr ha
          exact (hleaves hs).imp_right armReached_idle
        · exact .inr ((ih.resolve_left hs).succ hn (.one hr ha) hs)

end

/-! ### Completions -/

/-- A completion comes from TS's step: no reset cycle, no RESET_ARM, and TS enters `FIRED` (R202, R203). -/
theorem completesAt_entersFired {s : State} (h : completesAt s = true) :
    resetCycleAt s = false ∧ isResetArm (rowAt s) = false ∧ s.ts.sstate ≠ .fired ∧
    (advance s).ts.sstate = .fired := by
  simp only [completesAt, Bool.and_eq_true, Bool.not_eq_true'] at h
  obtain ⟨hidle, hpend⟩ := h
  cases hr : resetCycleAt s with
  | true => rw [advance_ts_reset hr] at hpend; cases hpend
  | false =>
    cases ha : isResetArm (rowAt s) with
    | true => rw [(advance_ts_resetArm hr ha).2] at hpend; cases hpend
    | false =>
      obtain ⟨-, -, -, -, hsstate, -, hraise, -⟩ := advance_ts_noArm hr ha
      obtain ⟨-, -, hfired⟩ := gatedStep_completes hidle (hraise hpend)
      have hs : s.ts.sstate ≠ .fired := fun hs => by
        rw [gatedStep_fired hs, hidle] at hraise
        exact absurd (hraise hpend) Bool.false_ne_true
      exact ⟨rfl, rfl, hs, (hsstate hs).trans hfired⟩

/-- A completion in a run from `IDLE` or `FIRED` has its arm cycle in that run. -/
theorem armCycleWithin_of_completesAt {s : State} {first n : Nat}
    (hstart : (after first s).ts.sstate = .idle ∨ (after first s).ts.sstate = .fired) (hn : first ≤ n)
    (h : completesAt (after n s) = true) : ArmCycleWithin s first n := by
  obtain ⟨hr, ha, hs, hfired⟩ := completesAt_entersFired h
  rw [← after_succ] at hfired
  have hreached := ((armReached_after hstart hn).resolve_left hs).succ hn (.one hr ha) hs
  obtain ⟨a, b, c, hc⟩ := (armReached_fired hfired).1 hreached
  have helapsed := hc.elapsed
  rw [show cyclesLeft (after (n + 1) s).ts = 0 by simp [cyclesLeft, hfired]] at helapsed
  exact ⟨a, b, c, _, _, hc.begun, hc.order, hc.orderEdge, by omega, hc.takes, hc.takesWidth, hc.counts,
    fun k hk hk' => hc.unbroken k hk (Nat.lt_succ_of_le hk')⟩

/-- Settles O58: a completion is reached through an arm cycle, and the run after a completion starts in `FIRED`. -/
theorem completionComesOncePerArmCycle : Obligations.CompletionComesOncePerArmCycle := by
  refine ⟨fun s j hstart h => armCycleWithin_of_completesAt hstart j.zero_le h, fun s i j hij hi hj => ?_⟩
  obtain ⟨-, -, -, hfired⟩ := completesAt_entersFired hi
  exact armCycleWithin_of_completesAt (.inr hfired) hij hj

end Sys2Proof.Machine
end

section
/-! PROOF. The bus error (60_exceptions.md R231, R232) and what waits for the host in `FIRED` (60_exceptions.md R237,
R238, 43_timing_sequencer.md R204). -/

namespace Sys2Proof.Machine

/-! ### The bus error -/

theorem exec_busError (we : Bool) (off : BitVec 12) (size : BitVec 2) (w : Word) (s : State) :
    ∃ t, exec (.busError we off size w) s = .next t ∧ t.out.reply = some ⟨.error, 0#32⟩ ∧ NoBusEffect s t :=
  ⟨_, exec_eq _ s, rfl, rfl, rfl, rfl, rfl⟩

/-- Every other row with a transaction answers OKAY (R232). -/
theorem replyOf_error {i : Instr} {s : State} {r : Reply} (h : replyOf i s = some r) (herr : r.resp = .error) :
    ∃ we off size w, i = .busError we off size w := by
  cases i with
  | busError we off size w => exact ⟨we, off, size, w, rfl⟩
  | rxByte d => cases h
  | edgeSample e => cases h
  | rst => cases h
  | _ => obtain rfl := Option.some.inj h; cases herr

/-- A transaction in a reset cycle is answered OKAY (70_reset_and_hazards.md R261). -/
theorem resetCycle_reply_resp {s : State} {r : Reply} (h : (resetCycle s).out.reply = some r) : r.resp = .okay := by
  obtain ⟨-, hreply⟩ := Option.ite_none_right_eq_some.1 h
  cases hreply
  rfl

/-- Settles O50: an illegal transaction is the row BUS_ERROR, and every other row's answer, RST's too, is OKAY. -/
theorem busErrorChangesNothing : Obligations.BusErrorChangesNothing := by
  refine ⟨exec_busError, fun r s hillegal => ?_, fun i s t r h hreply herr => ?_⟩
  · have hlegal : legalAccess r.size r.off = false := by
      rw [← Bool.not_eq_true, legalAccess_iff, not_and_or]; exact hillegal
    rw [decodeRequest_illegal hlegal]
    exact exec_busError r.we r.off r.size r.wdata s
  · obtain rfl := exec_next_iff.1 h
    by_cases hi : i = .rst
    · subst hi
      rw [resetCycle_reply_resp hreply] at herr
      cases herr
    · rw [execState_out hi] at hreply
      exact replyOf_error hreply herr

/-! ### Waiting in `FIRED` -/

/-- `u` is `ts` but for the enables, `txf_ovf`, the edge sampler, and what the bus has appended to `txf`. -/
structure StandsSince (ts u : Sequencer) : Prop where
  sstate : u.sstate = ts.sstate
  irqPend : u.irqPend = ts.irqPend
  dly : u.dly = ts.dly
  wid : u.wid = ts.wid
  cnt : u.cnt = ts.cnt
  out : u.out = ts.out
  txf : ts.txf <+: u.txf

theorem StandsSince.refl (ts : Sequencer) : StandsSince ts ts :=
  ⟨rfl, rfl, rfl, rfl, rfl, rfl, ⟨[], List.append_nil _⟩⟩

theorem StandsSince.trans {ts u v : Sequencer} (h : StandsSince ts u) (h' : StandsSince u v) : StandsSince ts v where
  sstate := h'.sstate.trans h.sstate
  irqPend := h'.irqPend.trans h.irqPend
  dly := h'.dly.trans h.dly
  wid := h'.wid.trans h.wid
  cnt := h'.cnt.trans h.cnt
  out := h'.out.trans h.out
  txf := h.txf.trans h'.txf

/-- What the step makes of TS stands at the cycle's end, unless the transaction is a clear or RESET_ARM (R124). -/
theorem standsSince_nextTs {p : Params} {e : Bool} {eff : BusEffect} {ts : Sequencer} (hclear : eff ≠ .clearIrq)
    (harm : ∀ b, eff ≠ .resetArm b) : StandsSince (gatedStep (edgeSeen p ts e) ts) (nextTs p e eff ts) := by
  have hkept := StandsSince.refl (gatedStep (edgeSeen p ts e) ts)
  cases eff with
  | clearIrq => exact absurd rfl hclear
  | resetArm b => exact absurd rfl (harm b)
  | pushTxf v =>
    rw [nextTs_pushTxf, pushTxf]
    split
    · exact { hkept with txf := ⟨[v], rfl⟩ }
    · exact { hkept with }
  | _ => exact { hkept with }

/-- One cycle in `FIRED`, where the step proposes nothing (R204). -/
theorem standsSince_advance_of_fired {s : State} (hs : s.ts.sstate = .fired) (hr : resetCycleAt s = false)
    (hclear : isIrqClear (rowAt s) = false) (harm : isResetArm (rowAt s) = false) :
    StandsSince s.ts (advance s).ts := by
  have h := standsSince_nextTs (p := s.params) (e := s.nextInput.edgeIn) (ts := s.ts)
    (effectOf_ne_clearIrq (s := s) hclear) (effectOf_ne_resetArm harm)
  rwa [gatedStep_fired hs, ← advance_ts hr] at h

/-- Nothing that ends the wait in `FIRED` among the next `n` cycles: no reset cycle, no clear, no RESET_ARM. -/
def LeftFired (n : Nat) (s : State) : Prop :=
  ∀ k, k < n → resetCycleAt (after k s) = false ∧ isIrqClear (rowAt (after k s)) = false ∧
    isResetArm (rowAt (after k s)) = false

theorem LeftFired.mono {m n : Nat} {s : State} (h : LeftFired n s) (hm : m ≤ n) : LeftFired m s :=
  fun k hk => h k (Nat.lt_of_lt_of_le hk hm)

/-- A run in `FIRED`, by induction on the cycles. -/
theorem standsSince_after_of_fired {s : State} {n : Nat} (hs : s.ts.sstate = .fired) (h : LeftFired n s) :
    StandsSince s.ts (after n s).ts := by
  induction n with
  | zero => exact .refl s.ts
  | succ n ih =>
    have hn := ih (h.mono n.le_succ)
    obtain ⟨hr, hclear, harm⟩ := h n n.lt_succ_self
    exact hn.trans (standsSince_advance_of_fired (hn.sstate.trans hs) hr hclear harm)

/-- Settles O44: TS stands through the run, and each cycle's `irq` shows the pending bit of its start. -/
theorem firedWaitsForTheHost : Obligations.FiredWaitsForTheHost := by
  intro s n hs h
  have hleft : LeftFired n s := h
  obtain ⟨hsstate, hirq, hdly, hwid, hcnt, hout, htxf⟩ := standsSince_after_of_fired hs hleft
  refine ⟨hsstate.trans hs, hirq, hdly, hwid, hcnt, hout, htxf, fun k hk => ?_⟩
  obtain ⟨hr, -⟩ := hleft k hk
  have hpend := (standsSince_after_of_fired hs (hleft.mono hk.le)).irqPend
  rw [after_succ, advance_out hr, outputsOf_irq, hpend]

end Sys2Proof.Machine
end

section
/-! PROOF. What a reset cycle leaves (70_reset_and_hazards.md R260, R262): the reset values, what every register
reads right after, and the edge sampler without a sample. -/

namespace Sys2Proof.Machine

/-- Settles O51: the row is a reset cycle, whose state is the parts' reset values around the old `QMem`. -/
theorem resetCycleRestoresResetValues : Obligations.ResetCycleRestoresResetValues :=
  fun s => ⟨resetCycle s, exec_eq .rst s, resetCycle_rq s, resetCycle_pd s, resetCycle_ts s⟩

/-! ### The registers after reset -/

/-- A row with a transaction answers its response (40_cycle_step.md R125). -/
theorem answersOkay_execState {i : Instr} {s : State} {v : Word} (h : replyOf i s = some (Reply.ok v)) :
    AnswersOkay (execState i s) v := by
  have hne : i ≠ .rst := by rintro rfl; cases h
  rw [AnswersOkay, execState_out hne]
  exact h

/-- `EMPTY` alone is bit 0 (R33). -/
theorem packQStatus_empty : packQStatus false false true = 1#32 := by decide

/-- The packed registers of PD and TS are 0 where each of their fields is (R36, R39, R41). -/
theorem packDetStatus_zero : packDetStatus false .idle 0 0 = 0#32 := by decide

theorem packSeqCtrl_zero : packSeqCtrl false false = 0#32 := by decide

theorem packSeqStatus_zero : packSeqStatus 0 false false false false .idle = 0#32 := by decide

/-- An empty store reads 0 in every word. -/
theorem Memory.readWord_nil (k : BitVec 5) : Memory.readWord [] k = 0#32 :=
  (by decide : packBytes blankByte blankByte blankByte blankByte = 0#32)

theorem RelayQueue.reset_stallSeen (p : Params) (m : Memory) : (RelayQueue.reset p m).stallSeen = false := rfl

section
variable {p : Params}

/-- The consumer sees an empty queue after reset: no pushes and no pops are counted. -/
theorem levelC_reset (hp : p.wf) (m : Memory) : levelC p (RelayQueue.reset p m) = 0 := by
  rw [(queueCounts_reset p m).levelC_eq (one_le_syncStages hp)]
  simp

theorem canPop_reset (hp : p.wf) (m : Memory) : canPop p (RelayQueue.reset p m) = false := by
  rw [← Bool.not_eq_true, canPop_iff, levelC_reset hp]
  exact Nat.lt_irrefl 0

theorem emptyC_reset (hp : p.wf) (m : Memory) : emptyC p (RelayQueue.reset p m) = true :=
  emptyC_iff.2 (levelC_reset hp m)

theorem fullC_reset (hp : p.wf) (m : Memory) : fullC p (RelayQueue.reset p m) = false := by
  rw [← Bool.not_eq_true, fullC_iff, levelC_reset hp]
  exact (queueSize_pos p).ne

theorem replyOf_rdQData_resetWith (hp : p.wf) :
    replyOf .rdQData (State.resetWith p) = some (Reply.ok 0#32) := by
  simp [replyOf, State.resetWith, canPop_reset hp]

theorem replyOf_rdQLevel_resetWith (hp : p.wf) :
    replyOf .rdQLevel (State.resetWith p) = some (Reply.ok 0#32) := by
  simp [replyOf, State.resetWith, levelC_reset hp, natWord]

theorem replyOf_rdQStatus_resetWith (hp : p.wf) :
    replyOf .rdQStatus (State.resetWith p) = some (Reply.ok 1#32) := by
  simp [replyOf, State.resetWith, RelayQueue.reset_stallSeen, emptyC_reset hp, fullC_reset hp, packQStatus_empty]

/-- The queue's size fits in a word, so `Q_CAPACITY` is not cut off (R32). -/
theorem natWord_queueSize_toNat (hp : p.wf) : (natWord (queueSize p)).toNat = 2 ^ p.a := by
  obtain ⟨-, ha, -⟩ := hp
  rw [natWord, BitVec.toNat_ofNat]
  exact Nat.mod_eq_of_lt (Nat.pow_lt_pow_right Nat.one_lt_two (by omega))

end

/-- Settles O52: `Q_DATA`, `Q_LEVEL` and `Q_STATUS` show the empty queue, `Q_CAPACITY` the parameter, and every other
register the reset value of its fields. -/
theorem registersAfterReset : Obligations.RegistersAfterReset := by
  intro p i t hp h
  obtain rfl := exec_next_iff.1 h
  refine ⟨fun hi => answersOkay_execState ?_, fun hi => answersOkay_execState ?_, fun hi => ?_⟩
  · rcases hi with rfl | rfl | rfl | rfl | rfl | ⟨k, rfl⟩ | rfl | rfl | rfl | rfl | rfl
    · exact replyOf_rdQData_resetWith hp
    · exact replyOf_rdQLevel_resetWith hp
    · rfl
    · exact congrArg (some <| Reply.ok ·) packDetStatus_zero
    · rfl
    · exact congrArg (some <| Reply.ok ·) (Memory.readWord_nil k)
    · exact congrArg (some <| Reply.ok ·) packSeqCtrl_zero
    · exact congrArg (some <| Reply.ok ·) packSeqStatus_zero
    all_goals rfl
  · rw [hi]
    exact replyOf_rdQStatus_resetWith hp
  · rw [hi]
    exact ⟨_, answersOkay_execState rfl, natWord_queueSize_toNat hp⟩

/-! ### The edge sampler after reset -/

/-- Without a sample there is no edge, whatever the level is (43_timing_sequencer.md R199). -/
theorem edgeSeen_of_noSample {p : Params} {ts : Sequencer} (h : ts.prevValid = false) (e : Bool) :
    edgeSeen p ts e = false := by
  rw [edgeSeen, h, Bool.false_and]

/-- Settles O53: a reset cycle leaves TS at its reset values, disabled and without a sample. -/
theorem noEdgeInFirstCycleAfterReset : Obligations.NoEdgeInFirstCycleAfterReset := by
  intro s e hr
  rw [after_one, advance_ts_reset hr]
  exact ⟨edgeSeen_of_noSample rfl e, rfl⟩

end Sys2Proof.Machine
end
